-- ==== Sys2Proof/Word.lean ====
section
/-! DEFINITION. The two word types of FCB: a byte of the bus, of a register or of a track, and a 16-bit word (rule R7). -/

namespace Sys2Proof

/-- `u8` (rule R7): a primary register, a byte on the bus, a byte of a track, of flux or of an image. -/
abbrev Byte := BitVec 8

/-- `u16` (rule R7): the CRC register and a 16-bit flux window. -/
abbrev Word16 := BitVec 16

end Sys2Proof
end

