-- ==== Sys2Proof/Config.lean ====
section
/-! DEFINITION. The parameters of FCB (rule R6): the constants the spec fixes, the open parameters as one record that
`State` carries and no step writes, and the free values as constants without a body (`Config.freeWait`, which reads the state, stands after it in
Machine/State.lean). -/

namespace Sys2Proof

/-- The byte spaces an `XFER` or a `CRC.RANGE` can name (rules R32, R50, R113): the track cache, the private array STAGE, and
the "STAGE-like private memory" that HOSTX fills (rule R38). -/
inductive Space where
  | trk | stage | hx
  deriving DecidableEq, Repr

/-- The step direction `DIR` (rule R33): +1 or -1. -/
inductive Dir where
  | plus | minus
  deriving DecidableEq, Repr

/-- The predicate `WaitNeeded` (rules R6, R181, D40, U5), an open parameter, as data: never true; the candidate of U5 (a
data-register access during a service operation with `DRQ = 0`); or an arbitrary predicate
of the state and the transaction, `Config.freeWait` (log 5). -/
inductive WaitPolicy where
  | never | dataPhase | free
  deriving DecidableEq, Repr

/-- The branch of D19 and U1: is the step delay spent inside the dispatch step, or counted down by CLOCK (rule R257)? -/
inductive StepDelay where
  | blocking | tickBased
  deriving DecidableEq, Repr

/-- The CRC's four values as one record, as rule R110 asks, so that a claim can name them. -/
structure CrcParams where
  poly : Word16
  init : Word16
  msbFirst : Bool
  xorout : Word16
  deriving DecidableEq, Repr

/-- Rules R6, R110, D2: polynomial x^16 + x^12 + x^5 + 1, preset 0xFFFF, most significant bit first, no final exclusive-or. -/
def CrcParams.ccitt : CrcParams := ⟨0x1021, 0xFFFF, true, 0x0000⟩

/-- The open parameters of rule R6. They are fixed for one machine: no step writes the field `State.cfg` that holds them. -/
structure Config where
  /-- `TRK_CAP`: capacity in bytes of TRK and of STAGE. -/
  trkCap : Nat
  /-- `FM_STRIDE`: flux bits per FM half-cell, 1 or 2. -/
  fmStride : Nat
  /-- `NMI_IDLE_PATTERN`. -/
  nmiIdle : Byte
  /-- `NMI_INTRQ_PATTERN`. -/
  nmiIntrq : Byte
  /-- `HLD_STATUS`. -/
  hldStatus : Bool
  /-- `RESET_DIR`. -/
  resetDir : Dir
  /-- `RESET_HOLD_US`. -/
  resetHoldUs : Nat
  /-- `MOTOR_ON_US`. -/
  motorOnUs : Nat
  /-- `WaitNeeded`. -/
  waitNeeded : WaitPolicy
  /-- The branch of D19 (U1). -/
  stepDelay : StepDelay
  /-- `MAGIC_SEQ`: recorded, without effect inside FCB (rules R40, R176, D49). -/
  magicSeq : Vector Byte 9
  deriving DecidableEq, Repr

/-- What rule R6 requires of the open parameters: `TRK_CAP` holds at least the pointer table and what a drive of 256 bytes
needs (rule R252), `FM_STRIDE` is 1 or 2, the two NMI patterns differ. -/
def Config.wf (c : Config) : Bool :=
  decide (256 ≤ c.trkCap) && (c.fmStride == 1 || c.fmStride == 2) && (c.nmiIdle != c.nmiIntrq)

/-- The parameter values at `State.reset`: `TRK_CAP`, `FM_STRIDE`, `WaitNeeded` and the blocking branch as rule R6 and D19
recommend them; the others DESIGN CHOICE (log 1): the spec leaves them open and no statement rests on their values. -/
def Config.recommended : Config where
  trkCap := 16384
  fmStride := 2
  nmiIdle := 0xFF
  nmiIntrq := 0x7F
  hldStatus := false
  resetDir := .plus
  resetHoldUs := 1000000
  motorOnUs := 2000000
  waitNeeded := .never
  stepDelay := .blocking
  magicSeq := Vector.replicate 9 0

/-- FREE VALUE (log 4): the byte `HOSTX.BYTE` answers a `RD_DATA` made while `HOSTSEL` (rule R171, U15) when HOSTX has offered none. -/
opaque Config.freeByte : Nat → Byte

/-- FREE VALUE (log 6): the result of `SCAN.DMK_OFFSET` for a drive that is not a DMK drive, which rule R140 does not state. -/
opaque Config.freeOffset : Nat → Nat

/-- FREE VALUE (log 32): the flux byte at a place that rule R53 calls legal and that lies at or beyond the end of the block, where
the spec gives no byte. It is taken of the block (its cells and its length) and the place. -/
opaque Config.freeFlux : List (Nat × Byte) → Nat → Nat → Byte

end Sys2Proof
end

