-- ==== Sys2Proof/Syntax.lean ====
section
/-! DEFINITION. The instructions of FCB: one constructor per row of the opcode table, in the table's order: eleven bus
transactions (rule R82), eleven commands (rule R83), fourteen host opcodes (rule R89), thirty-three unit operations and
internal steps (rule R91). A field named `z` or `a` holds bits the format ignores (rules R80, R84 to R86). -/

namespace Sys2Proof

/-- One instruction of one of the three layers of rule R3. Sides are `Bool` (0 = false), drives `Fin 4`, slots `Fin 128`;
offsets, lengths and flux bit positions are natural numbers. -/
inductive Instr where
  -- bus transactions (rules R168 to R179)
  | rdStatus
  | rdTrack
  | rdSector
  | rdData
  | wrCmd (v : Byte)
  | wrTrack (v : Byte)
  | wrSector (v : Byte)
  | wrData (v : Byte)
  | rdNmi (a : BitVec 2)
  | wrNmi (a : BitVec 2) (v : Byte)
  | wrDrvsel (a : BitVec 2) (v : Byte)
  -- commands (rules R190 to R209)
  | restore (z : BitVec 4)
  | seek (z : BitVec 2) (rate : BitVec 2)
  | step (u : Bool) (z : BitVec 2) (rate : BitVec 2)
  | stepin (u : Bool) (z : BitVec 2) (rate : BitVec 2)
  | stepout (u : Bool) (z : BitVec 2) (rate : BitVec 2)
  | rdsec (z : BitVec 5)
  | wrsec (z : BitVec 5)
  | rdaddr (z : BitVec 4)
  | forceint (ien : BitVec 4)
  | rdtrk (z : BitVec 4)
  | wrtrk (z : BitVec 4)
  -- host opcodes (rules R89, R211)
  | hxVersion
  | hxFindfirst
  | hxFindnext
  | hxMount
  | hxOpen
  | hxRead
  | hxWrite
  | hxClose
  | hxSettime
  | hxGettime
  | hxFindini
  | hxFinddmk
  | hxFindhfe
  | hxUnknown (b : Byte)
  -- the CRC unit (rules R111 to R115)
  | crcInit
  | crcByte (b : Byte)
  | crcRange (space : Space) (start len : Nat)
  | crcRead
  | crcCheck (hi lo : Byte)
  -- the DEC unit (rules R121 to R135)
  | decBit (side : Bool) (k : Nat)
  | decWord (side : Bool) (p : Nat)
  | decMfmbyte (w : Word16)
  | decSyncscan (side : Bool) (p : Nat)
  | decMark (side : Bool) (q : Nat)
  | decIdfield (side : Bool) (q : Nat) (b1 b2 : Byte)
  | decDatafield (side : Bool) (q : Nat) (b1 b2 b3 : Byte)
  | decTrack (side : Bool)
  | decFmword (side : Bool) (p : Nat)
  | decFmscan (side : Bool) (p : Nat)
  | decFmtrack (side : Bool)
  -- the SCAN unit (rules R140 to R157)
  | scanDmkOffset (d : Fin 4) (track : Byte) (side : Bool)
  | scanLoad (d : Fin 4) (side : Bool) (track : Byte)
  | scanEnsure (d : Fin 4) (side : Bool) (track : Byte)
  | scanDmkTables
  | scanDamlookup (origin : Nat)
  | scanFind (track side sector : Byte)
  | scanFirstidam
  | scanView (i : Fin 128)
  | scanIdcrcCheck (i : Fin 128)
  | scanDatacrcCheck (i : Fin 128)
  | scanDatacrcGen (i : Fin 128)
  | scanWtResolve (m : Nat)
  | scanWtRebuild (d : Fin 4)
  | scanFlush
  -- internal steps (rules R186, R188, R250)
  | cmdClassify (v : Byte)
  | cmdDispatch
  | reset
  deriving DecidableEq, Repr

end Sys2Proof
end

