-- ==== Sys2Proof/WellFormed.lean ====
section
/-! DEFINITION. Which instructions the encoding of Decode.lean can carry. Drives, slots, sides and register bits are bounded by
their types; what is left to check is the width of the natural operands, the side of `SCAN.FIND` and the byte of `HX.UNKNOWN`. -/

namespace Sys2Proof

/-- An offset, a length or a bit position takes four bytes in the model's packet (log 2). -/
def fits32 (n : Nat) : Bool := decide (n < 4294967296)

/-- The thirteen named host opcodes of rule R89. -/
def namedHostOps : List Byte :=
  [0x01, 0x02, 0x03, 0x04, 0x05, 0x06, 0x07, 0x08, 0x09, 0x0A, 0x80, 0x81, 0x82]

/-- Rule R147: `SCAN.FIND`'s side is 0 or 1. Rule R89: `HX.UNKNOWN` applies only when no other host opcode does. -/
def WellFormed : Instr → Bool
  | .hxUnknown b => !namedHostOps.contains b
  | .crcRange _ start len => fits32 start && fits32 len
  | .decBit _ k => fits32 k
  | .decWord _ p => fits32 p
  | .decSyncscan _ p => fits32 p
  | .decMark _ q => fits32 q
  | .decIdfield _ q _ _ => fits32 q
  | .decDatafield _ q _ _ _ => fits32 q
  | .decFmword _ p => fits32 p
  | .decFmscan _ p => fits32 p
  | .scanDamlookup origin => fits32 origin
  | .scanFind _ side _ => side == 0 || side == 1
  | .scanWtResolve m => fits32 m
  | .rdStatus | .rdTrack | .rdSector | .rdData | .wrCmd _ | .wrTrack _ | .wrSector _ | .wrData _
  | .rdNmi _ | .wrNmi _ _ | .wrDrvsel _ _
  | .restore _ | .seek _ _ | .step _ _ _ | .stepin _ _ _ | .stepout _ _ _ | .rdsec _ | .wrsec _
  | .rdaddr _ | .forceint _ | .rdtrk _ | .wrtrk _
  | .hxVersion | .hxFindfirst | .hxFindnext | .hxMount | .hxOpen | .hxRead | .hxWrite | .hxClose
  | .hxSettime | .hxGettime | .hxFindini | .hxFinddmk | .hxFindhfe
  | .crcInit | .crcByte _ | .crcRead | .crcCheck _ _
  | .decMfmbyte _ | .decTrack _ | .decFmtrack _
  | .scanDmkOffset _ _ _ | .scanLoad _ _ _ | .scanEnsure _ _ _ | .scanDmkTables | .scanFirstidam
  | .scanView _ | .scanIdcrcCheck _ | .scanDatacrcCheck _ | .scanDatacrcGen _ | .scanWtRebuild _ | .scanFlush
  | .cmdClassify _ | .cmdDispatch | .reset => true

end Sys2Proof
end

