-- ==== Sys2Proof/Decode.lean ====
section
/-! DEFINITION. Decoding, total on any bytes and rejecting by name, and the encoder. FCB fetches nothing (rule R21) and its three
layers use overlapping codes (rules R82, R83, R89, R91), so the model carries an instruction to the machine as a PACKET of
eleven bytes (log 2): the row's code, a byte that names the layer, nine operand bytes. The code of a row is the spec's. -/

namespace Sys2Proof

/-- Why a packet is no instruction. -/
inductive DecodeError where
  /-- The packet does not have eleven bytes. -/
  | badLength
  /-- The layer byte is above 4. -/
  | badLayer
  /-- A bus selector has seven bits (rule R80); bit 7 is set. -/
  | badSelector
  /-- No control line is active: "not a qualifying transaction" (rule R80, U2). -/
  | noControlLine
  /-- Several control lines are active: "cannot occur" (rule R80, U2). -/
  | severalControlLines
  /-- The unit selector is none of rule R91's. -/
  | noSuchOperation
  /-- An operand byte is outside the operand's range: a side, a drive, a slot or a space. -/
  | badOperand
  /-- An operand byte the operation does not use is not zero. -/
  | unusedOperand
  deriving DecidableEq, Repr

/-- The layers of rule R3, the commands apart by the mode `HOSTSEL` (rule R88). -/
inductive Layer where
  | bus | command | hostop | unitop
  deriving DecidableEq, Repr

/-- The fourteen tags of rule R89 that FCB hands to HOSTX. -/
inductive HostTag where
  | version | findFirstAll | findNext | mount | openFile | readFileBlock | writeFileBlock | closeFile | setTime | getTime
  | findFirstIni | findFirstDmk | findFirstHfe
  | unknown (b : Byte)
  deriving DecidableEq, Repr

/-- Rule R89: the tag of a host opcode byte. -/
def hostTag (b : Byte) : HostTag :=
  match b.toNat with
  | 0x01 => .version
  | 0x02 => .findFirstAll
  | 0x03 => .findNext
  | 0x04 => .mount
  | 0x05 => .openFile
  | 0x06 => .readFileBlock
  | 0x07 => .writeFileBlock
  | 0x08 => .closeFile
  | 0x09 => .setTime
  | 0x0A => .getTime
  | 0x80 => .findFirstIni
  | 0x81 => .findFirstDmk
  | 0x82 => .findFirstHfe
  | _ => .unknown b

/-! ## Operand bytes -/

/-- Four bytes, least significant first (log 2). -/
def le32 (b0 b1 b2 b3 : Byte) : Nat :=
  b0.toNat + 256 * b1.toNat + 65536 * b2.toNat + 16777216 * b3.toNat

/-- The four bytes of a number, least significant first. -/
def le32Bytes (n : Nat) : List Byte :=
  [BitVec.ofNat 8 n, BitVec.ofNat 8 (n / 256), BitVec.ofNat 8 (n / 65536), BitVec.ofNat 8 (n / 16777216)]

/-- An operand reader: the value read and the bytes left. -/
abbrev Reader (α : Type) := List Byte → Except DecodeError (α × List Byte)

def takeByte : Reader Byte
  | b :: r => .ok (b, r)
  | [] => .error .badLength

def take32 : Reader Nat
  | b0 :: b1 :: b2 :: b3 :: r => .ok (le32 b0 b1 b2 b3, r)
  | _ => .error .badLength

def takeSide : Reader Bool
  | b :: r => if b = 0 then .ok (false, r) else if b = 1 then .ok (true, r) else .error .badOperand
  | [] => .error .badLength

def takeDrive : Reader (Fin 4)
  | b :: r => if h : b.toNat < 4 then .ok (⟨b.toNat, h⟩, r) else .error .badOperand
  | [] => .error .badLength

def takeSlot : Reader (Fin 128)
  | b :: r => if h : b.toNat < 128 then .ok (⟨b.toNat, h⟩, r) else .error .badOperand
  | [] => .error .badLength

def takeSpace : Reader Space
  | b :: r =>
    if b = 0 then .ok (.trk, r) else if b = 1 then .ok (.stage, r) else if b = 2 then .ok (.hx, r) else .error .badOperand
  | [] => .error .badLength

/-- The instruction, if no unused operand byte is set. -/
def done (i : Instr) (rest : List Byte) : Except DecodeError Instr :=
  if rest.all (· == 0) then .ok i else .error .unusedOperand

/-! ## The four code tables -/

/-- Rules R80 to R82: five control lines, of which exactly one is active, and two address lines. -/
def decodeBus (op : Byte) (os : List Byte) : Except DecodeError Instr :=
  let a := op.extractLsb' 0 2
  if op.getLsbD 7 then .error .badSelector
  else match (op.extractLsb' 2 5).toNat with
  | 0x10 =>
    match a.toNat with
    | 0 => done .rdStatus os
    | 1 => done .rdTrack os
    | 2 => done .rdSector os
    | _ => done .rdData os
  | 0x08 => do
    let (v, os) ← takeByte os
    match a.toNat with
    | 0 => done (.wrCmd v) os
    | 1 => done (.wrTrack v) os
    | 2 => done (.wrSector v) os
    | _ => done (.wrData v) os
  | 0x04 => done (.rdNmi a) os
  | 0x02 => do
    let (v, os) ← takeByte os
    done (.wrNmi a v) os
  | 0x01 => do
    let (v, os) ← takeByte os
    done (.wrDrvsel a v) os
  | 0x00 => .error .noControlLine
  | _ => .error .severalControlLines

/-- Rules R83 to R86, R187: the command that the upper nibble names, total on all 256 bytes (rule R90). -/
def decodeCommand (v : Byte) : Instr :=
  let z4 := v.extractLsb' 0 4
  let z5 := v.extractLsb' 0 5
  let u := v.getLsbD 4
  let z2 := v.extractLsb' 2 2
  let rate := v.extractLsb' 0 2
  match (v.extractLsb' 4 4).toNat with
  | 0x0 => .restore z4
  | 0x1 => .seek z2 rate
  | 0x2 | 0x3 => .step u z2 rate
  | 0x4 | 0x5 => .stepin u z2 rate
  | 0x6 | 0x7 => .stepout u z2 rate
  | 0x8 | 0x9 => .rdsec z5
  | 0xA | 0xB => .wrsec z5
  | 0xC => .rdaddr z4
  | 0xD => .forceint z4
  | 0xE => .rdtrk z4
  | _ => .wrtrk z4

/-- Rule R89: thirteen named opcodes, every other byte `HX.UNKNOWN` (rule R90). -/
def decodeHostop (b : Byte) : Instr :=
  match b.toNat with
  | 0x01 => .hxVersion
  | 0x02 => .hxFindfirst
  | 0x03 => .hxFindnext
  | 0x04 => .hxMount
  | 0x05 => .hxOpen
  | 0x06 => .hxRead
  | 0x07 => .hxWrite
  | 0x08 => .hxClose
  | 0x09 => .hxSettime
  | 0x0A => .hxGettime
  | 0x80 => .hxFindini
  | 0x81 => .hxFinddmk
  | 0x82 => .hxFindhfe
  | _ => .hxUnknown b

/-- Rule R91: the selectors `unit ++ op` of the unit operations, with the operands of each operation's own rule. -/
def decodeUnitop (op : Byte) (os : List Byte) : Except DecodeError Instr :=
  match op.toNat with
  | 0x10 => done .crcInit os
  | 0x11 => do
    let (b, os) ← takeByte os
    done (.crcByte b) os
  | 0x12 => do
    let (sp, os) ← takeSpace os
    let (start, os) ← take32 os
    let (len, os) ← take32 os
    done (.crcRange sp start len) os
  | 0x13 => done .crcRead os
  | 0x14 => do
    let (hi, os) ← takeByte os
    let (lo, os) ← takeByte os
    done (.crcCheck hi lo) os
  | 0x20 => do
    let (s, os) ← takeSide os
    let (k, os) ← take32 os
    done (.decBit s k) os
  | 0x21 => do
    let (s, os) ← takeSide os
    let (p, os) ← take32 os
    done (.decWord s p) os
  | 0x22 => do
    let (lo, os) ← takeByte os
    let (hi, os) ← takeByte os
    done (.decMfmbyte (hi ++ lo)) os
  | 0x23 => do
    let (s, os) ← takeSide os
    let (p, os) ← take32 os
    done (.decSyncscan s p) os
  | 0x24 => do
    let (s, os) ← takeSide os
    let (q, os) ← take32 os
    done (.decMark s q) os
  | 0x25 => do
    let (s, os) ← takeSide os
    let (q, os) ← take32 os
    let (b1, os) ← takeByte os
    let (b2, os) ← takeByte os
    done (.decIdfield s q b1 b2) os
  | 0x26 => do
    let (s, os) ← takeSide os
    let (q, os) ← take32 os
    let (b1, os) ← takeByte os
    let (b2, os) ← takeByte os
    let (b3, os) ← takeByte os
    done (.decDatafield s q b1 b2 b3) os
  | 0x27 => do
    let (s, os) ← takeSide os
    done (.decTrack s) os
  | 0x28 => do
    let (s, os) ← takeSide os
    let (p, os) ← take32 os
    done (.decFmword s p) os
  | 0x29 => do
    let (s, os) ← takeSide os
    let (p, os) ← take32 os
    done (.decFmscan s p) os
  | 0x2A => do
    let (s, os) ← takeSide os
    done (.decFmtrack s) os
  | 0x30 => do
    let (d, os) ← takeDrive os
    let (t, os) ← takeByte os
    let (s, os) ← takeSide os
    done (.scanDmkOffset d t s) os
  | 0x31 => do
    let (d, os) ← takeDrive os
    let (s, os) ← takeSide os
    let (t, os) ← takeByte os
    done (.scanLoad d s t) os
  | 0x32 => do
    let (d, os) ← takeDrive os
    let (s, os) ← takeSide os
    let (t, os) ← takeByte os
    done (.scanEnsure d s t) os
  | 0x33 => done .scanDmkTables os
  | 0x34 => do
    let (o, os) ← take32 os
    done (.scanDamlookup o) os
  | 0x35 => do
    let (t, os) ← takeByte os
    let (sd, os) ← takeByte os
    let (sec, os) ← takeByte os
    if sd = 0 ∨ sd = 1 then done (.scanFind t sd sec) os else .error .badOperand
  | 0x36 => done .scanFirstidam os
  | 0x37 => do
    let (i, os) ← takeSlot os
    done (.scanView i) os
  | 0x38 => do
    let (i, os) ← takeSlot os
    done (.scanIdcrcCheck i) os
  | 0x39 => do
    let (i, os) ← takeSlot os
    done (.scanDatacrcCheck i) os
  | 0x3A => do
    let (i, os) ← takeSlot os
    done (.scanDatacrcGen i) os
  | 0x3B => do
    let (m, os) ← take32 os
    done (.scanWtResolve m) os
  | 0x3C => do
    let (d, os) ← takeDrive os
    done (.scanWtRebuild d) os
  | 0x3D => done .scanFlush os
  | 0x40 => do
    let (v, os) ← takeByte os
    done (.cmdClassify v) os
  | 0x41 => done .cmdDispatch os
  | 0x4F => done .reset os
  | _ => .error .noSuchOperation

/-! ## The packet -/

/-- The layer of a code that comes without a layer byte (log 3). The table's rows overlap across its formats, so the most
specific row that matches is taken, and among equals the one the table lists first: a register selector, a named host
opcode, a unit selector, a latch selector, a command. -/
def tableLayer (op : Byte) : Layer :=
  let n := op.toNat
  if (0x20 ≤ n ∧ n ≤ 0x23) ∨ (0x40 ≤ n ∧ n ≤ 0x43) then .bus
  else if namedHostOps.contains op then .hostop
  else if (0x10 ≤ n ∧ n ≤ 0x14) ∨ (0x24 ≤ n ∧ n ≤ 0x2A) ∨ (0x30 ≤ n ∧ n ≤ 0x3D) ∨ n = 0x4F then .unitop
  else if 0x04 ≤ n ∧ n < 0x0C then .bus
  else .command

/-- The layer byte: 0 leaves the layer to `tableLayer`, 1 to 4 name it. -/
def layerOf (op layer : Byte) : Except DecodeError Layer :=
  match layer.toNat with
  | 0 => .ok (tableLayer op)
  | 1 => .ok .bus
  | 2 => .ok .command
  | 3 => .ok .hostop
  | 4 => .ok .unitop
  | _ => .error .badLayer

/-- A code and its operand bytes, read in one layer. -/
def decodeIn (l : Layer) (op : Byte) (os : List Byte) : Except DecodeError Instr :=
  match l with
  | .bus => decodeBus op os
  | .command => done (decodeCommand op) os
  | .hostop => done (decodeHostop op) os
  | .unitop => decodeUnitop op os

/-- Bytes in a packet. -/
def packetLength : Nat := 11

/-- The decoder, total on any list of bytes. -/
def decode (bs : List Byte) : Except DecodeError Instr :=
  if bs.length = packetLength then
    match bs with
    | op :: layer :: os =>
      match layerOf op layer with
      | .ok l => decodeIn l op os
      | .error e => .error e
    | _ => .error .badLength
  else .error .badLength

/-! ## The encoder -/

/-- The layer byte of a named layer. -/
def Layer.tag : Layer → Byte
  | .bus => 1
  | .command => 2
  | .hostop => 3
  | .unitop => 4

/-- A packet: the code, the layer, the operands, zeros up to the packet's length. -/
def packet (l : Layer) (op : Byte) (operands : List Byte) : List Byte :=
  op :: l.tag :: (operands ++ List.replicate (9 - operands.length) 0)

def sideByte (s : Bool) : Byte := if s then 1 else 0
def driveByte (d : Fin 4) : Byte := BitVec.ofNat 8 d.val
def slotByte (i : Fin 128) : Byte := BitVec.ofNat 8 i.val
def spaceByte : Space → Byte
  | .trk => 0
  | .stage => 1
  | .hx => 2

/-- The words of an instruction, written from the tables of rules R82, R84 to R86, R89 and R91. -/
def encode : Instr → List Byte
  | .rdStatus => packet .bus 0b1000000 []
  | .rdTrack => packet .bus 0b1000001 []
  | .rdSector => packet .bus 0b1000010 []
  | .rdData => packet .bus 0b1000011 []
  | .wrCmd v => packet .bus 0b0100000 [v]
  | .wrTrack v => packet .bus 0b0100001 [v]
  | .wrSector v => packet .bus 0b0100010 [v]
  | .wrData v => packet .bus 0b0100011 [v]
  | .rdNmi a => packet .bus (0b000100#6 ++ a) []
  | .wrNmi a v => packet .bus (0b000010#6 ++ a) [v]
  | .wrDrvsel a v => packet .bus (0b000001#6 ++ a) [v]
  | .restore z => packet .command (0b0000#4 ++ z) []
  | .seek z rate => packet .command (0b0001#4 ++ z ++ rate) []
  | .step u z rate => packet .command (0b001#3 ++ BitVec.ofBool u ++ z ++ rate) []
  | .stepin u z rate => packet .command (0b010#3 ++ BitVec.ofBool u ++ z ++ rate) []
  | .stepout u z rate => packet .command (0b011#3 ++ BitVec.ofBool u ++ z ++ rate) []
  | .rdsec z => packet .command (0b100#3 ++ z) []
  | .wrsec z => packet .command (0b101#3 ++ z) []
  | .rdaddr z => packet .command (0b1100#4 ++ z) []
  | .forceint ien => packet .command (0b1101#4 ++ ien) []
  | .rdtrk z => packet .command (0b1110#4 ++ z) []
  | .wrtrk z => packet .command (0b1111#4 ++ z) []
  | .hxVersion => packet .hostop 0x01 []
  | .hxFindfirst => packet .hostop 0x02 []
  | .hxFindnext => packet .hostop 0x03 []
  | .hxMount => packet .hostop 0x04 []
  | .hxOpen => packet .hostop 0x05 []
  | .hxRead => packet .hostop 0x06 []
  | .hxWrite => packet .hostop 0x07 []
  | .hxClose => packet .hostop 0x08 []
  | .hxSettime => packet .hostop 0x09 []
  | .hxGettime => packet .hostop 0x0A []
  | .hxFindini => packet .hostop 0x80 []
  | .hxFinddmk => packet .hostop 0x81 []
  | .hxFindhfe => packet .hostop 0x82 []
  | .hxUnknown b => packet .hostop b []
  | .crcInit => packet .unitop 0x10 []
  | .crcByte b => packet .unitop 0x11 [b]
  | .crcRange sp start len => packet .unitop 0x12 (spaceByte sp :: (le32Bytes start ++ le32Bytes len))
  | .crcRead => packet .unitop 0x13 []
  | .crcCheck hi lo => packet .unitop 0x14 [hi, lo]
  | .decBit s k => packet .unitop 0x20 (sideByte s :: le32Bytes k)
  | .decWord s p => packet .unitop 0x21 (sideByte s :: le32Bytes p)
  | .decMfmbyte w => packet .unitop 0x22 [w.extractLsb' 0 8, w.extractLsb' 8 8]
  | .decSyncscan s p => packet .unitop 0x23 (sideByte s :: le32Bytes p)
  | .decMark s q => packet .unitop 0x24 (sideByte s :: le32Bytes q)
  | .decIdfield s q b1 b2 => packet .unitop 0x25 (sideByte s :: (le32Bytes q ++ [b1, b2]))
  | .decDatafield s q b1 b2 b3 => packet .unitop 0x26 (sideByte s :: (le32Bytes q ++ [b1, b2, b3]))
  | .decTrack s => packet .unitop 0x27 [sideByte s]
  | .decFmword s p => packet .unitop 0x28 (sideByte s :: le32Bytes p)
  | .decFmscan s p => packet .unitop 0x29 (sideByte s :: le32Bytes p)
  | .decFmtrack s => packet .unitop 0x2A [sideByte s]
  | .scanDmkOffset d t s => packet .unitop 0x30 [driveByte d, t, sideByte s]
  | .scanLoad d s t => packet .unitop 0x31 [driveByte d, sideByte s, t]
  | .scanEnsure d s t => packet .unitop 0x32 [driveByte d, sideByte s, t]
  | .scanDmkTables => packet .unitop 0x33 []
  | .scanDamlookup o => packet .unitop 0x34 (le32Bytes o)
  | .scanFind t sd sec => packet .unitop 0x35 [t, sd, sec]
  | .scanFirstidam => packet .unitop 0x36 []
  | .scanView i => packet .unitop 0x37 [slotByte i]
  | .scanIdcrcCheck i => packet .unitop 0x38 [slotByte i]
  | .scanDatacrcCheck i => packet .unitop 0x39 [slotByte i]
  | .scanDatacrcGen i => packet .unitop 0x3A [slotByte i]
  | .scanWtResolve m => packet .unitop 0x3B (le32Bytes m)
  | .scanWtRebuild d => packet .unitop 0x3C [driveByte d]
  | .scanFlush => packet .unitop 0x3D []
  | .cmdClassify v => packet .unitop 0x40 [v]
  | .cmdDispatch => packet .unitop 0x41 []
  | .reset => packet .unitop 0x4F []

/-! ## The table's words -/

/-- The packet of a word of the opcode table: its bytes, the least significant first, and zeros (log 3). A word of a seven-bit
format (`nbits` below 8) is a bus selector; a word of eight bits has the layer byte 0. -/
def tablePacket (nbits w : Nat) : List Byte :=
  if nbits < 8 then BitVec.ofNat 8 w :: 1 :: List.replicate 9 0
  else (List.range packetLength).map fun k => BitVec.ofNat 8 (w / 256 ^ k)

/-- The instruction the decoder reads from a word of the opcode table. -/
def decodeTableWord (nbits w : Nat) : Option Instr :=
  match decode (tablePacket nbits w) with
  | .ok i => some i
  | .error _ => none

end Sys2Proof
end

