-- ==== Sys2Proof/Machine/State.lean ====
section
/-! DEFINITION. The state of FCB as plain data (rules R10 to R42), the reasons a step can stop, and the state after reset
(rules R250, R251). -/

namespace Sys2Proof.Machine

/-- A fault. FCB has none: "No situation in FCB is `fault`" (93_implementation_defined.md); the error conditions of rule R216
are status bits. Nobody raises one. -/
inductive Fault where
  deriving DecidableEq, Repr

/-- Why a step stops: the spec's `refuse` (rule R8). Every stop is safe: the model goes no further where the spec gives no meaning. -/
inductive Refusal where
  /-- Raised by `exec`'s arm of an instruction that has no meaning yet. Safe. -/
  | notModelled (mnemonic : String)
  /-- Raised by `step`: the packet is no instruction (rule R80, U2, and log 2). Safe. -/
  | undecodable (e : DecodeError)
  /-- Raised by the CRC, DEC and SCAN operations and by `SVC.STORE`: an access to TRK, STAGE or HOSTX's private memory outside
  its bounds that no rule guards (rules R52, R113, U3). Safe. -/
  | outOfBounds
  /-- Raised by `DEC.BIT`, `DEC.WORD` and `DEC.FMWORD`: a flux bit at or beyond `NBITS` (rules R53, R121, R122, R133). Safe. -/
  | fluxOutOfBounds
  /-- Raised by `SCAN.FLUSH` and `WRTRK` on an HFE drive: the flux encoder is outside the block (rules R157, R208, U11). Safe. -/
  | needsFluxEncoder
  /-- Raised by `SCAN.LOAD` and its callers: no look-up entry for the track, or one that points outside the image (rule R252, U14). Safe. -/
  | malformedLut
  /-- Raised by `SCAN.WT_RESOLVE` when the cache holds no track of a double-density DMK drive (rule R155, U10). Safe. -/
  | notDoubleDensityDmk
  /-- Raised by `SCAN.DATACRC_CHECK` and `SCAN.DATACRC_GEN` on a slot without a SectorView, outside the
  domain of rules R152, R153 (log 36). Safe. -/
  | noSectorView
  /-- Raised by `SCAN.FLUSH` when the cache has no identity (rule R157's precondition; log 36). Safe. -/
  | nothingCached
  /-- Raised by a bus transaction that arrives while another one's cycle is stretched by WAIT (rules R66, R181): there is one
  host and one bus. Safe. -/
  | busCycleOpen
  /-- Raised by a move of an outside agent whose precondition does not hold (rule R38): the agent may not make it. Safe. -/
  | moveNotEnabled
  deriving DecidableEq, Repr

/-- A byte memory: pairs of an address and a byte, addresses strictly rising, no byte 0, which is what an unlisted address
reads as (log 7). -/
abbrev Memory := List Host.Cell

/-- Addresses at least `lo` and strictly rising, no entry 0. -/
def Memory.wfFrom : Nat → Memory → Bool
  | _, [] => true
  | lo, (a, b) :: r => decide (lo ≤ a) && (b != 0) && Memory.wfFrom (a + 1) r

/-- The canonical form: equal memories are equal data. -/
def Memory.wf (m : Memory) : Bool := Memory.wfFrom 0 m

/-! ## The register file and the latches -/

/-- The eight stored status flags of rule R15. -/
structure Flags where
  busy : Bool
  crcErr : Bool
  seekErr : Bool
  notFound : Bool
  lostData : Bool
  drq : Bool
  intrq : Bool
  recType : Bool
  deriving DecidableEq, Repr

/-- `CMDTYPE` (rule R17). -/
inductive CmdType where
  | typeI | typeII | typeIII | typeIV
  deriving DecidableEq, Repr

/-- `SVC_TAG` (rule R30): `None` and the eight operations F80 names. -/
inductive SvcTag where
  | none | readSector | writeSector | writeTrack | sendData | mountImage | openFile | writeFile | setTime
  deriving DecidableEq, Repr

/-- `XFER` (rule R32): where the bytes of a transfer are, how many, how far it has come, and the sector slot it belongs to. -/
structure Xfer where
  space : Space
  base : Nat
  len : Nat
  cur : Nat
  slot : Option (Fin 128)
  deriving DecidableEq, Repr

/-! ## The units -/

/-- The encoding of an HFE drive (rules R36, R136). -/
inductive Encoding where
  | mfm | fm
  deriving DecidableEq, Repr

/-- The format tag of a drive slot (rule R36). -/
inductive Format where
  | none | dmk | hfe
  deriving DecidableEq, Repr

/-- The DEC unit's state during a `DEC.TRACK` or `DEC.FMTRACK` (rule R35). -/
structure DecUnit where
  side : Bool
  mode : Encoding
  nbits : Nat
  p : Nat
  wp : Nat
  n : Nat
  cur : Option (Fin 128)
  deriving DecidableEq, Repr

/-- A drive slot (rule R36). `handle` numbers the open image file. `sides` is any number, since the slot is an input; a DMK slot with other
than one or two does not load (rule R252, log 34). -/
structure DriveSlot where
  format : Format
  handle : Nat
  tracks : Nat
  sides : Nat
  singleDensity : Bool
  ignoreDensity : Bool
  trackLength : Nat
  lut : List (Nat × Nat)
  encoding : Encoding
  writeProtect : Bool
  deriving DecidableEq, Repr

/-- A slot with no image: `format = none`. -/
def DriveSlot.empty : DriveSlot := ⟨.none, 0, 0, 0, false, false, 0, [], .mfm, false⟩

/-- The identity of the cached track: drive, side, track (rule R37). -/
structure TrackId where
  drive : Fin 4
  side : Bool
  track : Byte
  deriving DecidableEq, Repr

/-- The track cache (rule R37). An IDAM entry 0 is an empty slot; `none` is the DAM table's -1. -/
structure Cache where
  id : Option TrackId
  trk : Memory
  len : Nat
  pfx : Nat
  idam : Vector Nat 128
  dam : Vector (Option Nat) 128
  deriving DecidableEq, Repr

/-- SectorView (rules R39, R150): size, offset of the data field, mark byte. It is a result, never held in `State`. -/
structure SectorView where
  size : Nat
  dataOff : Nat
  mark : Byte
  deriving DecidableEq, Repr

/-! ## What comes from outside and what goes out -/

/-- An image file of the storage agent (rules R42, R56): its size, its bytes, and whether STORAGE now fails every access to it. -/
structure Image where
  size : Nat
  bytes : Memory
  down : Bool
  deriving DecidableEq, Repr

/-- A handle that names no file: every access fails. -/
def Image.missing : Image := ⟨0, [], true⟩

/-- A bus transaction, as it stands on the bus while its cycle is stretched (rules R66, R181). -/
inductive BusTxn where
  | rdStatus | rdTrack | rdSector | rdData | rdNmi
  | wrCmd (v : Byte) | wrTrack (v : Byte) | wrSector (v : Byte) | wrData (v : Byte) | wrNmi (v : Byte) | wrDrvsel (v : Byte)
  deriving DecidableEq, Repr

/-- What is left of a `SEEK` or a step whose delay CLOCK counts down, in the tick-based branch of D19 (rule R257). -/
inductive StepWait where
  /-- Load the target track of the drive and side taken at dispatch, then set `TRACK`. -/
  | seek (drive : Fin 4) (side : Bool) (target : Byte)
  /-- Set `TRACK`, if the update bit is set. -/
  | step (new : Option Byte)
  deriving DecidableEq, Repr

/-- The moves of the external agents (rule R38), "the whole of what they may do to FCB's state". -/
inductive Move where
  -- SVC
  | svcPut (b : Byte)
  | svcReq
  | svcTake
  | svcLost
  | svcTimer (v : Nat)
  | svcSub (k : Nat)
  | svcCur (k : Nat)
  | svcRelease
  | svcDone
  | svcStore (k : Nat) (b : Byte)
  /-- Rules R30, R41: every other change of `SVC_TAG` belongs to SVC and HOSTX. -/
  | svcTag (t : SvcTag)
  -- HOSTX
  | hostxStage (bytes : List Byte)
  | hostxByte (b : Byte)
  | hostxRestore
  /-- The mount layer populates a slot (rule R36); it invalidates a cached track of that drive (rule R68, U13). -/
  | mount (d : Fin 4) (slot : DriveSlot)
  -- HOST: the stretched cycle ends (rule R181)
  | hostCycleEnd
  -- LOOP: the rest of a SEEK or a step in the tick-based branch (rule R257)
  | loopResume
  -- STORAGE
  | storageDown (handle : Nat) (down : Bool)
  | storageWrite (handle off : Nat) (bytes : List Byte)
  /-- A storage failure degrades the drive to not-ready (rules R38, R221). -/
  | driveDown (d : Fin 4)
  -- CLOCK
  | clockTick (us : Nat)
  | clockIndex (level : Bool)
  -- RESETLINE and the boot configuration (rules R245, R252)
  | resetLine (held : Bool)
  | bootSlot (d : Fin 4) (slot : DriveSlot)
  /-- FLUXBLK is an input of the DEC operations (rules R42, R120): its bytes. -/
  | fluxBlock (bytes : List Byte)
  deriving DecidableEq, Repr

/-- What the agents do next, one at a time (rules R38, R63, R70): a packet with an instruction, or a move of an outside agent. -/
inductive Input where
  | instr (packet : List Byte)
  | move (m : Move)
  deriving DecidableEq, Repr

/-- The classification of what follows a sync word (rule R127). -/
inductive DecMark where
  | fail
  | id (b1 b2 : Byte)
  | data (b1 b2 b3 : Byte)
  deriving DecidableEq, Repr

/-- What a unit operation answers to the unit that invoked it. -/
inductive Result where
  | bool (v : Bool)
  | word (v : Word16)
  | bytes (hi lo : Byte)
  | nat (v : Nat)
  | position (q : Option Nat)
  | mark (m : DecMark)
  | loaded (ok : Bool)
  | slot (i : Option (Fin 128))
  | view (v : Option SectorView)
  | cmdType (t : CmdType)
  deriving DecidableEq, Repr

/-- What leaves FCB: the byte of a bus read, the interrupt pulse (rule R231), the tag handed to HOSTX (rule R211), the byte SVC
took, the answer of a unit operation, the traffic with STORAGE (handle, offset, length). -/
inductive Event where
  | hostByte (v : Byte)
  | intrPulse
  | hostOp (t : HostTag)
  | svcByte (v : Byte)
  | result (r : Result)
  | imgRead (handle off len : Nat)
  | imgWrite (handle off len : Nat)
  deriving DecidableEq, Repr

/-- The inputs that outside agents hold: the image files, the boot configuration (rule R252), `INDEX_IN` (rule R20), the reset
line and how long it has been held (rule R245), the bytes HOSTX has ready for `RD_DATA` (rule R171). -/
structure Env where
  files : List Image
  boot : Vector DriveSlot 4
  indexIn : Bool
  resetLine : Bool
  resetHeldUs : Nat
  hostxBytes : List Byte
  deriving DecidableEq, Repr

/-- The whole state. -/
structure State where
  /-- The open parameters (rule R6); no step writes them. -/
  cfg : Config
  -- the primary registers (rules R11 to R14)
  command : Byte
  track : Byte
  sector : Byte
  data : Byte
  -- the stored flags and the command type (rules R15, R17)
  flags : Flags
  cmdType : CmdType
  -- the latches and the control state (rules R22 to R33)
  drvSel : Byte
  drvSelBackup : Byte
  ien : BitVec 4
  nmiMask : Byte
  nmiStatus : Byte
  waitOut : Bool
  cmdRecv : Bool
  svcTag : SvcTag
  svcSub : Nat
  timerUs : Nat
  motorUs : Nat
  xfer : Xfer
  dir : Dir
  -- the units (rules R34 to R37) and the byte spaces (rules R50, R55)
  crc : Word16
  dec : DecUnit
  drives : Vector DriveSlot 4
  cache : Cache
  stage : Memory
  hxMem : Memory
  flux : Memory
  fluxLen : Nat
  /-- A bus transaction whose cycle WAIT stretches (rules R66, R181). -/
  stretched : Option BusTxn
  /-- A SEEK or a step whose delay is counted down (rule R257, tick-based branch). -/
  stepWait : Option StepWait
  /-- SVC has asked for a byte (`SVC.REQ`) and not taken it (rule R38). -/
  svcReq : Bool
  /-- The inputs held by outside agents. -/
  env : Env
  /-- What the agents do next. -/
  inputs : List Input
  /-- What has left FCB, newest first. -/
  events : List Event
  /-- The model's own counter of free values drawn (log 4, log 6). -/
  draws : Nat
  deriving DecidableEq, Repr

/-! ## Reset -/

/-- All eight flags clear. -/
def Flags.clear : Flags := ⟨false, false, false, false, false, false, false, false⟩

/-- Every IDAM entry 0, every DAM entry none. -/
def emptyIdam : Vector Nat 128 := Vector.replicate 128 0
def emptyDam : Vector (Option Nat) 128 := Vector.replicate 128 none

/-- The state right after power-on, which is the state after `RESET` (rules R245, R250, R251, D42), with no image in any drive,
nothing on the input queue and nothing in any memory. What rule R251 leaves unspecified has the value log 8 names; RESETLINE, a
free input, starts released and held for 0 microseconds (DESIGN CHOICE, log 8, log 21). -/
def State.reset : State where
  cfg := Config.recommended
  command := 0
  track := 0
  sector := 0
  data := 0
  flags := Flags.clear
  cmdType := .typeI
  drvSel := 0
  drvSelBackup := 0
  ien := 0
  nmiMask := 0
  nmiStatus := Config.recommended.nmiIdle
  waitOut := false
  cmdRecv := false
  svcTag := .none
  svcSub := 0
  timerUs := 0
  motorUs := 0
  xfer := ⟨.trk, 0, 0, 0, none⟩
  dir := Config.recommended.resetDir
  crc := CrcParams.ccitt.init
  dec := ⟨false, .mfm, 0, 0, 256, 0, none⟩
  drives := Vector.replicate 4 DriveSlot.empty
  cache := ⟨none, [], 0, 3, emptyIdam, emptyDam⟩
  stage := []
  hxMem := []
  flux := []
  fluxLen := 0
  stretched := none
  stepWait := none
  svcReq := false
  env := ⟨[], Vector.replicate 4 DriveSlot.empty, false, false, 0, []⟩
  inputs := []
  events := []
  draws := 0

end Sys2Proof.Machine

namespace Sys2Proof

/-- FREE VALUE (log 5): an arbitrary `WaitNeeded(state, txn)` predicate (rules R6, R181, D40), of the whole state and the transaction. -/
opaque Config.freeWait : Machine.State → Machine.BusTxn → Bool

end Sys2Proof
end

