-- ==== Sys2Proof/Machine/Ops.lean ====
section
/-! DEFINITION. The shared operations of the machine: byte memories, the CRC step, searches, access to TRK and to the images, the
events, and the one interrupt of FCB with its entry, its completion and its return (rules R215, R226, R227, R229). -/

namespace Sys2Proof.Machine

/-! ## Outcomes -/

/-- The outcome of a meaning that either gives a state or is refused. -/
def answer : Except Refusal State → Host.Outcome State Fault Refusal
  | .ok s => .next s
  | .error r => .refused r

/-- An event leaves FCB. -/
def State.emit (s : State) (e : Event) : State := { s with events := e :: s.events }

/-- A unit operation answers `r` to the unit that invoked it and changes nothing. -/
def tell (r : Result) (s : State) : Host.Outcome State Fault Refusal := .next (s.emit (.result r))

/-- A unit operation that may change the state or be refused, and answers. -/
def tellWith {α : Type} (f : α → Result) : Except Refusal (α × State) → Host.Outcome State Fault Refusal
  | .ok (a, s) => tell (f a) s
  | .error r => .refused r

/-! ## Byte memories -/

/-- The byte at `a`; an unlisted address reads as 0 (log 7). -/
def Memory.read : Memory → Nat → Byte
  | [], _ => 0
  | (k, b) :: r, a => if k = a then b else Memory.read r a

/-- The bytes at `a, a + 1, …, a + n - 1`, in ascending address order (`MemRead` of rule R8). -/
def Memory.readBlock (m : Memory) (a n : Nat) : List Byte := (List.range n).map fun k => m.read (a + k)

/-- The cells of a byte sequence that starts at `a`; zeros are not listed. -/
def cellsFrom : Nat → List Byte → Memory
  | _, [] => []
  | a, b :: r => if b = 0 then cellsFrom (a + 1) r else (a, b) :: cellsFrom (a + 1) r

/-- The cells below `a` and the cells from `b` on. -/
def Memory.below (m : Memory) (a : Nat) : Memory := m.filter fun c => decide (c.1 < a)
def Memory.from (m : Memory) (b : Nat) : Memory := m.filter fun c => decide (b ≤ c.1)

/-- `MemWrite` of rule R8: the bytes `bs` at `a, a + 1, …`. -/
def Memory.writeBlock (m : Memory) (a : Nat) (bs : List Byte) : Memory :=
  m.below a ++ (cellsFrom a bs ++ m.from (a + bs.length))

/-- One byte. -/
def Memory.write (m : Memory) (a : Nat) (b : Byte) : Memory := m.writeBlock a [b]

/-- Zeros at `a, …, a + n - 1`. -/
def Memory.clear (m : Memory) (a n : Nat) : Memory := m.below a ++ m.from (a + n)

/-- The cells of `src` in `sa, …, sa + n - 1`, moved so that they start at `da`. -/
def Memory.moved (src : Memory) (sa n da : Nat) : Memory :=
  ((src.from sa).below (sa + n)).map fun c => (c.1 - sa + da, c.2)

/-- `n` bytes copied from `src` at `sa` to `dst` at `da`. -/
def Memory.copy (dst : Memory) (da : Nat) (src : Memory) (sa n : Nat) : Memory :=
  dst.below da ++ (src.moved sa n da ++ dst.from (da + n))

/-- `le16` of rule R8: first byte low. -/
def le16 (b0 b1 : Byte) : Nat := b0.toNat + 256 * b1.toNat

/-- `be16` of rule R8: first byte high. -/
def be16 (hi lo : Byte) : Word16 := hi ++ lo

/-- The first of `start, start + 1, …` that passes the test, among `count` candidates. -/
def firstFrom (test : Nat → Bool) : Nat → Nat → Option Nat
  | 0, _ => none
  | count + 1, start => if test start then some start else firstFrom test count (start + 1)

/-- A table of 128 slots. -/
def tableOf {α : Type} (f : Fin 128 → α) : Vector α 128 := ⟨((List.finRange 128).map f).toArray, by simp⟩

/-! ## The spaces TRK and STAGE -/

/-- The bytes of a space. -/
def spaceMem (s : State) : Space → Memory
  | .trk => s.cache.trk
  | .stage => s.stage
  | .hx => s.hxMem

/-- How many bytes of a space may be accessed: `TRKLEN` of TRK (rule R52), `TRK_CAP` of the private arrays (rule R50). -/
def spaceLen (s : State) : Space → Nat
  | .trk => s.cache.len
  | .stage => s.cfg.trkCap
  | .hx => s.cfg.trkCap

/-- One byte stored in a space. -/
def storeByte (s : State) (sp : Space) (a : Nat) (b : Byte) : State :=
  match sp with
  | .trk => { s with cache := { s.cache with trk := s.cache.trk.write a b } }
  | .stage => { s with stage := s.stage.write a b }
  | .hx => { s with hxMem := s.hxMem.write a b }

/-- `TRK[a]`, legal only when `a < TRKLEN` (rule R52); an access that no rule guards and that is out of range is refused (U3). -/
def trkRead (s : State) (a : Nat) : Except Refusal Byte :=
  if a < s.cache.len then .ok (s.cache.trk.read a) else .error .outOfBounds

/-! ## The CRC step (rule R112) -/

/-- One bit into the register. -/
def crcBit (p : CrcParams) (c : Word16) (b : Bool) : Word16 :=
  if (c.getLsbD 15) != b then (c <<< 1) ^^^ p.poly else c <<< 1

/-- The bits of a byte in the order the register takes them: most significant first (rule R57). -/
def byteBits (p : CrcParams) (b : Byte) : List Bool :=
  let bits := [b.getLsbD 7, b.getLsbD 6, b.getLsbD 5, b.getLsbD 4, b.getLsbD 3, b.getLsbD 2, b.getLsbD 1, b.getLsbD 0]
  if p.msbFirst then bits else bits.reverse

/-- `CRC.BYTE` on a register value. -/
def crcUpdate (p : CrcParams) (c : Word16) (b : Byte) : Word16 := (byteBits p b).foldl (crcBit p) c

/-- `CRC.BYTE` of each byte of a sequence, in order. -/
def crcFeed (p : CrcParams) (c : Word16) (bs : List Byte) : Word16 := bs.foldl (crcUpdate p) c

/-- The CRC of a byte sequence, from the preset (rule R116, law 4: a pure function of the sequence). -/
def crcOf (bs : List Byte) : Word16 := crcFeed .ccitt CrcParams.ccitt.init bs

/-- The register as `CRC.READ` and `CRC.CHECK` see it: with the final exclusive-or, which is 0 (rule R110). -/
def crcValue (p : CrcParams) (c : Word16) : Word16 := c ^^^ p.xorout

/-- `CRC.RANGE` (rule R113): the register after the preset and the bytes of the range. -/
def crcRangeOp (sp : Space) (start len : Nat) (s : State) : Except Refusal State :=
  if start + len ≤ spaceLen s sp then .ok { s with crc := crcOf ((spaceMem s sp).readBlock start len) }
  else .error .outOfBounds

/-- `CRC.READ` (rule R114): high byte, low byte. -/
def crcBytes (s : State) : Byte × Byte :=
  let v := crcValue .ccitt s.crc
  (v.extractLsb' 8 8, v.extractLsb' 0 8)

/-- `CRC.CHECK` (rule R115). -/
def crcMatches (hi lo : Byte) (s : State) : Bool := crcValue .ccitt s.crc == be16 hi lo

/-! ## The images (rule R56) -/

/-- The file a handle names. -/
def fileAt (s : State) (h : Nat) : Image := s.env.files.getD h Image.missing

/-- STORAGE answers an access to these bytes: it is not failing and the file has them (log 9). -/
def imageHas (s : State) (h off len : Nat) : Bool :=
  !(fileAt s h).down && decide (off + len ≤ (fileAt s h).size)

/-- The file list with one file replaced; handles in between name no file. -/
def setFile : List Image → Nat → Image → List Image
  | [], 0, i => [i]
  | _ :: r, 0, i => i :: r
  | [], h + 1, i => Image.missing :: setFile [] h i
  | x :: r, h + 1, i => x :: setFile r h i

/-- An image with `n` bytes of `src` from `sa` written at `off`; a file grows to hold what is written (log 9). -/
def Image.put (f : Image) (off : Nat) (src : Memory) (sa n : Nat) : Image :=
  { f with bytes := f.bytes.copy off src sa n, size := max f.size (off + n) }

/-! ## Conditions and the interrupt (60_exceptions.md)

FCB's only exception entry is `GenerateInterrupt()`: nothing is saved, no mode or mask changes, there is no vector (rule R228).
The return is `ClearPending()` (rule R229). -/

/-- The conditions that `raise` sets (rule R215). -/
inductive Cond where
  | seekError | crcError | recordNotFound | dataLost
  deriving DecidableEq, Repr

/-- `raise <Cond>`: the condition's status bit, and nothing else (rules R8, R215, R216). -/
def State.raise (s : State) : Cond → State
  | .seekError => { s with flags := { s.flags with seekErr := true } }
  | .crcError => { s with flags := { s.flags with crcErr := true } }
  | .recordNotFound => { s with flags := { s.flags with notFound := true } }
  | .dataLost => { s with flags := { s.flags with lostData := true } }

/-- `GenerateInterrupt()` (rule R226). It reads neither `IEN` nor `NMI_MASK`. -/
def generateInterrupt (s : State) : State :=
  { s with
    flags := { s.flags with intrq := true }
    nmiStatus := s.cfg.nmiIntrq
    events := .intrPulse :: s.events }

/-- `Complete()` (rule R227). -/
def complete (s : State) : State := generateInterrupt { s with flags := { s.flags with busy := false } }

/-- `ClearPending()` (rule R167). -/
def clearPending (s : State) : State :=
  { s with flags := { s.flags with intrq := false }, nmiStatus := s.cfg.nmiIdle }

end Sys2Proof.Machine
end

