-- ==== Sys2Proof/Machine/Operands.lean ====
section
/-! DEFINITION. Where operands come from (rules R24, R87, R189): what `DRVSEL` selects, the mounted drive, the step rate and the
arithmetic of the step family (rules R192 to R196, R270). -/

namespace Sys2Proof.Machine

/-- `HOSTSEL` (rule R24): the sentinel is in the drive bits. -/
def hostSel (s : State) : Bool := s.drvSel.extractLsb' 0 4 == 0xF#4

/-- `SIDE` (rule R24). -/
def sideSel (s : State) : Bool := s.drvSel.getLsbD 4

/-- `SELDRIVE` (rule R24): the lowest selected drive; none when no bit or the sentinel is set. -/
def selDrive (s : State) : Option (Fin 4) :=
  if hostSel s then none
  else if s.drvSel.getLsbD 0 then some 0
  else if s.drvSel.getLsbD 1 then some 1
  else if s.drvSel.getLsbD 2 then some 2
  else if s.drvSel.getLsbD 3 then some 3
  else none

/-- `MOUNTED` with its drive (rule R189). -/
def mounted (s : State) : Option (Fin 4) :=
  match selDrive s with
  | none => none
  | some d => if s.drives[d].format = .none then none else some d

/-- `NTRACKS` (rule R189). -/
def nTracks (s : State) : Nat :=
  match mounted s with
  | none => 0
  | some d => s.drives[d].tracks

/-- `STEP_MS[rate]` (rules R6, R84). -/
def stepMs (rate : BitVec 2) : Nat :=
  match rate.toNat with
  | 0 => 3
  | 1 => 6
  | 2 => 10
  | _ => 15

/-- `clamp` of rule R189: saturated to 0..255. -/
def clampTrack (x : Int) : Byte := if x < 0 then 0 else if 255 < x then 255 else BitVec.ofInt 8 x

/-- `DIR` as a number (rule R33). -/
def dirInt : Dir → Int
  | .plus => 1
  | .minus => -1

/-- `TRACK` one step further (rules R194 to R196). -/
def stepped (track : Byte) (d : Dir) : Byte := clampTrack ((track.toNat : Int) + dirInt d)

/-- `|target - TRACK|` (rule R192): exact. -/
def distance (a b : Byte) : Nat := ((a.toNat : Int) - (b.toNat : Int)).natAbs

/-- The step delay in microseconds over a distance (rules R192, R194). -/
def delayUs (rate : BitVec 2) (tracks : Nat) : Nat := stepMs rate * tracks * 1000

/-- `128 << (code & 3)` (rule R150). -/
def sectorSize (code : Byte) : Nat := 128 <<< (code.toNat % 4)

end Sys2Proof.Machine
end

