-- ==== Sys2Proof/Machine/Flags.lean ====
section
/-! DEFINITION. The status byte: the derived bits (rule R16), its two shapes (rules R18, R19, R166), and the status reset of an
accepted command (rule R180). -/

namespace Sys2Proof.Machine

/-- `NOTREADY` (rule R16). -/
def notReady (s : State) : Bool := (mounted s).isNone

/-- `PROTECTED` (rule R16). -/
def isProtected (s : State) : Bool :=
  match selDrive s with
  | none => false
  | some d => s.drives[d].writeProtect

/-- `TRACK0` (rule R16). -/
def trackZero (s : State) : Bool := s.track == 0

/-- A byte from its bits, bit 7 first. -/
def byteOf (b7 b6 b5 b4 b3 b2 b1 b0 : Bool) : Byte :=
  BitVec.ofBool b7 ++ BitVec.ofBool b6 ++ BitVec.ofBool b5 ++ BitVec.ofBool b4 ++ BitVec.ofBool b3 ++ BitVec.ofBool b2 ++
    BitVec.ofBool b1 ++ BitVec.ofBool b0

/-- `StatusByteI` (rule R18). -/
def statusByteI (s : State) : Byte :=
  byteOf (notReady s) (isProtected s) s.cfg.hldStatus s.flags.seekErr s.flags.crcErr (trackZero s) s.env.indexIn s.flags.busy

/-- `StatusByteII` (rule R19). -/
def statusByteII (s : State) : Byte :=
  byteOf (notReady s) (isProtected s) s.flags.recType s.flags.notFound s.flags.crcErr s.flags.lostData s.flags.drq s.flags.busy

/-- `StatusByte()` (rule R166). -/
def statusByte (s : State) : Byte :=
  match s.cmdType with
  | .typeI | .typeIV => statusByteI s
  | .typeII | .typeIII => statusByteII s

/-- `StatusReset()` (rule R180). -/
def statusReset (s : State) : State := clearPending { s with flags := Flags.clear }

end Sys2Proof.Machine
end

