-- ==== Sys2Proof/Machine/Dec.lean ====
section
/-! DEFINITION. The DEC unit: flux access, the MFM and FM mark detectors, and the decoding of a whole side (41_bitdecoder.md). -/

namespace Sys2Proof.Machine

/-! ## Flux access (rules R53, R54, R120 to R123, R133) -/

/-- `NBITS` (rules R53, R120): flux bits of one side. -/
def nbits (s : State) : Nat := 8 * (s.fluxLen / 2)

/-- `HfeMap` (rule R53): the two sides lie in alternating blocks of 256 bytes. -/
def hfeMap (p : Nat) (side : Bool) : Nat := 2 * (p - p % 256) + p % 256 + (if side then 256 else 0)

/-- `FluxByte` (rule R53). At the end of side 1 of a block whose length is no multiple of 512 the interleave names a place at or beyond
the end of the block; the spec calls the access legal and gives no byte: a free value (DESIGN CHOICE, log 32). -/
def fluxByte (s : State) (side : Bool) (p : Nat) : Byte :=
  if hfeMap p side < s.fluxLen then s.flux.read (hfeMap p side) else Config.freeFlux s.flux s.fluxLen (hfeMap p side)

/-- `FluxBit` (rule R54): bit 0 of a flux byte is the earliest. -/
def fluxBit (s : State) (side : Bool) (k : Nat) : Bool := (fluxByte s side (k / 8)).getLsbD (k % 8)

/-- Sixteen bits gathered, the first in bit 15 (rules R122, R133). -/
def window (bit : Nat → Bool) : Word16 :=
  (List.range 16).foldl (fun w j => (w <<< 1) ||| (BitVec.ofBool (bit j)).setWidth 16) 0

/-- The window of `DEC.WORD` (rule R122). -/
def wordAt (s : State) (side : Bool) (p : Nat) : Word16 := window fun j => fluxBit s side (p + j)

/-- The window of `DEC.FMWORD` (rule R133): one half-cell every `FM_STRIDE` flux bits. -/
def fmWordAt (s : State) (side : Bool) (p : Nat) : Word16 := window fun j => fluxBit s side (p + j * s.cfg.fmStride)

/-- The data byte of a window (rules R97, R123): bits 14, 12, …, 0. -/
def mfmData (w : Word16) : Byte :=
  byteOf (w.getLsbD 14) (w.getLsbD 12) (w.getLsbD 10) (w.getLsbD 8) (w.getLsbD 6) (w.getLsbD 4) (w.getLsbD 2) (w.getLsbD 0)

/-- The clock byte of a window (rules R97, R123): bits 15, 13, …, 1. The decoder does not use it (rule R124). -/
def mfmClock (w : Word16) : Byte :=
  byteOf (w.getLsbD 15) (w.getLsbD 13) (w.getLsbD 11) (w.getLsbD 9) (w.getLsbD 7) (w.getLsbD 5) (w.getLsbD 3) (w.getLsbD 1)

/-- `MfmByte` (rule R123). -/
def mfmByte (s : State) (side : Bool) (p : Nat) : Byte := mfmData (wordAt s side p)

/-- `FmByte` (rule R133). -/
def fmByte (s : State) (side : Bool) (p : Nat) : Byte := mfmData (fmWordAt s side p)

/-- `n` decoded bytes, one every `stride` flux bits from `f`. -/
def decodedBytes (get : Nat → Byte) (f stride n : Nat) : List Byte := (List.range n).map fun k => get (f + k * stride)

/-! ## MFM (rules R125 to R130) -/

/-- The MFM sync word (rules R6, R97). -/
def mfmSync : Word16 := 0x4489

/-- `DEC.SYNCSCAN` (rule R125): the first position from `p` with a whole window that is the sync word. -/
def syncScan (s : State) (side : Bool) (p : Nat) : Option Nat :=
  firstFrom (fun q => wordAt s side q == mfmSync) (nbits s - 15 - p) p

/-- `IsSync` (rule R126). -/
def isSync (b : Byte) : Bool := b == 0xA1 || b == 0xF5

/-- `DEC.MARK` (rule R127). -/
def markAt (s : State) (side : Bool) (q : Nat) : DecMark :=
  let r := q + 16
  if nbits s < r + 48 then .fail
  else
    let b1 := mfmByte s side r
    let b2 := mfmByte s side (r + 16)
    let b3 := mfmByte s side (r + 32)
    if !isSync b1 || !isSync b2 then .fail
    else if b3 == 0xFE then .id b1 b2
    else if b3 == 0xFB || b3 == 0xF8 then .data b1 b2 b3
    else .fail

/-- An ID field enters the next slot: its bytes at `wp`, the offset of its mark byte in the table (rules R128, R135). -/
def recordId (s : State) (n : Fin 128) (bytes : List Byte) (markOff : Nat) : State :=
  { s with
    cache := { s.cache with
      trk := s.cache.trk.writeBlock s.dec.wp bytes
      idam := s.cache.idam.set n markOff
      dam := s.cache.dam.set n none }
    dec := { s.dec with cur := some n, n := s.dec.n + 1, wp := s.dec.wp + bytes.length } }

/-- A data field is attached to the slot of the last ID field (rules R129, R135). -/
def recordData (s : State) (c : Fin 128) (bytes : List Byte) (markOff : Nat) : State :=
  { s with
    cache := { s.cache with
      trk := s.cache.trk.writeBlock s.dec.wp bytes
      dam := s.cache.dam.set c (some markOff) }
    dec := { s.dec with wp := s.dec.wp + bytes.length } }

/-- A full table forgets the current slot, so that a data field that follows attaches to none (rules R128, R135). -/
def dropId (s : State) : State :=
  if 128 ≤ s.dec.n then { s with dec := { s.dec with cur := none } } else s

/-- `DEC.IDFIELD` (rule R128): `some x` is `Next(x)`, `none` is `Fail`. -/
def idField (side : Bool) (q : Nat) (b1 b2 : Byte) (s : State) : Option Nat × State :=
  let f := q + 64
  if h : f + 96 ≤ nbits s ∧ s.dec.wp + 10 ≤ s.cfg.trkCap ∧ s.dec.n < 128 then
    (some (f + 96),
      recordId s ⟨s.dec.n, h.2.2⟩ ([0xA1, b1, b2, 0xFE] ++ decodedBytes (mfmByte s side) f 16 6) (s.dec.wp + 3))
  else (none, dropId s)

/-- The size of the data field that belongs to slot `c`, from the size code of its ID field (rules R129, R135). -/
def dataSize (s : State) (c : Fin 128) : Except Refusal Nat :=
  let a := s.cache.idam[c] + 4
  if a < s.cfg.trkCap then .ok (sectorSize (s.cache.trk.read a)) else .error .outOfBounds

/-- `DEC.DATAFIELD` (rule R129). -/
def dataField (side : Bool) (q : Nat) (b1 b2 b3 : Byte) (s : State) : Except Refusal (Option Nat × State) :=
  match s.dec.cur with
  | none => .ok (none, s)
  | some c =>
    if s.cache.dam[c] ≠ none then .ok (none, s)
    else do
      let size ← dataSize s c
      let f := q + 64
      if f + 16 * (size + 2) ≤ nbits s ∧ s.dec.wp + 4 + size + 2 ≤ s.cfg.trkCap then
        .ok (some (f + 16 * (size + 2)),
          recordData s c ([0xA1, b1, b2, b3] ++ decodedBytes (mfmByte s side) f 16 (size + 2)) (s.dec.wp + 3))
      else .ok (none, s)

/-- The start of `DEC.TRACK` and `DEC.FMTRACK`: empty tables, the place of the pointer table zero, cursors at their start. -/
def startDecode (side : Bool) (mode : Encoding) (s : State) : State :=
  { s with
    cache := { s.cache with trk := s.cache.trk.clear 0 256, idam := emptyIdam, dam := emptyDam }
    dec := ⟨side, mode, nbits s, 0, 256, 0, none⟩ }

/-- The end of `DEC.TRACK` and `DEC.FMTRACK`: `TRKLEN` and `TRKPFX`. -/
def endDecode (pfx : Nat) (s : State) : State := { s with cache := { s.cache with len := s.dec.wp, pfx := pfx } }

/-- One turn of `DEC.TRACK`'s loop, on a sync word found at `q`: where the scan goes on, and the state. -/
def mfmTurn (side : Bool) (q : Nat) (s : State) : Except Refusal (Option Nat × State) :=
  match markAt s side q with
  | .fail => .ok (none, s)
  | .id b1 b2 => .ok (idField side q b1 b2 s)
  | .data b1 b2 b3 => dataField side q b1 b2 b3 s

/-- The scan goes on after a stored field, or one bit after the sync that failed (rule R130). -/
def resumeAt (q : Nat) (r : Option Nat) (s : State) : State := { s with dec := { s.dec with p := r.getD (q + 1) } }

/-- The loop of `DEC.TRACK` (rule R130); `p` rises at every turn, so `NBITS` turns are enough. -/
def mfmLoop (side : Bool) : Nat → State → Except Refusal State
  | 0, s => .ok s
  | turns + 1, s =>
    match syncScan s side s.dec.p with
    | none => .ok s
    | some q => do
      let (r, s') ← mfmTurn side q s
      mfmLoop side turns (resumeAt q r s')

/-- `DEC.TRACK` (rule R130). -/
def decodeTrack (side : Bool) (s : State) : Except Refusal State := do
  let s' ← mfmLoop side (nbits s) (startDecode side .mfm s)
  .ok (endDecode 3 s')

/-! ## FM (rules R133 to R135) -/

/-- The three FM mark composites (rules R6, R98). -/
def fmMarks : List Word16 := [0xF57E, 0xF56F, 0xF56A]

/-- `DEC.FMSCAN` (rule R134). -/
def fmScan (s : State) (side : Bool) (p : Nat) : Option Nat :=
  firstFrom (fun q => fmMarks.contains (fmWordAt s side q)) (nbits s + 1 - 16 * s.cfg.fmStride - p) p

/-- One turn of `DEC.FMTRACK`'s loop, on a mark found at `q` (rule R135). -/
def fmTurn (side : Bool) (q : Nat) (s : State) : Except Refusal (Option Nat × State) :=
  let b := 16 * s.cfg.fmStride
  let m := fmByte s side q
  let f := q + b
  if m = 0xFE then
    if h : s.dec.n < 128 ∧ f + 6 * b ≤ nbits s ∧ s.dec.wp + 7 ≤ s.cfg.trkCap then
      .ok (some (f + 6 * b), recordId s ⟨s.dec.n, h.1⟩ (0xFE :: decodedBytes (fmByte s side) f b 6) s.dec.wp)
    else .ok (none, dropId s)
  else if m = 0xFB ∨ m = 0xF8 then
    match s.dec.cur with
    | none => .ok (none, s)
    | some c =>
      if s.cache.dam[c] ≠ none then .ok (none, s)
      else do
        let size ← dataSize s c
        if f + (size + 2) * b ≤ nbits s ∧ s.dec.wp + 1 + size + 2 ≤ s.cfg.trkCap then
          .ok (some (f + (size + 2) * b), recordData s c (m :: decodedBytes (fmByte s side) f b (size + 2)) s.dec.wp)
        else .ok (none, s)
  else .ok (none, s)

/-- The loop of `DEC.FMTRACK`. -/
def fmLoop (side : Bool) : Nat → State → Except Refusal State
  | 0, s => .ok s
  | turns + 1, s =>
    match fmScan s side s.dec.p with
    | none => .ok s
    | some q => do
      let (r, s') ← fmTurn side q s
      fmLoop side turns (resumeAt q r s')

/-- `DEC.FMTRACK` (rule R135). -/
def decodeFmTrack (side : Bool) (s : State) : Except Refusal State := do
  let s' ← fmLoop side (nbits s) (startDecode side .fm s)
  .ok (endDecode 0 s')

/-! ## The operations -/

/-- `DEC.BIT` (rule R121). -/
def execDecBit (side : Bool) (k : Nat) (s : State) : Host.Outcome State Fault Refusal :=
  if k < nbits s then tell (.bool (fluxBit s side k)) s else .refused .fluxOutOfBounds

/-- `DEC.WORD` (rule R122). -/
def execDecWord (side : Bool) (p : Nat) (s : State) : Host.Outcome State Fault Refusal :=
  if p + 16 ≤ nbits s then tell (.word (wordAt s side p)) s else .refused .fluxOutOfBounds

/-- `DEC.MFMBYTE` (rule R123): the data byte; the clock byte is computed "for the record". -/
def execDecMfmbyte (w : Word16) (s : State) : Host.Outcome State Fault Refusal :=
  tell (.bytes (mfmData w) (mfmClock w)) s

/-- `DEC.SYNCSCAN` (rule R125). -/
def execDecSyncscan (side : Bool) (p : Nat) (s : State) : Host.Outcome State Fault Refusal :=
  tell (.position (syncScan s side p)) s

/-- `DEC.MARK` (rule R127). The rule takes a `q` where `DEC.WORD` is the sync word; at any other `q` its three tests are made all the
same (DESIGN CHOICE, log 33). -/
def execDecMark (side : Bool) (q : Nat) (s : State) : Host.Outcome State Fault Refusal :=
  tell (.mark (markAt s side q)) s

/-- `DEC.IDFIELD` (rule R128); `q` may be any position (DESIGN CHOICE, log 33). -/
def execDecIdfield (side : Bool) (q : Nat) (b1 b2 : Byte) (s : State) : Host.Outcome State Fault Refusal :=
  tell (.position (idField side q b1 b2 s).1) (idField side q b1 b2 s).2

/-- `DEC.DATAFIELD` (rule R129); `q` may be any position (DESIGN CHOICE, log 33). -/
def execDecDatafield (side : Bool) (q : Nat) (b1 b2 b3 : Byte) (s : State) : Host.Outcome State Fault Refusal :=
  tellWith .position (dataField side q b1 b2 b3 s)

/-- `DEC.TRACK` (rule R130). -/
def execDecTrack (side : Bool) (s : State) : Host.Outcome State Fault Refusal := answer (decodeTrack side s)

/-- `DEC.FMWORD` (rule R133). -/
def execDecFmword (side : Bool) (p : Nat) (s : State) : Host.Outcome State Fault Refusal :=
  if p + 16 * s.cfg.fmStride ≤ nbits s then tell (.word (fmWordAt s side p)) s else .refused .fluxOutOfBounds

/-- `DEC.FMSCAN` (rule R134). -/
def execDecFmscan (side : Bool) (p : Nat) (s : State) : Host.Outcome State Fault Refusal :=
  tell (.position (fmScan s side p)) s

/-- `DEC.FMTRACK` (rule R135). -/
def execDecFmtrack (side : Bool) (s : State) : Host.Outcome State Fault Refusal := answer (decodeFmTrack side s)

end Sys2Proof.Machine
end

