-- ==== Sys2Proof/Machine/Scan.lean ====
section
/-! DEFINITION. The SCAN unit: loading the track cache, the sector tables, finding a sector, its CRCs, Write Track support and
the write-back (42_scanner.md). -/

namespace Sys2Proof.Machine

/-! ## The tables (rules R143 to R145) -/

/-- `DMK_TBL` (rule R6): the bytes of the IDAM pointer table at the start of a track record. -/
def dmkTable : Nat := 256

/-- The four bytes `A1 A1 A1 m` at `j`, for a mark byte that passes the test (rule R93). -/
def markAtOffset (trk : Memory) (isMark : Byte → Bool) (j : Nat) : Bool :=
  trk.read j == 0xA1 && trk.read (j + 1) == 0xA1 && trk.read (j + 2) == 0xA1 && isMark (trk.read (j + 3))

/-- The two data marks (rule R93). -/
def isDataMark (b : Byte) : Bool := b == 0xFB || b == 0xF8

/-- `SCAN.DAMLOOKUP` (rule R145): the offset of the mark byte of the first data mark from `origin` on, before the end of the track. -/
def damLookup (c : Cache) (origin : Nat) : Option Nat :=
  (firstFrom (markAtOffset c.trk isDataMark) (c.len - 3 - origin) origin).map (· + 3)

/-- `SlotValid` (rule R144). -/
def slotValid (c : Cache) (off : Nat) : Bool := decide (dmkTable + c.pfx ≤ off) && decide (off + 6 < c.len)

/-- The offset field of slot `i`'s pointer (rules R96, R143): little-endian, the density flag masked off. -/
def pointerOffset (c : Cache) (i : Fin 128) : Nat := le16 (c.trk.read (2 * i.val)) (c.trk.read (2 * i.val + 1)) % 0x8000

/-- `SCAN.DMK_TABLES` on a cache whose track holds the pointer table (rule R143). -/
def tablesOf (c : Cache) : Cache :=
  { c with
    idam := tableOf fun i => if slotValid c (pointerOffset c i) then pointerOffset c i else 0
    dam := tableOf fun i => if slotValid c (pointerOffset c i) then damLookup c (pointerOffset c i) else none }

/-- `SCAN.DMK_TABLES` (rule R143); it reads `TRK[0..256)`. -/
def dmkTables (s : State) : Except Refusal State :=
  if dmkTable ≤ s.cache.len then .ok { s with cache := tablesOf s.cache } else .error .outOfBounds

/-! ## Loading (rules R140 to R142) -/

/-- `DmkOffset` (rules R56, R140). -/
def dmkOffset (v : DriveSlot) (track side : Nat) : Nat := (track * v.sides + side) * v.trackLength + 16

/-- The cache without identity and with empty tables: how every load begins (rule R141). -/
def forgetTrack (s : State) : State :=
  { s with cache := { s.cache with id := none, idam := emptyIdam, dam := emptyDam } }

/-- The cache names its track (rule R141). -/
def nameTrack (d : Fin 4) (side : Bool) (track : Byte) (s : State) : State :=
  { s with cache := { s.cache with id := some ⟨d, side, track⟩ } }

/-- The DMK case of `SCAN.LOAD`: the tests of rule R141, and rule R252's condition that a DMK slot has one or two sides (DEDUCED,
log 34). -/
def loadDmk (d : Fin 4) (side : Bool) (track : Byte) (s : State) : Except Refusal (Bool × State) :=
  let v := s.drives[d]
  let off := dmkOffset v track.toNat side.toNat
  if v.tracks ≤ track.toNat ∨ v.sides ≤ side.toNat ∨ 2 < v.sides ∨ v.trackLength < dmkTable ∨
      s.cfg.trkCap < v.trackLength then .ok (false, s)
  else if imageHas s v.handle off v.trackLength then do
    let s1 := { s with
      cache := { s.cache with
        trk := s.cache.trk.copy 0 (fileAt s v.handle).bytes off v.trackLength
        len := v.trackLength
        pfx := 3 }
      events := .imgRead v.handle off v.trackLength :: s.events }
    let s2 ← dmkTables s1
    .ok (true, nameTrack d side track s2)
  else .ok (false, s)

/-- The HFE case of `SCAN.LOAD`: the track block is read as FLUXBLK, decoded, and dropped (rules R42, R136);
that, and the order of the tests, is the model's (DESIGN CHOICE, log 22). -/
def loadHfe (d : Fin 4) (side : Bool) (track : Byte) (s : State) : Except Refusal (Bool × State) :=
  let v := s.drives[d]
  if v.tracks ≤ track.toNat then .ok (false, s)
  else match v.lut[track.toNat]? with
  | none => .error .malformedLut
  | some (blk, len) =>
    if (fileAt s v.handle).down then .ok (false, s)
    else if imageHas s v.handle (blk * 512) len then do
      let s1 := { s with
        flux := Memory.copy [] 0 (fileAt s v.handle).bytes (blk * 512) len
        fluxLen := len
        events := .imgRead v.handle (blk * 512) len :: s.events }
      let s2 ← if v.encoding = .mfm then decodeTrack side s1 else decodeFmTrack side s1
      .ok (true, nameTrack d side track { s2 with flux := [], fluxLen := 0 })
    else .error .malformedLut

/-- `SCAN.LOAD` (rule R141): `true` is `Ok`, `false` is `Fail`. -/
def loadTrack (d : Fin 4) (side : Bool) (track : Byte) (s : State) : Except Refusal (Bool × State) :=
  match s.drives[d].format with
  | .none => .ok (false, forgetTrack s)
  | .dmk => loadDmk d side track (forgetTrack s)
  | .hfe => loadHfe d side track (forgetTrack s)

/-- `SCAN.ENSURE` (rule R142). -/
def ensureTrack (d : Fin 4) (side : Bool) (track : Byte) (s : State) : Except Refusal (Bool × State) :=
  if s.cache.id = some ⟨d, side, track⟩ then .ok (true, s) else loadTrack d side track s

/-! ## Finding a sector (rules R147 to R150) -/

/-- Does the ID field of slot `i` name this track, side and sector? An empty slot does not (rule R147). -/
def slotMatches (s : State) (track side sector : Byte) (i : Fin 128) : Except Refusal Bool := do
  let o := s.cache.idam[i]
  if o = 0 then .ok false
  else
    let t ← trkRead s (o + 1)
    if t ≠ track then .ok false
    else
      let sd ← trkRead s (o + 2)
      if sd ≠ side then .ok false
      else
        let sec ← trkRead s (o + 3)
        .ok (sec == sector)

/-- The first slot of a list that matches. -/
def findIn (s : State) (track side sector : Byte) : List (Fin 128) → Except Refusal (Option (Fin 128))
  | [] => .ok none
  | i :: r => do
    let m ← slotMatches s track side sector i
    if m then .ok (some i) else findIn s track side sector r

/-- `SCAN.FIND` (rule R147): the lowest matching slot; the rule's side is 0 or 1, any other byte is compared alike (DESIGN CHOICE,
log 35). -/
def findSector (s : State) (track side sector : Byte) : Except Refusal (Option (Fin 128)) :=
  findIn s track side sector (List.finRange 128)

/-- `SCAN.FIRSTIDAM` (rule R148). -/
def firstIdam (s : State) : Option (Fin 128) := (List.finRange 128).find? fun i => s.cache.idam[i] != 0

/-- `SCAN.VIEW` (rule R150). The rule's operand is a non-empty slot; an empty one is put to the same tests (DESIGN CHOICE, log 35). -/
def sectorView (s : State) (i : Fin 128) : Except Refusal (Option SectorView) :=
  match s.cache.dam[i] with
  | none => .ok none
  | some d => do
    let code ← trkRead s (s.cache.idam[i] + 4)
    let size := sectorSize code
    if d < dmkTable + s.cache.pfx ∨ s.cache.len < d + 1 + size + 2 then .ok none
    else .ok (some ⟨size, d + 1, s.cache.trk.read d⟩)

/-! ## Checksums (rules R151 to R153) -/

/-- `CRC.RANGE` over a field, then `CRC.CHECK` with the two bytes at `stored`. -/
def checkField (start len stored : Nat) (s : State) : Except Refusal (Bool × State) := do
  let s' ← crcRangeOp .trk start len s
  let hi ← trkRead s' stored
  let lo ← trkRead s' (stored + 1)
  .ok (crcMatches hi lo s', s')

/-- `SCAN.IDCRC_CHECK` (rule R151); on an empty slot the offset is 0 (DESIGN CHOICE, log 35). -/
def idCrcCheck (i : Fin 128) (s : State) : Except Refusal (Bool × State) :=
  let o := s.cache.idam[i]
  if o < s.cache.pfx then .error .outOfBounds
  else checkField (o - s.cache.pfx) (s.cache.pfx + 5) (o + 5) s

/-- `SCAN.DATACRC_CHECK` (rule R152). A slot without a view is refused (DESIGN CHOICE, log 36). -/
def dataCrcCheck (i : Fin 128) (s : State) : Except Refusal (Bool × State) := do
  match ← sectorView s i with
  | none => .error .noSectorView
  | some v =>
    let d := v.dataOff - 1
    checkField (d - s.cache.pfx) (s.cache.pfx + 1 + v.size) (d + 1 + v.size) s

/-- `SCAN.DATACRC_GEN` (rule R153). A slot without a view is refused (DESIGN CHOICE, log 36). -/
def dataCrcGen (i : Fin 128) (s : State) : Except Refusal State := do
  match ← sectorView s i with
  | none => .error .noSectorView
  | some v =>
    let d := v.dataOff - 1
    let s' ← crcRangeOp .trk (d - s.cache.pfx) (s.cache.pfx + 1 + v.size) s
    let (hi, lo) := crcBytes s'
    .ok { s' with cache := { s'.cache with trk := s'.cache.trk.writeBlock (d + 1 + v.size) [hi, lo] } }

/-! ## Write Track (rules R155, R156) -/

/-- The resolution under way: the output offset, the bytes put out (newest first), the CRC register, whether the last input was a sync. -/
structure Resolve where
  o : Nat
  out : List Byte
  crc : Word16
  prevSync : Bool
  deriving DecidableEq, Repr

/-- `emitRaw(x)` of rule R155: output beyond `TRKLEN` is dropped. -/
def Resolve.emitRaw (len : Nat) (x : Byte) (r : Resolve) : Resolve :=
  if r.o < len then { r with o := r.o + 1, out := x :: r.out } else r

/-- `emit(x)` of rule R155: a byte that is put out also enters the CRC (log 10). -/
def Resolve.emitByte (len : Nat) (x : Byte) (r : Resolve) : Resolve :=
  if r.o < len then { r with o := r.o + 1, out := x :: r.out, crc := crcUpdate .ccitt r.crc x } else r

/-- One byte of the raw stream (rules R99, R155): 0xF5 sync, 0xF6 mark, 0xF7 CRC-insert. -/
def Resolve.next (len : Nat) (r : Resolve) (b : Byte) : Resolve :=
  if b = 0xF5 then
    let r := if r.prevSync then r else { r with crc := CrcParams.ccitt.init }
    { r.emitByte len 0xA1 with prevSync := true }
  else if b = 0xF6 then { r.emitByte len 0xC2 with prevSync := false }
  else if b = 0xF7 then
    let v := crcValue .ccitt r.crc
    let r := (r.emitRaw len (v.extractLsb' 8 8)).emitRaw len (v.extractLsb' 0 8)
    { r with crc := CrcParams.ccitt.init, prevSync := false }
  else { r.emitByte len b with prevSync := false }

/-- The whole raw stream. -/
def resolveStream (len : Nat) (bs : List Byte) : Resolve :=
  bs.foldl (Resolve.next len) ⟨dmkTable, [], CrcParams.ccitt.init, false⟩

/-- Rule R155's precondition: the cache holds a track of a double-density DMK drive. -/
def cachedDoubleDensityDmk (s : State) : Bool :=
  match s.cache.id with
  | none => false
  | some t => s.drives[t.drive].format == .dmk && !s.drives[t.drive].singleDensity

/-- `SCAN.WT_RESOLVE` (rule R155). -/
def wtResolve (m : Nat) (s : State) : Except Refusal State :=
  if !cachedDoubleDensityDmk s then .error .notDoubleDensityDmk
  else if s.cfg.trkCap < m then .error .outOfBounds
  else
    let r := resolveStream s.cache.len (s.stage.readBlock 0 m)
    .ok { s with
      crc := r.crc
      cache := { s.cache with trk := s.cache.trk.writeBlock dmkTable r.out.reverse } }

/-- The ID mark (rule R93). -/
def isIdMark (b : Byte) : Bool := b == 0xFE

/-- The offsets of the first 128 ID marks after the header (rule R156). -/
def idMarks (c : Cache) : List Nat :=
  (((List.range' dmkTable (c.len - 3 - dmkTable)).filter (markAtOffset c.trk isIdMark)).take 128).map (· + 3)

/-- The two bytes of a pointer with its density tag (rules R96, R156). -/
def pointerBytes (singleDensity : Bool) (off : Nat) : List Byte :=
  let v := if singleDensity then off else off ||| 0x8000
  [BitVec.ofNat 8 v, BitVec.ofNat 8 (v / 256)]

/-- `SCAN.WT_REBUILD` (rule R156). -/
def wtRebuild (d : Fin 4) (s : State) : Except Refusal State :=
  if s.cache.len < dmkTable then .error .outOfBounds
  else
    let ptrs := (idMarks s.cache).flatMap (pointerBytes s.drives[d].singleDensity)
    dmkTables { s with cache := { s.cache with trk := (s.cache.trk.clear 0 dmkTable).writeBlock 0 ptrs } }

/-- `SCAN.FLUSH` (rule R157). A failing STORAGE leaves the image unchanged and signals nothing (U20). A
nameless cache is refused (DESIGN CHOICE, log 36). -/
def flushTrack (s : State) : Except Refusal State :=
  match s.cache.id with
  | none => .error .nothingCached
  | some t =>
    let v := s.drives[t.drive]
    let off := dmkOffset v t.track.toNat t.side.toNat
    match v.format with
    | .none => .ok s
    | .hfe => .error .needsFluxEncoder
    | .dmk =>
      if (fileAt s v.handle).down then .ok s
      else .ok { s with
        env := { s.env with files := setFile s.env.files v.handle ((fileAt s v.handle).put off s.cache.trk 0 s.cache.len) }
        events := .imgWrite v.handle off s.cache.len :: s.events }

/-! ## The operations -/

/-- `SCAN.DMK_OFFSET` (rule R140). For a drive that is not a DMK drive the rule states no result: a free value (log 6). -/
def execScanDmkOffset (d : Fin 4) (track : Byte) (side : Bool) (s : State) : Host.Outcome State Fault Refusal :=
  if s.drives[d].format = .dmk then tell (.nat (dmkOffset s.drives[d] track.toNat side.toNat)) s
  else tell (.nat (Config.freeOffset s.draws)) { s with draws := s.draws + 1 }

/-- `SCAN.LOAD` (rule R141). -/
def execScanLoad (d : Fin 4) (side : Bool) (track : Byte) (s : State) : Host.Outcome State Fault Refusal :=
  tellWith .loaded (loadTrack d side track s)

/-- `SCAN.ENSURE` (rule R142). -/
def execScanEnsure (d : Fin 4) (side : Bool) (track : Byte) (s : State) : Host.Outcome State Fault Refusal :=
  tellWith .loaded (ensureTrack d side track s)

/-- `SCAN.DMK_TABLES` (rule R143). -/
def execScanDmkTables (s : State) : Host.Outcome State Fault Refusal := answer (dmkTables s)

/-- `SCAN.DAMLOOKUP` (rule R145): from an IDAM offset, or from any other offset in the same way (DESIGN CHOICE, log 35). -/
def execScanDamlookup (origin : Nat) (s : State) : Host.Outcome State Fault Refusal :=
  tell (.position (damLookup s.cache origin)) s

/-- `SCAN.FIND` (rule R147). -/
def execScanFind (track side sector : Byte) (s : State) : Host.Outcome State Fault Refusal :=
  match findSector s track side sector with
  | .ok i => tell (.slot i) s
  | .error r => .refused r

/-- `SCAN.FIRSTIDAM` (rule R148). -/
def execScanFirstidam (s : State) : Host.Outcome State Fault Refusal := tell (.slot (firstIdam s)) s

/-- `SCAN.VIEW` (rule R150). -/
def execScanView (i : Fin 128) (s : State) : Host.Outcome State Fault Refusal :=
  match sectorView s i with
  | .ok v => tell (.view v) s
  | .error r => .refused r

/-- `SCAN.IDCRC_CHECK` (rule R151). -/
def execScanIdcrcCheck (i : Fin 128) (s : State) : Host.Outcome State Fault Refusal := tellWith .bool (idCrcCheck i s)

/-- `SCAN.DATACRC_CHECK` (rule R152). -/
def execScanDatacrcCheck (i : Fin 128) (s : State) : Host.Outcome State Fault Refusal := tellWith .bool (dataCrcCheck i s)

/-- `SCAN.DATACRC_GEN` (rule R153). -/
def execScanDatacrcGen (i : Fin 128) (s : State) : Host.Outcome State Fault Refusal := answer (dataCrcGen i s)

/-- `SCAN.WT_RESOLVE` (rule R155). -/
def execScanWtResolve (m : Nat) (s : State) : Host.Outcome State Fault Refusal := answer (wtResolve m s)

/-- `SCAN.WT_REBUILD` (rule R156). -/
def execScanWtRebuild (d : Fin 4) (s : State) : Host.Outcome State Fault Refusal := answer (wtRebuild d s)

/-- `SCAN.FLUSH` (rule R157). -/
def execScanFlush (s : State) : Host.Outcome State Fault Refusal := answer (flushTrack s)

end Sys2Proof.Machine
end

