-- ==== Sys2Proof/Machine/Command.lean ====
section
/-! DEFINITION. The eleven commands (44_commands.md), each as the body of its own rule. -/

namespace Sys2Proof.Machine

/-! ## Shared parts -/

/-- `NotFoundExit` (rule R202). -/
def notFoundExit (s : State) : State := complete (s.raise .recordNotFound)

/-- A command hands over to the service state machine: `XFER`, `SVC_TAG`, `SVC_SUB` (rules R30, R32). -/
def handOver (tag : SvcTag) (x : Xfer) (s : State) : State := { s with xfer := x, svcTag := tag, svcSub := 0 }

/-- What follows the step delay of a SEEK or a step (rules R192, R194 to R196, R257). The result of the load is ignored. -/
def finishStep (w : StepWait) (s : State) : Except Refusal State :=
  match w with
  | .seek d side target => do
    let (_, s) ← ensureTrack d side target s
    .ok (complete { s with track := target, flags := { s.flags with seekErr := false } })
  | .step new => .ok (complete { s with track := new.getD s.track })

/-- The step delay is recorded in `TIMER_US`; in the blocking branch the rest follows in the same step, in the tick-based branch
it waits for CLOCK (rule R257, D19) and takes the place of a rest that still waits (DESIGN CHOICE, log 16). -/
def afterDelay (us : Nat) (w : StepWait) (s : State) : Except Refusal State :=
  let s := { s with timerUs := us }
  match s.cfg.stepDelay with
  | .blocking => finishStep w s
  | .tickBased => .ok { s with stepWait := some w }

/-- A step in the direction `d` (rules R194 to R196): `TRACK` changes only if the update bit is set. -/
def stepCommand (u : Bool) (rate : BitVec 2) (d : Dir) (s : State) : Except Refusal State :=
  afterDelay (delayUs rate 1) (.step (if u then some (stepped s.track d) else none)) s

/-! ## Type I -/

/-- `RESTORE` (rule R190). -/
def restoreBody (s : State) : Except Refusal State := do
  let s ← match mounted s with
    | none => .ok s
    | some d => do
      let (_, s) ← ensureTrack d (sideSel s) 0 s
      .ok s
  .ok (complete { s with track := 0, flags := { s.flags with seekErr := false } })

/-- `SEEK` (rule R192). -/
def seekBody (rate : BitVec 2) (s : State) : Except Refusal State :=
  match mounted s with
  | none => .ok (complete (s.raise .seekError))
  | some d =>
    if s.drives[d].tracks ≤ s.data.toNat then .ok (complete (s.raise .seekError))
    else afterDelay (delayUs rate (distance s.data s.track)) (.seek d (sideSel s) s.data) s

/-- `STEP` (rule R194). -/
def stepBody (u : Bool) (rate : BitVec 2) (s : State) : Except Refusal State := stepCommand u rate s.dir s

/-- `STEPIN` (rule R195). In the tick-based branch `DIR` is written at dispatch, with the delay (DESIGN CHOICE, log 16). -/
def stepinBody (u : Bool) (rate : BitVec 2) (s : State) : Except Refusal State :=
  stepCommand u rate .plus { s with dir := .plus }

/-- `STEPOUT` (rule R196). In the tick-based branch `DIR` is written at dispatch, with the delay (DESIGN CHOICE, log 16). -/
def stepoutBody (u : Bool) (rate : BitVec 2) (s : State) : Except Refusal State :=
  stepCommand u rate .minus { s with dir := .minus }

/-! ## Type II -/

/-- `ResolveSector()` (rules R146, R200): `none` is a `NotFoundExit`. -/
def resolveSector (s : State) : Except Refusal (Option (Fin 128 × SectorView) × State) :=
  match mounted s with
  | none => .ok (none, s)
  | some d => do
    let (ok, s) ← ensureTrack d (sideSel s) s.track s
    if !ok then .ok (none, s)
    else
      match ← findSector s s.track (sideByte (sideSel s)) s.sector with
      | none => .ok (none, s)
      | some i =>
        match ← sectorView s i with
        | none => .ok (none, s)
        | some v => .ok (some (i, v), s)

/-- A failed check raises `CrcError` and does not stop the command (rules R203, R218). -/
def raiseUnless (ok : Bool) (c : Cond) (s : State) : State := if ok then s else s.raise c

/-- `RDSEC` (rule R203). -/
def rdsecBody (s : State) : Except Refusal State := do
  let (found, s) ← resolveSector s
  match found with
  | none => .ok (notFoundExit s)
  | some (i, v) => do
    let (idOk, s) ← idCrcCheck i s
    let s := raiseUnless idOk .crcError s
    let (dataOk, s) ← dataCrcCheck i s
    let s := raiseUnless dataOk .crcError s
    let s := { s with flags := { s.flags with recType := v.mark == 0xF8 } }
    .ok (handOver .readSector ⟨.trk, v.dataOff, v.size, 0, some i⟩ s)

/-- `WRSEC` (rule R204). -/
def wrsecBody (s : State) : Except Refusal State := do
  let (found, s) ← resolveSector s
  match found with
  | none => .ok (notFoundExit s)
  | some (i, v) => .ok (handOver .writeSector ⟨.trk, v.dataOff, v.size, 0, some i⟩ s)

/-! ## Type III -/

/-- `n` bytes of TRK, each within `TRKLEN`. -/
def trkReads (s : State) (a : Nat) : Nat → Except Refusal (List Byte)
  | 0 => .ok []
  | n + 1 => do
    let b ← trkRead s a
    let r ← trkReads s (a + 1) n
    .ok (b :: r)

/-- `RDADDR` (rule R206). -/
def rdaddrBody (s : State) : Except Refusal State :=
  match mounted s with
  | none => .ok (notFoundExit s)
  | some d => do
    let (ok, s) ← ensureTrack d (sideSel s) s.track s
    if !ok then .ok (notFoundExit s)
    else
      match firstIdam s with
      | none => .ok (notFoundExit s)
      | some i => do
        let id ← trkReads s (s.cache.idam[i] + 1) 6
        .ok (handOver .sendData ⟨.stage, 0, 6, 0, some i⟩ { s with stage := s.stage.writeBlock 0 id })

/-- `RDTRK` (rule R207): what is resident, without the pointer table. -/
def rdtrkBody (s : State) : State := handOver .sendData ⟨.trk, dmkTable, s.cache.len - dmkTable, 0, none⟩ s

/-- `WRTRK` (rule R208). -/
def wrtrkBody (s : State) : Except Refusal State :=
  match mounted s with
  | none => .ok (notFoundExit s)
  | some d =>
    if s.drives[d].format = .hfe then .error .needsFluxEncoder
    else do
      let (ok, s) ← ensureTrack d (sideSel s) s.track s
      if !ok then .ok (notFoundExit s)
      else
        let s := { s with cache := { s.cache with trk := s.cache.trk.clear dmkTable (s.cache.len - dmkTable) } }
        .ok (handOver .writeTrack ⟨.stage, 0, s.drives[d].trackLength, 0, none⟩ s)

/-! ## Type IV -/

/-- `FORCEINT` (rule R209): whatever was running is dropped, a waiting step delay (log 16) and an outstanding `SVC.REQ` (log 17) with it;
the interrupt is generated whatever `ien` is. -/
def forceInterrupt (ien : BitVec 4) (s : State) : State :=
  let s := clearPending { s with ien := ien, flags := Flags.clear }
  generateInterrupt { s with svcTag := .none, svcSub := 0, cmdRecv := false, stepWait := none, svcReq := false }

/-! ## The commands as instructions -/

/-- `RESTORE` (rule R190). -/
def execRestore (s : State) : Host.Outcome State Fault Refusal := answer (restoreBody s)

/-- `SEEK` (rule R192). -/
def execSeek (rate : BitVec 2) (s : State) : Host.Outcome State Fault Refusal := answer (seekBody rate s)

/-- `STEP` (rule R194). -/
def execStep (u : Bool) (rate : BitVec 2) (s : State) : Host.Outcome State Fault Refusal := answer (stepBody u rate s)

/-- `STEPIN` (rule R195). -/
def execStepin (u : Bool) (rate : BitVec 2) (s : State) : Host.Outcome State Fault Refusal := answer (stepinBody u rate s)

/-- `STEPOUT` (rule R196). -/
def execStepout (u : Bool) (rate : BitVec 2) (s : State) : Host.Outcome State Fault Refusal := answer (stepoutBody u rate s)

/-- `RDSEC` (rule R203). -/
def execRdsec (s : State) : Host.Outcome State Fault Refusal := answer (rdsecBody s)

/-- `WRSEC` (rule R204). -/
def execWrsec (s : State) : Host.Outcome State Fault Refusal := answer (wrsecBody s)

/-- `RDADDR` (rule R206). -/
def execRdaddr (s : State) : Host.Outcome State Fault Refusal := answer (rdaddrBody s)

/-- `FORCEINT` (rule R209). -/
def execForceint (ien : BitVec 4) (s : State) : Host.Outcome State Fault Refusal := .next (forceInterrupt ien s)

/-- `RDTRK` (rule R207). -/
def execRdtrk (s : State) : Host.Outcome State Fault Refusal := .next (rdtrkBody s)

/-- `WRTRK` (rule R208). -/
def execWrtrk (s : State) : Host.Outcome State Fault Refusal := answer (wrtrkBody s)

/-- `CMD.DECODE(v)` (rules R83, R187) and the command it names. -/
def runCommand (v : Byte) (s : State) : Host.Outcome State Fault Refusal :=
  let u := v.getLsbD 4
  let rate := v.extractLsb' 0 2
  match (v.extractLsb' 4 4).toNat with
  | 0x0 => execRestore s
  | 0x1 => execSeek rate s
  | 0x2 | 0x3 => execStep u rate s
  | 0x4 | 0x5 => execStepin u rate s
  | 0x6 | 0x7 => execStepout u rate s
  | 0x8 | 0x9 => execRdsec s
  | 0xA | 0xB => execWrsec s
  | 0xC => execRdaddr s
  | 0xD => execForceint (v.extractLsb' 0 4) s
  | 0xE => execRdtrk s
  | _ => execWrtrk s

end Sys2Proof.Machine
end

