-- ==== Sys2Proof/Machine/HostOps.lean ====
section
/-! DEFINITION. The host opcodes (rules R89, R211): FCB hands the tag to HOSTX "and does nothing else". -/

namespace Sys2Proof.Machine

/-- The tag is handed over (rule R211). -/
def handTag (t : HostTag) (s : State) : Host.Outcome State Fault Refusal := .next (s.emit (.hostOp t))

/-- `HX.VERSION` (rule R89). -/
def execHxVersion (s : State) : Host.Outcome State Fault Refusal := handTag .version s

/-- `HX.FINDFIRST` (rule R89). -/
def execHxFindfirst (s : State) : Host.Outcome State Fault Refusal := handTag .findFirstAll s

/-- `HX.FINDNEXT` (rule R89). -/
def execHxFindnext (s : State) : Host.Outcome State Fault Refusal := handTag .findNext s

/-- `HX.MOUNT` (rule R89). -/
def execHxMount (s : State) : Host.Outcome State Fault Refusal := handTag .mount s

/-- `HX.OPEN` (rule R89). -/
def execHxOpen (s : State) : Host.Outcome State Fault Refusal := handTag .openFile s

/-- `HX.READ` (rule R89). -/
def execHxRead (s : State) : Host.Outcome State Fault Refusal := handTag .readFileBlock s

/-- `HX.WRITE` (rule R89). -/
def execHxWrite (s : State) : Host.Outcome State Fault Refusal := handTag .writeFileBlock s

/-- `HX.CLOSE` (rule R89). -/
def execHxClose (s : State) : Host.Outcome State Fault Refusal := handTag .closeFile s

/-- `HX.SETTIME` (rule R89). -/
def execHxSettime (s : State) : Host.Outcome State Fault Refusal := handTag .setTime s

/-- `HX.GETTIME` (rule R89). -/
def execHxGettime (s : State) : Host.Outcome State Fault Refusal := handTag .getTime s

/-- `HX.FINDINI` (rule R89). -/
def execHxFindini (s : State) : Host.Outcome State Fault Refusal := handTag .findFirstIni s

/-- `HX.FINDDMK` (rule R89). -/
def execHxFinddmk (s : State) : Host.Outcome State Fault Refusal := handTag .findFirstDmk s

/-- `HX.FINDHFE` (rule R89). -/
def execHxFindhfe (s : State) : Host.Outcome State Fault Refusal := handTag .findFirstHfe s

/-- `HX.UNKNOWN` (rules R89, R211, U8). -/
def execHxUnknown (b : Byte) (s : State) : Host.Outcome State Fault Refusal := handTag (.unknown b) s

/-- `HostOp(c)` (rule R211): the byte's tag (rule R89). -/
def hostOp (c : Byte) (s : State) : Host.Outcome State Fault Refusal := handTag (hostTag c) s

end Sys2Proof.Machine
end

