-- ==== Sys2Proof/Machine/Bus.lean ====
section
/-! DEFINITION. The eleven bus transactions (43_regfile_bus.md): their effects, and WAIT (rule R181). -/

namespace Sys2Proof.Machine

/-! ## Classification (rule R186) -/

/-- `CMD.CLASSIFY` (rule R186). -/
def classify (s : State) (v : Byte) : CmdType :=
  if hostSel s then .typeII
  else match (v.extractLsb' 4 4).toNat with
  | 0x0 | 0x1 | 0x2 | 0x3 | 0x4 | 0x5 | 0x6 | 0x7 => .typeI
  | 0x8 | 0x9 | 0xA | 0xB => .typeII
  | 0xD => .typeIV
  | _ => .typeIII

/-- The upper nibble of Force Interrupt (rule R86). -/
def isForceInt (v : Byte) : Bool := v.extractLsb' 4 4 == 0xD#4

/-- `Accept(v)` (rule R172). -/
def accepts (s : State) (v : Byte) : Bool := hostSel s || isForceInt v || !s.flags.busy

/-! ## Effects -/

/-- The host receives a byte. -/
def returnByte (v : Byte) (s : State) : State := s.emit (.hostByte v)

/-- `RD_STATUS` (rule R168): the byte is formed before the side effect. -/
def rdStatusEffect (s : State) : State :=
  returnByte (statusByte s) (if s.flags.intrq then clearPending s else s)

/-- `RD_TRACK` (rule R169). -/
def rdTrackEffect (s : State) : State := returnByte s.track s

/-- `RD_SECTOR` (rule R170). -/
def rdSectorEffect (s : State) : State := returnByte s.sector s

/-- The byte of a `RD_DATA` (rule R171): `DATA`, or while `HOSTSEL` what HOSTX answers, a free value if it has offered none (log 4). -/
def takeDataByte (s : State) : Byte × State :=
  if hostSel s then
    match s.env.hostxBytes with
    | b :: r => (b, { s with env := { s.env with hostxBytes := r } })
    | [] => (Config.freeByte s.draws, { s with draws := s.draws + 1 })
  else (s.data, s)

/-- `RD_DATA` (rule R171). -/
def rdDataEffect (s : State) : State :=
  let (b, s) := takeDataByte s
  returnByte b { s with flags := { s.flags with drq := false } }

/-- `RD_NMI` (rule R177). -/
def rdNmiEffect (s : State) : State := returnByte s.nmiStatus s

/-- `WR_CMD` (rule R173): a byte that is not accepted changes nothing. -/
def wrCmdEffect (v : Byte) (s : State) : State :=
  if !accepts s v then s
  else
    let s1 := statusReset { s with command := v, cmdType := classify s v }
    if hostSel s then { s1 with flags := { s1.flags with busy := !isForceInt v }, cmdRecv := true }
    else
      let s2 := { s1 with flags := { s1.flags with busy := true } }
      if isForceInt v then forceInterrupt (v.extractLsb' 0 4) s2
      else { s2 with cmdRecv := true }

/-- `WR_TRACK` (rule R174). -/
def wrTrackEffect (v : Byte) (s : State) : State := { s with track := v }

/-- `WR_SECTOR` (rule R175). -/
def wrSectorEffect (v : Byte) (s : State) : State := { s with sector := v }

/-- `WR_DATA` (rule R176). -/
def wrDataEffect (v : Byte) (s : State) : State := { s with data := v, flags := { s.flags with drq := false } }

/-- `WR_DRVSEL` (rule R178): entering the host channel saves the old selection. -/
def wrDrvselEffect (v : Byte) (s : State) : State :=
  { s with
    drvSelBackup := if v.extractLsb' 0 4 == 0xF#4 && !hostSel s then s.drvSel else s.drvSelBackup
    drvSel := v
    motorUs := s.cfg.motorOnUs }

/-- `WR_NMI` (rule R179). -/
def wrNmiEffect (v : Byte) (s : State) : State := { s with nmiMask := v }

/-- The effect of a transaction. -/
def busEffect : BusTxn → State → State
  | .rdStatus, s => rdStatusEffect s
  | .rdTrack, s => rdTrackEffect s
  | .rdSector, s => rdSectorEffect s
  | .rdData, s => rdDataEffect s
  | .rdNmi, s => rdNmiEffect s
  | .wrCmd v, s => wrCmdEffect v s
  | .wrTrack v, s => wrTrackEffect v s
  | .wrSector v, s => wrSectorEffect v s
  | .wrData v, s => wrDataEffect v s
  | .wrNmi v, s => wrNmiEffect v s
  | .wrDrvsel v, s => wrDrvselEffect v s

/-! ## WAIT -/

/-- Is it an access to the data register? -/
def isDataTxn : BusTxn → Bool
  | .rdData | .wrData _ => true
  | .rdStatus | .rdTrack | .rdSector | .rdNmi | .wrCmd _ | .wrTrack _ | .wrSector _ | .wrNmi _ | .wrDrvsel _ => false

/-- `WaitNeeded(state, txn)` (rules R6, R181) under the machine's policy (log 30). -/
def waitNeeded (t : BusTxn) (s : State) : Bool :=
  match s.cfg.waitNeeded with
  | .never => false
  | .dataPhase => isDataTxn t && s.flags.busy && s.svcTag != .none && !s.flags.drq
  | .free => Config.freeWait s t

/-- One bus transaction (rules R165, R181): its effect, or, when WAIT is needed, `WAITOUT` and a stretched cycle whose effect comes
when the cycle ends. -/
def transact (t : BusTxn) (s : State) : Host.Outcome State Fault Refusal :=
  match s.stretched with
  | some _ => .refused .busCycleOpen
  | none => if waitNeeded t s then .next { s with waitOut := true, stretched := some t } else .next (busEffect t s)

/-! ## The transactions as instructions -/

/-- `RD_STATUS` (rule R168). -/
def execRdStatus (s : State) : Host.Outcome State Fault Refusal := transact .rdStatus s

/-- `RD_TRACK` (rule R169). -/
def execRdTrack (s : State) : Host.Outcome State Fault Refusal := transact .rdTrack s

/-- `RD_SECTOR` (rule R170). -/
def execRdSector (s : State) : Host.Outcome State Fault Refusal := transact .rdSector s

/-- `RD_DATA` (rule R171). -/
def execRdData (s : State) : Host.Outcome State Fault Refusal := transact .rdData s

/-- `WR_CMD` (rule R173). -/
def execWrCmd (v : Byte) (s : State) : Host.Outcome State Fault Refusal := transact (.wrCmd v) s

/-- `WR_TRACK` (rule R174). -/
def execWrTrack (v : Byte) (s : State) : Host.Outcome State Fault Refusal := transact (.wrTrack v) s

/-- `WR_SECTOR` (rule R175). -/
def execWrSector (v : Byte) (s : State) : Host.Outcome State Fault Refusal := transact (.wrSector v) s

/-- `WR_DATA` (rule R176). -/
def execWrData (v : Byte) (s : State) : Host.Outcome State Fault Refusal := transact (.wrData v) s

/-- `RD_NMI` (rule R177). -/
def execRdNmi (s : State) : Host.Outcome State Fault Refusal := transact .rdNmi s

/-- `WR_NMI` (rule R179). -/
def execWrNmi (v : Byte) (s : State) : Host.Outcome State Fault Refusal := transact (.wrNmi v) s

/-- `WR_DRVSEL` (rule R178). -/
def execWrDrvsel (v : Byte) (s : State) : Host.Outcome State Fault Refusal := transact (.wrDrvsel v) s

end Sys2Proof.Machine
end

