-- ==== Sys2Proof/Machine/System.lean ====
section
/-! DEFINITION. The internal steps: classification, dispatch of a latched command, and reset (rules R186, R188, R250). -/

namespace Sys2Proof.Machine

/-- `CMD.CLASSIFY` (rule R186). -/
def execCmdClassify (v : Byte) (s : State) : Host.Outcome State Fault Refusal := tell (.cmdType (classify s v)) s

/-- `CMD.DISPATCH` (rule R188). With no command received the loop has nothing to pick up and the state stays (log 11). -/
def execCmdDispatch (s : State) : Host.Outcome State Fault Refusal :=
  if s.cmdRecv then
    let s' := { s with cmdRecv := false }
    if hostSel s' then hostOp s'.command s' else runCommand s'.command s'
  else .next s

/-- The assignments of `RESET` (rule R250), with the drive slots that `BootMount()` gives (rule R252). What rule R251 leaves
unspecified stays as it is, but for `CRC` (D42). -/
def resetState (s : State) : State :=
  { s with
    command := 0
    track := 0
    sector := 0
    data := 0
    flags := Flags.clear
    nmiStatus := s.cfg.nmiIdle
    cmdType := .typeI
    drvSel := 0
    drvSelBackup := 0
    ien := 0
    nmiMask := 0
    waitOut := false
    cmdRecv := false
    svcTag := .none
    svcSub := 0
    timerUs := 0
    motorUs := 0
    xfer := { s.xfer with len := 0, cur := 0, slot := none }
    dir := s.cfg.resetDir
    crc := CrcParams.ccitt.init
    cache := { s.cache with id := none, len := 0, pfx := 3, idam := emptyIdam, dam := emptyDam }
    drives := s.env.boot
    stepWait := none
    svcReq := false }

/-- The reset line has been held for at least `RESET_HOLD_US` (rules R245, R250). -/
def resetDue (s : State) : Bool := s.env.resetLine && decide (s.cfg.resetHoldUs ≤ s.env.resetHeldUs)

/-- `RESET` (rule R250). "A reset condition shorter than that has no effect on FCB" (rule R245). -/
def execReset (s : State) : Host.Outcome State Fault Refusal :=
  if resetDue s then .next (resetState s) else .next s

end Sys2Proof.Machine
end

