-- ==== Sys2Proof/Machine/Agents.lean ====
section
/-! DEFINITION. The moves of the external agents (rule R38): SVC, HOSTX, HOST's stretched cycle, STORAGE, CLOCK, RESETLINE. A move
whose precondition does not hold is refused: the agent may not make it. -/

namespace Sys2Proof.Machine

/-- A move that is enabled only under a condition. -/
def enabledIf (c : Bool) (s : State) : Except Refusal State := if c then .ok s else .error .moveNotEnabled

/-- `SVC.STORE(k, b)` (rule R38): byte `k` of the transfer, within the space (rules R50, R52). -/
def storeTransfer (k : Nat) (b : Byte) (s : State) : Except Refusal State :=
  if ¬ k < s.xfer.len then .error .moveNotEnabled
  else if s.xfer.base + k < spaceLen s s.xfer.space then .ok (storeByte s s.xfer.space (s.xfer.base + k) b)
  else .error .outOfBounds

/-- The cache without its identity if it holds a track of drive `d`: the mount layer's duty (rule R68, U13; log 12). -/
def forgetDrive (d : Fin 4) (c : Cache) : Cache :=
  match c.id with
  | none => c
  | some t => if t.drive = d then { c with id := none } else c

/-- STORAGE's file before an outside write: a new handle opens an empty file. -/
def fileOrNew (s : State) (h : Nat) : Image := s.env.files.getD h ⟨0, [], false⟩

/-- A move of an agent (rules R38, R41), enabled as log 17 says. `SVC.LOST` is a time-out, made only while `DRQ` has stayed set (rules
R220, R265). `SVC.DONE` is enabled in every state, also with `SVC_TAG = None` (DEDUCED, log 17). `HOSTX.STAGE` takes
any number of bytes, also more than `TRK_CAP` (DESIGN CHOICE, log 23). The rest of a SEEK or a step is enabled whenever `TIMER_US` is
0, whether CLOCK brought it there or an `SVC.TIMER` (DESIGN CHOICE, log 16). -/
def runMove (m : Move) (s : State) : Except Refusal State :=
  match m with
  | .svcPut b => enabledIf (!s.flags.drq) { s with data := b, flags := { s.flags with drq := true } }
  | .svcReq => enabledIf (!s.flags.drq) { s with flags := { s.flags with drq := true }, svcReq := true }
  | .svcTake => enabledIf (!s.flags.drq && s.svcReq) ({ s with svcReq := false }.emit (.svcByte s.data))
  | .svcLost => enabledIf (s.svcTag == .readSector && s.flags.drq) (s.raise .dataLost)
  | .svcTimer v => .ok { s with timerUs := v }
  | .svcSub k => .ok { s with svcSub := k }
  | .svcCur k => enabledIf (decide (k ≤ s.xfer.len)) { s with xfer := { s.xfer with cur := k } }
  | .svcRelease => .ok { s with waitOut := false }
  | .svcDone => .ok (complete { s with svcTag := .none, svcReq := false })
  | .svcStore k b => storeTransfer k b s
  | .svcTag t => .ok { s with svcTag := t }
  | .hostxStage bytes => .ok { s with hxMem := Memory.writeBlock [] 0 bytes, xfer := ⟨.hx, 0, bytes.length, 0, none⟩ }
  | .hostxByte b => .ok { s with env := { s.env with hostxBytes := s.env.hostxBytes ++ [b] } }
  | .hostxRestore => .ok { s with drvSel := s.drvSelBackup }
  | .mount d slot => .ok { s with drives := s.drives.set d slot, cache := forgetDrive d s.cache }
  | .hostCycleEnd =>
    match s.stretched with
    | none => .error .moveNotEnabled
    | some t => if s.waitOut then .error .moveNotEnabled else .ok (busEffect t { s with stretched := none })
  | .loopResume =>
    match s.stepWait with
    | none => .error .moveNotEnabled
    | some w => if s.timerUs = 0 then finishStep w { s with stepWait := none } else .error .moveNotEnabled
  | .storageDown h down => .ok { s with env := { s.env with files := setFile s.env.files h { fileOrNew s h with down := down } } }
  | .storageWrite h off bytes =>
    .ok { s with env := { s.env with
      files := setFile s.env.files h ((fileOrNew s h).put off (Memory.writeBlock [] 0 bytes) 0 bytes.length) } }
  | .driveDown d => .ok { s with drives := s.drives.set d { s.drives[d] with format := .none } }
  | .clockTick us =>
    .ok { s with
      timerUs := s.timerUs - us
      motorUs := s.motorUs - us
      env := { s.env with resetHeldUs := if s.env.resetLine then s.env.resetHeldUs + us else s.env.resetHeldUs } }
  | .clockIndex level => .ok { s with env := { s.env with indexIn := level } }
  | .resetLine held =>
    .ok { s with env := { s.env with resetLine := held, resetHeldUs := if held then s.env.resetHeldUs else 0 } }
  | .bootSlot d slot => .ok { s with env := { s.env with boot := s.env.boot.set d slot } }
  | .fluxBlock bytes => .ok { s with flux := Memory.writeBlock [] 0 bytes, fluxLen := bytes.length }

end Sys2Proof.Machine
end

