-- ==== Sys2Proof/Machine/Crc.lean ====
section
/-! DEFINITION. The CRC unit's operations (40_crc.md). -/

namespace Sys2Proof.Machine

/-- `CRC.INIT` (rule R111). -/
def execCrcInit (s : State) : Host.Outcome State Fault Refusal :=
  .next { s with crc := CrcParams.ccitt.init }

/-- `CRC.BYTE` (rule R112). -/
def execCrcByte (b : Byte) (s : State) : Host.Outcome State Fault Refusal :=
  .next { s with crc := crcUpdate .ccitt s.crc b }

/-- `CRC.RANGE` (rule R113). -/
def execCrcRange (space : Space) (start len : Nat) (s : State) : Host.Outcome State Fault Refusal :=
  match crcRangeOp space start len s with
  | .ok s' => tell (.word (crcValue .ccitt s'.crc)) s'
  | .error r => .refused r

/-- `CRC.READ` (rule R114). -/
def execCrcRead (s : State) : Host.Outcome State Fault Refusal :=
  tell (.bytes (crcBytes s).1 (crcBytes s).2) s

/-- `CRC.CHECK` (rule R115). -/
def execCrcCheck (hi lo : Byte) (s : State) : Host.Outcome State Fault Refusal :=
  tell (.bool (crcMatches hi lo s)) s

end Sys2Proof.Machine
end

