-- ==== Sys2Proof/Machine/Dispatch.lean ====
section
/-! DEFINITION. exec: one arm per constructor of Instr, each a direct call of the instruction's meaning. -/

namespace Sys2Proof.Machine

def exec (i : Instr) (s : State) : Host.Outcome State Fault Refusal :=
  match i with
  | .rdStatus => Sys2Proof.Machine.execRdStatus s
  | .rdTrack => Sys2Proof.Machine.execRdTrack s
  | .rdSector => Sys2Proof.Machine.execRdSector s
  | .rdData => Sys2Proof.Machine.execRdData s
  | .wrCmd v => Sys2Proof.Machine.execWrCmd v s
  | .wrTrack v => Sys2Proof.Machine.execWrTrack v s
  | .wrSector v => Sys2Proof.Machine.execWrSector v s
  | .wrData v => Sys2Proof.Machine.execWrData v s
  | .rdNmi _ => Sys2Proof.Machine.execRdNmi s
  | .wrNmi _ v => Sys2Proof.Machine.execWrNmi v s
  | .wrDrvsel _ v => Sys2Proof.Machine.execWrDrvsel v s
  | .restore _ => Sys2Proof.Machine.execRestore s
  | .seek _ rate => Sys2Proof.Machine.execSeek rate s
  | .step u _ rate => Sys2Proof.Machine.execStep u rate s
  | .stepin u _ rate => Sys2Proof.Machine.execStepin u rate s
  | .stepout u _ rate => Sys2Proof.Machine.execStepout u rate s
  | .rdsec _ => Sys2Proof.Machine.execRdsec s
  | .wrsec _ => Sys2Proof.Machine.execWrsec s
  | .rdaddr _ => Sys2Proof.Machine.execRdaddr s
  | .forceint ien => Sys2Proof.Machine.execForceint ien s
  | .rdtrk _ => Sys2Proof.Machine.execRdtrk s
  | .wrtrk _ => Sys2Proof.Machine.execWrtrk s
  | .hxVersion => Sys2Proof.Machine.execHxVersion s
  | .hxFindfirst => Sys2Proof.Machine.execHxFindfirst s
  | .hxFindnext => Sys2Proof.Machine.execHxFindnext s
  | .hxMount => Sys2Proof.Machine.execHxMount s
  | .hxOpen => Sys2Proof.Machine.execHxOpen s
  | .hxRead => Sys2Proof.Machine.execHxRead s
  | .hxWrite => Sys2Proof.Machine.execHxWrite s
  | .hxClose => Sys2Proof.Machine.execHxClose s
  | .hxSettime => Sys2Proof.Machine.execHxSettime s
  | .hxGettime => Sys2Proof.Machine.execHxGettime s
  | .hxFindini => Sys2Proof.Machine.execHxFindini s
  | .hxFinddmk => Sys2Proof.Machine.execHxFinddmk s
  | .hxFindhfe => Sys2Proof.Machine.execHxFindhfe s
  | .hxUnknown b => Sys2Proof.Machine.execHxUnknown b s
  | .crcInit => Sys2Proof.Machine.execCrcInit s
  | .crcByte b => Sys2Proof.Machine.execCrcByte b s
  | .crcRange space start len => Sys2Proof.Machine.execCrcRange space start len s
  | .crcRead => Sys2Proof.Machine.execCrcRead s
  | .crcCheck hi lo => Sys2Proof.Machine.execCrcCheck hi lo s
  | .decBit side k => Sys2Proof.Machine.execDecBit side k s
  | .decWord side p => Sys2Proof.Machine.execDecWord side p s
  | .decMfmbyte w => Sys2Proof.Machine.execDecMfmbyte w s
  | .decSyncscan side p => Sys2Proof.Machine.execDecSyncscan side p s
  | .decMark side q => Sys2Proof.Machine.execDecMark side q s
  | .decIdfield side q b1 b2 => Sys2Proof.Machine.execDecIdfield side q b1 b2 s
  | .decDatafield side q b1 b2 b3 => Sys2Proof.Machine.execDecDatafield side q b1 b2 b3 s
  | .decTrack side => Sys2Proof.Machine.execDecTrack side s
  | .decFmword side p => Sys2Proof.Machine.execDecFmword side p s
  | .decFmscan side p => Sys2Proof.Machine.execDecFmscan side p s
  | .decFmtrack side => Sys2Proof.Machine.execDecFmtrack side s
  | .scanDmkOffset d track side => Sys2Proof.Machine.execScanDmkOffset d track side s
  | .scanLoad d side track => Sys2Proof.Machine.execScanLoad d side track s
  | .scanEnsure d side track => Sys2Proof.Machine.execScanEnsure d side track s
  | .scanDmkTables => Sys2Proof.Machine.execScanDmkTables s
  | .scanDamlookup origin => Sys2Proof.Machine.execScanDamlookup origin s
  | .scanFind track side sector => Sys2Proof.Machine.execScanFind track side sector s
  | .scanFirstidam => Sys2Proof.Machine.execScanFirstidam s
  | .scanView n => Sys2Proof.Machine.execScanView n s
  | .scanIdcrcCheck n => Sys2Proof.Machine.execScanIdcrcCheck n s
  | .scanDatacrcCheck n => Sys2Proof.Machine.execScanDatacrcCheck n s
  | .scanDatacrcGen n => Sys2Proof.Machine.execScanDatacrcGen n s
  | .scanWtResolve m => Sys2Proof.Machine.execScanWtResolve m s
  | .scanWtRebuild d => Sys2Proof.Machine.execScanWtRebuild d s
  | .scanFlush => Sys2Proof.Machine.execScanFlush s
  | .cmdClassify v => Sys2Proof.Machine.execCmdClassify v s
  | .cmdDispatch => Sys2Proof.Machine.execCmdDispatch s
  | .reset => Sys2Proof.Machine.execReset s

end Sys2Proof.Machine
end

