-- ==== Sys2Proof/Machine/Step.lean ====
section
/-! DEFINITION. One step of the machine: the next input of the queue is an instruction packet, which is decoded and run, or a move of
an outside agent (rules R38, R63, R70). FCB has no program counter (rule R21): "next" is whatever agent moves next. -/

namespace Sys2Proof.Machine

/-- One step. With no input waiting nothing happens (log 13). -/
def step (s : State) : Host.Outcome State Fault Refusal :=
  match s.inputs with
  | [] => .next s
  | .instr bs :: rest =>
    match decode bs with
    | .ok i => exec i { s with inputs := rest }
    | .error e => .refused (.undecodable e)
  | .move m :: rest => answer (runMove m { s with inputs := rest })

/-- `s` with the instruction of a word of the opcode table as the next input (log 3, log 13). -/
def State.withFetchWord (s : State) (nbits w : Nat) : State :=
  { s with inputs := .instr (tablePacket nbits w) :: s.inputs }

end Sys2Proof.Machine
end

