-- ==== Sys2Proof/Machine/Encode.lean ====
section
/-! DEFINITION. The reference encoders (rules R137, R138). No operation of FCB calls them; they are here so that the read-back
symmetry of rule R139 can be stated and test streams be made. -/

namespace Sys2Proof.Machine

/-- The bits of a byte, bit 7 first. -/
def bitsMsb (b : Byte) : List Bool :=
  [b.getLsbD 7, b.getLsbD 6, b.getLsbD 5, b.getLsbD 4, b.getLsbD 3, b.getLsbD 2, b.getLsbD 1, b.getLsbD 0]

/-- One (clock, data) pair: the clock bit is 1 between two 0 data bits, unless left out (rule R137). -/
def mfmPair (prev d skip : Bool) : List Bool := [!prev && !d && !skip, d]

/-- The pairs of a list of (data, skip) bits. -/
def mfmPairs : Bool → List (Bool × Bool) → List Bool
  | _, [] => []
  | prev, (d, skip) :: r => mfmPair prev d skip ++ mfmPairs d r

/-- `mfm_encode(prev, b, skip)` (rule R137): sixteen flux bits in time order. -/
def mfmEncode (prev : Bool) (b skip : Byte) : List Bool := mfmPairs prev ((bitsMsb b).zip (bitsMsb skip))

/-- The new `prev` of `mfm_encode`: the last data bit. -/
def mfmPrev (b : Byte) : Bool := b.getLsbD 0

/-- `fm_encode(b, clock)` (rule R138): each half-cell is followed by `FM_STRIDE - 1` zero flux bits. -/
def fmEncode (stride : Nat) (b clock : Byte) : List Bool :=
  (((bitsMsb clock).zip (bitsMsb b)).flatMap fun cd => [cd.1, cd.2]).flatMap fun x => x :: List.replicate (stride - 1) false

/-- Flux bits packed into flux bytes, the k-th into bit `k & 7` of byte `k >> 3` (rules R54, R139). -/
def packFlux : List Bool → List Byte
  | b0 :: b1 :: b2 :: b3 :: b4 :: b5 :: b6 :: b7 :: r => byteOf b7 b6 b5 b4 b3 b2 b1 b0 :: packFlux r
  | [] => []
  | rest =>
    [byteOf (rest.getD 7 false) (rest.getD 6 false) (rest.getD 5 false) (rest.getD 4 false) (rest.getD 3 false)
      (rest.getD 2 false) (rest.getD 1 false) (rest.getD 0 false)]

end Sys2Proof.Machine
end

