-- ==== Sys2Proof/Safety.lean ====
section
/-! DEFINITION. What counts as a safe state, in the terms the claims use: the invariants every step keeps, and the conditions on a
state under which a load and a sector command complete. -/

namespace Sys2Proof.Machine

/-- Every byte memory is in its canonical form. -/
def State.memoriesCanonical (s : State) : Bool :=
  s.cache.trk.wf && s.stage.wf && s.hxMem.wf && s.flux.wf && s.env.files.all fun f => f.bytes.wf

/-- Rule R167: the NMI status latch shows the interrupt pattern exactly while `INTRQ = 1`. -/
def State.latchShowsRequest (s : State) : Bool :=
  s.nmiStatus == if s.flags.intrq then s.cfg.nmiIntrq else s.cfg.nmiIdle

/-- Rule R32: `0 <= cur <= len`. -/
def State.cursorInRange (s : State) : Bool := decide (s.xfer.cur ≤ s.xfer.len)

/-- Rule R37: `TRKLEN` is at most `TRK_CAP`, `TRKPFX` is 0 or 3; rule R128: at most 128 ID fields are recorded, within `TRK_CAP`. -/
def State.trackFits (s : State) : Bool :=
  decide (s.cache.len ≤ s.cfg.trkCap) && (s.cache.pfx == 0 || s.cache.pfx == 3) &&
    decide (s.dec.n ≤ 128) && decide (s.dec.wp ≤ s.cfg.trkCap)

/-- A used slot lies in the track with its sync bytes and the six bytes of its ID field (rule R144), before its data mark. -/
def Cache.slotFits (c : Cache) (i : Fin 128) : Bool :=
  c.idam[i] == 0 || (decide (c.pfx ≤ c.idam[i]) && decide (c.idam[i] + 6 < c.len) &&
    match c.dam[i] with
    | none => true
    | some d => decide (c.idam[i] ≤ d))

/-- Every used slot fits. -/
def Cache.tablesFit (c : Cache) : Bool := (List.finRange 128).all c.slotFits

/-- `SCAN.LOAD` of this track does not meet an image it cannot read (rule R252, U14): no HFE drive, or a track it turns away first,
or a look-up entry that lies in the image. -/
def loadable (s : State) (d : Fin 4) (track : Byte) : Bool :=
  let v := s.drives[d]
  v.format != .hfe || decide (v.tracks ≤ track.toNat) ||
    match v.lut[track.toNat]? with
    | none => false
    | some e => (fileAt s v.handle).down || imageHas s v.handle (e.1 * 512) e.2

/-- `SCAN.ENSURE` of this track completes: it is cached, or it can be loaded. -/
def ensureReady (s : State) (d : Fin 4) (side : Bool) (track : Byte) : Bool :=
  decide (s.cache.id = some ⟨d, side, track⟩) || loadable s d track

/-- A command that looks up a sector completes: what is cached for it has tables that fit, and otherwise it can be loaded. -/
def lookupReady (s : State) (d : Fin 4) (side : Bool) (track : Byte) : Bool :=
  if s.cache.id = some ⟨d, side, track⟩ then s.cache.tablesFit else loadable s d track

/-! ## Words the claims use -/

/-- The transaction an instruction of the bus layer is (rule R82). -/
def busTxnOf : Instr → Option BusTxn
  | .rdStatus => some .rdStatus
  | .rdTrack => some .rdTrack
  | .rdSector => some .rdSector
  | .rdData => some .rdData
  | .wrCmd v => some (.wrCmd v)
  | .wrTrack v => some (.wrTrack v)
  | .wrSector v => some (.wrSector v)
  | .wrData v => some (.wrData v)
  | .rdNmi _ => some .rdNmi
  | .wrNmi _ v => some (.wrNmi v)
  | .wrDrvsel _ v => some (.wrDrvsel v)
  | .restore _ | .seek _ _ | .step _ _ _ | .stepin _ _ _ | .stepout _ _ _ | .rdsec _ | .wrsec _
  | .rdaddr _ | .forceint _ | .rdtrk _ | .wrtrk _
  | .hxVersion | .hxFindfirst | .hxFindnext | .hxMount | .hxOpen | .hxRead | .hxWrite | .hxClose
  | .hxSettime | .hxGettime | .hxFindini | .hxFinddmk | .hxFindhfe | .hxUnknown _
  | .crcInit | .crcByte _ | .crcRange _ _ _ | .crcRead | .crcCheck _ _
  | .decBit _ _ | .decWord _ _ | .decMfmbyte _ | .decSyncscan _ _ | .decMark _ _ | .decIdfield _ _ _ _
  | .decDatafield _ _ _ _ _ | .decTrack _ | .decFmword _ _ | .decFmscan _ _ | .decFmtrack _
  | .scanDmkOffset _ _ _ | .scanLoad _ _ _ | .scanEnsure _ _ _ | .scanDmkTables | .scanDamlookup _
  | .scanFind _ _ _ | .scanFirstidam | .scanView _ | .scanIdcrcCheck _ | .scanDatacrcCheck _ | .scanDatacrcGen _
  | .scanWtResolve _ | .scanWtRebuild _ | .scanFlush
  | .cmdClassify _ | .cmdDispatch | .reset => none

/-- The bus is free and `WaitNeeded` (rule R181) answers no. -/
def goesThrough (t : BusTxn) (s : State) : Prop := s.stretched = none ∧ waitNeeded t s = false

/-- A byte reached FCB's host. -/
def State.told (s : State) (v : Byte) : State := { s with events := .hostByte v :: s.events }

/-- A unit operation answered. -/
def State.answered (s : State) (r : Result) : State := { s with events := .result r :: s.events }

/-- `BUSY = 0`, `INTRQ = 1`, the latch at its interrupt pattern, one pulse out: what rule R227 leaves. -/
def State.completed (s : State) : State :=
  { s with
    flags := { s.flags with busy := false, intrq := true }
    nmiStatus := s.cfg.nmiIntrq
    events := .intrPulse :: s.events }

/-- What rule R202 leaves. -/
def State.bailedOut (s : State) : State :=
  { s with
    flags := { s.flags with notFound := true, busy := false, intrq := true }
    nmiStatus := s.cfg.nmiIntrq
    events := .intrPulse :: s.events }

/-- No identity, empty tables. -/
def State.cacheForgotten (s : State) : State :=
  { s with cache := { s.cache with id := none, idam := emptyIdam, dam := emptyDam } }

/-- The bytes of a memory from `a` on. -/
def readsAs (m : Memory) (a : Nat) (bs : List Byte) : Prop := ∀ k b, bs[k]? = some b → m.read (a + k) = b

/-- Every byte outside `a, …, a + n - 1` reads as before. -/
def agreeOutside (m m' : Memory) (a n : Nat) : Prop := ∀ k, k < a ∨ a + n ≤ k → m'.read k = m.read k

/-- The bytes `bs` have been stored at `a`, and nothing else. -/
def stored (m m' : Memory) (a : Nat) (bs : List Byte) : Prop := readsAs m' a bs ∧ agreeOutside m m' a bs.length

/-- The four bytes `A1 A1 A1 m` stand at `j` (rule R93). -/
def markedAt (m : Memory) (j : Nat) (b : Byte) : Prop := readsAs m j [0xA1, 0xA1, 0xA1, b]

/-- `r` is the offset of the first data mark from `o` on, before the end of the track, or none (rule R145). -/
def Cache.firstDataMark (c : Cache) (o : Nat) : Option Nat → Prop
  | some d => o + 3 ≤ d ∧ d < c.len ∧ (markedAt c.trk (d - 3) 0xFB ∨ markedAt c.trk (d - 3) 0xF8) ∧
      ∀ j, o ≤ j → j + 3 < d → ¬markedAt c.trk j 0xFB ∧ ¬markedAt c.trk j 0xF8
  | none => ∀ j, o ≤ j → j + 3 < c.len → ¬markedAt c.trk j 0xFB ∧ ¬markedAt c.trk j 0xF8

/-- The two tables are those of the pointer table at `TRK[0..256)` (rules R143, R144). -/
def Cache.tablesOfPointers (c : Cache) : Prop :=
  ∀ i : Fin 128,
    let off := (c.trk.read (2 * i.val)).toNat + 256 * (c.trk.read (2 * i.val + 1)).toNat &&& 0x7FFF
    if 256 + c.pfx ≤ off ∧ off + 6 < c.len then c.idam[i] = off ∧ c.firstDataMark off c.dam[i]
    else c.idam[i] = 0 ∧ c.dam[i] = none

/-- Slot `i` is in use and names this track, side and sector (rule R147). -/
def Cache.slotNames (c : Cache) (track side sector : Byte) (i : Fin 128) : Prop :=
  c.idam[i] ≠ 0 ∧ c.trk.read (c.idam[i] + 1) = track ∧ c.trk.read (c.idam[i] + 2) = side ∧ c.trk.read (c.idam[i] + 3) = sector

/-- The offsets of the ID marks after the header, in rising order (rule R156). -/
def Cache.idFieldOffsets (c : Cache) : List Nat :=
  (List.range c.len).filter fun o => decide (259 ≤ o) && c.trk.read (o - 3) == 0xA1 && c.trk.read (o - 2) == 0xA1 &&
    c.trk.read (o - 1) == 0xA1 && c.trk.read o == 0xFE

/-- `n` bytes of TRK from `a` on, as a list. -/
def Cache.bytes (c : Cache) (a n : Nat) : List Byte := (List.range n).map fun k => c.trk.read (a + k)

/-- Where the record of a side of a track lies in a DMK image (rule R140). -/
def DriveSlot.recordAt (v : DriveSlot) (track : Byte) (side : Bool) : Nat :=
  (track.toNat * v.sides + (if side then 1 else 0)) * v.trackLength + 16

/-- The track and side exist on a DMK drive of one or two sides, and its record has a length the cache can hold (rules R141, R252). -/
def State.recordExists (s : State) (d : Fin 4) (track : Byte) (side : Bool) : Prop :=
  let v := s.drives[d]
  v.format = .dmk ∧ track.toNat < v.tracks ∧ (if side then 1 else 0) < v.sides ∧ v.sides ≤ 2 ∧ 256 ≤ v.trackLength ∧
    v.trackLength ≤ s.cfg.trkCap

/-! ## The loops of the rules, turn by turn -/

/-- The state in which both decoding loops start (rules R130, R135); the bytes of TRK are `trk`. -/
def State.decodeStarted (s : State) (side : Bool) (mode : Encoding) (trk : Memory) : State :=
  { s with
    cache := { s.cache with trk := trk, idam := emptyIdam, dam := emptyDam }
    dec := ⟨side, mode, nbits s, 0, 256, 0, none⟩ }

/-- One turn of the loop of `DEC.TRACK` from `u` to `v` (rule R130), in the unit operations it is made of: the scan from `p` meets a
sync word at `q`, `DEC.MARK` classifies it, `DEC.IDFIELD` or `DEC.DATAFIELD` takes the field, and the scan goes on after a field that
was captured, else one bit after `q`. -/
def mfmTurned (side : Bool) (u v : State) : Prop :=
  ∃ (q : Nat) (m : DecMark) (r : Option Nat) (w : State),
    exec (.decSyncscan side u.dec.p) u = .next (u.answered (.position (some q))) ∧
    exec (.decMark side q) u = .next (u.answered (.mark m)) ∧
    (match m with
      | .fail => w = u ∧ r = none
      | .id b1 b2 => exec (.decIdfield side q b1 b2) u = .next (w.answered (.position r))
      | .data b1 b2 b3 => exec (.decDatafield side q b1 b2 b3) u = .next (w.answered (.position r))) ∧
    v = { w with dec := { w.dec with p := match r with
      | none => q + 1
      | some x => x } }

/-- One turn of the loop of `DEC.FMTRACK` from `u` to `v` (rule R135): the scan from `p` meets a mark at `q`. An ID field for which the
stream, the table and the buffer have room is captured with its six bytes; a data field that belongs to the current slot and for which
there is room is captured with the size its ID field gives; otherwise nothing is, and the scan goes on one bit after `q`. -/
def fmTurned (side : Bool) (u v : State) : Prop :=
  ∃ q : Nat,
    exec (.decFmscan side u.dec.p) u = .next (u.answered (.position (some q))) ∧
    let b := 16 * u.cfg.fmStride
    let m := fmByte u side q
    let f := q + b
    let field := fun n => m :: (List.range n).map fun k => fmByte u side (f + k * b)
    let idFits := m = 0xFE ∧ u.dec.n < 128 ∧ f + 6 * b ≤ nbits u ∧ u.dec.wp + 7 ≤ u.cfg.trkCap
    let dataFits := fun (c : Fin 128) (size : Nat) =>
      (m = 0xFB ∨ m = 0xF8) ∧ u.dec.cur = some c ∧ u.cache.dam[c] = none ∧
      size = 128 * 2 ^ ((u.cache.trk.read (u.cache.idam[c] + 4)).toNat % 4) ∧
      f + (size + 2) * b ≤ nbits u ∧ u.dec.wp + 1 + size + 2 ≤ u.cfg.trkCap
    (idFits ∧ ∃ (n : Fin 128) (trk : Memory), n.val = u.dec.n ∧ stored u.cache.trk trk u.dec.wp (field 6) ∧
      v = { u with
        cache := { u.cache with trk := trk, idam := u.cache.idam.set n u.dec.wp, dam := u.cache.dam.set n none }
        dec := { u.dec with p := f + 6 * b, wp := u.dec.wp + 7, n := u.dec.n + 1, cur := some n } }) ∨
    (∃ (c : Fin 128) (size : Nat) (trk : Memory), dataFits c size ∧ stored u.cache.trk trk u.dec.wp (field (size + 2)) ∧
      v = { u with
        cache := { u.cache with trk := trk, dam := u.cache.dam.set c (some u.dec.wp) }
        dec := { u.dec with p := f + (size + 2) * b, wp := u.dec.wp + 1 + size + 2 } }) ∨
    (¬idFits ∧ (∀ c size, ¬dataFits c size) ∧
      v = { u with dec := { u.dec with p := q + 1, cur := if m = 0xFE ∧ 128 ≤ u.dec.n then none else u.dec.cur } })

/-- What `SCAN.WT_RESOLVE` makes of a raw stream before it is cut at `TRKLEN` (rules R99, R155): the bytes, and the CRC register after
them. `c` is the register so far, `sync` whether the byte before was a sync sentinel. -/
def resolved (c : Word16) (sync : Bool) : List Byte → List Byte × Word16
  | [] => ([], c)
  | b :: r =>
    if b = 0xF5 then
      let rest := resolved (crcUpdate .ccitt (if sync then c else 0xFFFF) 0xA1) true r
      (0xA1 :: rest.1, rest.2)
    else if b = 0xF7 then
      let rest := resolved 0xFFFF false r
      (BitVec.ofNat 8 (c.toNat / 256) :: BitVec.ofNat 8 c.toNat :: rest.1, rest.2)
    else
      let x := if b = 0xF6 then 0xC2 else b
      let rest := resolved (crcUpdate .ccitt c x) false r
      (x :: rest.1, rest.2)

/-- A list of flux bits as a window, the first in bit 15 (rule R122). -/
def windowOf (bits : List Bool) : Word16 := window fun j => bits.getD j false

end Sys2Proof.Machine
end

