-- ==== Sys2Proof/Certificates/Slice0/Obligations.lean ====
section
/-! DEFINITION. What is claimed of the model. Every statement is made of the machine itself; none is about a program. -/

open Sys2Proof Sys2Proof.Machine

/-! ## Encoding and the step -/

/-- O1 (30_encoding.md, R82, R83, R84, R85, R86, R89, R91). The packet of every well-formed instruction decodes to it, every
operand kept at every value. The packet is the model's own transport (log 2). -/
def Obligations.DecodeOfEncodeIsTheInstruction : Prop :=
  ∀ i : Instr, WellFormed i = true → decode (encode i) = .ok i

/-- O2 (30_encoding.md, R80, R82, R90). A packet that names its layer and decodes is the packet of the instruction it decodes
to, and that instruction is well formed: such a packet has one meaning. The packet is the model's own transport (log 2). -/
def Obligations.EncodeOfDecodeIsThePacket : Prop :=
  ∀ (bs : List Byte) (i : Instr), decode bs = .ok i → bs[1]? ≠ some 0 → WellFormed i = true ∧ encode i = bs

/-- O3 (20_memory.md, R21, R38, R63, R70). A step runs the instruction the next packet decodes to, on the state without that
packet; a packet that is no instruction is refused; with nothing waiting nothing happens; a word placed by withFetchWord is
what the next step runs. The input queue is the model's own (log 13). -/
def Obligations.StepRunsTheDecodedInstruction : Prop :=
  ∀ s : State,
    (∀ bs rest i, s.inputs = .instr bs :: rest → decode bs = .ok i → step s = exec i { s with inputs := rest }) ∧
    (∀ bs rest e, s.inputs = .instr bs :: rest → decode bs = .error e → step s = .refused (.undecodable e)) ∧
    (s.inputs = [] → step s = .next s) ∧
    (∀ n w i, decodeTableWord n w = some i → step (s.withFetchWord n w) = exec i s)

/-- O4 (30_encoding.md, R80, R82, R84, R86, R89, R91). Packets decode to the instructions they stand for, one or more of each
layer: their first byte is the code, written out bit by bit from the spec's tables; the layer byte, the length of eleven and
every operand byte, those of CRC.CHECK, DEC.IDFIELD and SCAN.FIND among them, are the model's packet (log 2). A selector with
no active control line or with two is refused. -/
def Obligations.WordsOfTheTablesDecode : Prop :=
  decode [0b01000010, 1, 0, 0, 0, 0, 0, 0, 0, 0, 0] = .ok .rdSector ∧
  decode [0b00000110, 1, 0x1F, 0, 0, 0, 0, 0, 0, 0, 0] = .ok (.wrDrvsel 2 0x1F) ∧
  decode [0b00001100, 1, 0x1F, 0, 0, 0, 0, 0, 0, 0, 0] = .error .severalControlLines ∧
  decode [0b00000011, 1, 0, 0, 0, 0, 0, 0, 0, 0, 0] = .error .noControlLine ∧
  decode [0b00001011, 1, 0x80, 0, 0, 0, 0, 0, 0, 0, 0] = .ok (.wrNmi 3 0x80) ∧
  decode [0b00010111, 2, 0, 0, 0, 0, 0, 0, 0, 0, 0] = .ok (.seek 1 3) ∧
  decode [0b00110010, 2, 0, 0, 0, 0, 0, 0, 0, 0, 0] = .ok (.step true 0 2) ∧
  decode [0b10001000, 2, 0, 0, 0, 0, 0, 0, 0, 0, 0] = .ok (.rdsec 8) ∧
  decode [0b11010101, 2, 0, 0, 0, 0, 0, 0, 0, 0, 0] = .ok (.forceint 5) ∧
  decode [0b10000001, 3, 0, 0, 0, 0, 0, 0, 0, 0, 0] = .ok .hxFinddmk ∧
  decode [0b00010100, 4, 0x20, 0x2B, 0, 0, 0, 0, 0, 0, 0] = .ok (.crcCheck 0x20 0x2B) ∧
  decode [0b00100101, 4, 1, 0x34, 0x12, 0, 0, 0xA1, 0xF5, 0, 0] = .ok (.decIdfield true 0x1234 0xA1 0xF5) ∧
  decode [0b00110101, 4, 5, 0, 2, 0, 0, 0, 0, 0, 0] = .ok (.scanFind 5 0 2) ∧
  decode [0b01001111, 4, 0, 0, 0, 0, 0, 0, 0, 0, 0] = .ok .reset

/-! ## The bus -/

/-- O5 (R16, R18, R19). The two shapes of the status byte, bit by bit, with the derived bits written out: not ready,
protected, head load, track zero and index follow the state at the moment of the read. -/
def Obligations.StatusByteHasItsTwoShapes : Prop :=
  ∀ s : State,
    let ready := ∃ d, selDrive s = some d ∧ s.drives[d].format ≠ .none
    let guarded := ∃ d, selDrive s = some d ∧ s.drives[d].writeProtect = true
    let b := statusByte s
    (b.getLsbD 7 = true ↔ ¬ready) ∧ (b.getLsbD 6 = true ↔ guarded) ∧
    b.getLsbD 3 = s.flags.crcErr ∧ b.getLsbD 0 = s.flags.busy ∧
    (s.cmdType = .typeI ∨ s.cmdType = .typeIV →
      b.getLsbD 5 = s.cfg.hldStatus ∧ b.getLsbD 4 = s.flags.seekErr ∧ (b.getLsbD 2 = true ↔ s.track = 0) ∧
        b.getLsbD 1 = s.env.indexIn) ∧
    (s.cmdType = .typeII ∨ s.cmdType = .typeIII →
      b.getLsbD 5 = s.flags.recType ∧ b.getLsbD 4 = s.flags.notFound ∧ b.getLsbD 2 = s.flags.lostData ∧
        b.getLsbD 1 = s.flags.drq)

/-- O6 (R24). What DRVSEL selects: the sentinel when all four drive bits are set, else the lowest drive whose bit is set, else
none; and the side is bit 4. With the sentinel no drive is selected and the status byte shows not ready. -/
def Obligations.SelectionIsTheLowestDriveBit : Prop :=
  ∀ s : State,
    (hostSel s = true ↔ ∀ j : Nat, j < 4 → s.drvSel.getLsbD j = true) ∧
    (∀ d : Fin 4, selDrive s = some d ↔
      hostSel s = false ∧ s.drvSel.getLsbD d.val = true ∧ ∀ j : Nat, j < d.val → s.drvSel.getLsbD j = false) ∧
    (selDrive s = none ↔ hostSel s = true ∨ ∀ j : Nat, j < 4 → s.drvSel.getLsbD j = false) ∧
    sideSel s = s.drvSel.getLsbD 4 ∧
    (hostSel s = true → selDrive s = none ∧ (statusByte s).getLsbD 7 = true)

/-- O7 (R168). RD_STATUS returns the status byte formed before the side effect; with an interrupt pending it clears INTRQ and
idles the NMI latch, otherwise it has no side effect; nothing else changes. -/
def Obligations.StatusReadClearsThePendingInterrupt : Prop :=
  ∀ s : State, goesThrough .rdStatus s →
    (s.flags.intrq = true →
      exec .rdStatus s = .next
        (State.told { s with flags := { s.flags with intrq := false }, nmiStatus := s.cfg.nmiIdle } (statusByte s))) ∧
    (s.flags.intrq = false → exec .rdStatus s = .next (s.told (statusByte s)))

/-- O8 (R169, R170, R177). RD_TRACK, RD_SECTOR and RD_NMI return TRACK, SECTOR and NMI_STATUS and change nothing else. -/
def Obligations.TrackSectorAndNmiReadsChangeNothing : Prop :=
  ∀ (s : State) (a : BitVec 2),
    (goesThrough .rdTrack s → exec .rdTrack s = .next (s.told s.track)) ∧
    (goesThrough .rdSector s → exec .rdSector s = .next (s.told s.sector)) ∧
    (goesThrough .rdNmi s → exec (.rdNmi a) s = .next (s.told s.nmiStatus))

/-- O9 (R171, 43_regfile_bus.md). RD_DATA returns DATA, or while HOSTSEL the byte HOSTX has ready, and clears DRQ. With no
byte ready it completes with a byte about which nothing is claimed (log 4). -/
def Obligations.DataReadReturnsAByteAndClearsDrq : Prop :=
  ∀ s : State, goesThrough .rdData s →
    (hostSel s = false →
      exec .rdData s = .next (State.told { s with flags := { s.flags with drq := false } } s.data)) ∧
    (∀ b r, hostSel s = true → s.env.hostxBytes = b :: r →
      exec .rdData s = .next
        (State.told { s with flags := { s.flags with drq := false }, env := { s.env with hostxBytes := r } } b)) ∧
    (hostSel s = true → s.env.hostxBytes = [] →
      ∃ b : Byte, exec .rdData s = .next
        (State.told { s with flags := { s.flags with drq := false }, draws := s.draws + 1 } b))

/-- O10 (R172, R173, R180, R255). A command byte that is not accepted changes nothing, not even COMMAND. An accepted one is
stored with its type, every stored flag is cleared and BUSY set, the pending interrupt is cleared and CMDRECV set; through the
sentinel a byte 0xD? leaves BUSY clear. Force Interrupt without the sentinel runs in the same step, busy or not. -/
def Obligations.CommandWriteIsLatchedRunOrDropped : Prop :=
  ∀ (v : Byte) (s : State), goesThrough (.wrCmd v) s →
    let forced := v.extractLsb' 4 4 = 0xD#4
    (s.flags.busy = true → hostSel s = false → ¬forced → exec (.wrCmd v) s = .next s) ∧
    (hostSel s = true →
      exec (.wrCmd v) s = .next
        { s with
          command := v, cmdType := .typeII, cmdRecv := true, nmiStatus := s.cfg.nmiIdle
          flags := { Flags.clear with busy := decide (¬forced) } }) ∧
    (hostSel s = false → s.flags.busy = false → ¬forced →
      exec (.wrCmd v) s = .next
        { s with
          command := v, cmdRecv := true, nmiStatus := s.cfg.nmiIdle
          cmdType := if v.toNat < 0x80 then .typeI else if v.toNat < 0xC0 then .typeII else .typeIII
          flags := { Flags.clear with busy := true } }) ∧
    (hostSel s = false → forced →
      exec (.wrCmd v) s = exec (.forceint (v.extractLsb' 0 4)) { s with command := v, cmdType := .typeIV })

/-- O11 (R209, R226). FORCEINT loads IEN, clears every stored flag, drops what was latched or running, and generates an
interrupt whatever ien is; nothing else changes, the track cache included. That it drops a waiting step delay is log 16, that
it ends an outstanding SVC.REQ log 17: the model's reading, no word of the rules. -/
def Obligations.ForceInterruptClearsEverything : Prop :=
  ∀ (ien : BitVec 4) (s : State), exec (.forceint ien) s = .next
    { s with
      ien := ien, flags := { Flags.clear with intrq := true }, nmiStatus := s.cfg.nmiIntrq, svcTag := .none, svcSub := 0
      cmdRecv := false, stepWait := none, svcReq := false, events := .intrPulse :: s.events }

/-- O12 (R174, R175, R176, R178, R179). WR_TRACK, WR_SECTOR and WR_NMI store the byte; WR_DATA stores it and clears DRQ;
WR_DRVSEL stores it, reloads the motor timer, and keeps the old selection exactly when it enters the host channel. Nothing
else changes. -/
def Obligations.RegisterAndLatchWritesStoreTheByte : Prop :=
  ∀ (v : Byte) (a : BitVec 2) (s : State),
    (goesThrough (.wrTrack v) s → exec (.wrTrack v) s = .next { s with track := v }) ∧
    (goesThrough (.wrSector v) s → exec (.wrSector v) s = .next { s with sector := v }) ∧
    (goesThrough (.wrData v) s →
      exec (.wrData v) s = .next { s with data := v, flags := { s.flags with drq := false } }) ∧
    (goesThrough (.wrNmi v) s → exec (.wrNmi a v) s = .next { s with nmiMask := v }) ∧
    (goesThrough (.wrDrvsel v) s →
      (v.extractLsb' 0 4 = 0xF#4 ∧ hostSel s = false →
        exec (.wrDrvsel a v) s = .next { s with drvSelBackup := s.drvSel, drvSel := v, motorUs := s.cfg.motorOnUs }) ∧
      (v.extractLsb' 0 4 ≠ 0xF#4 ∨ hostSel s = true →
        exec (.wrDrvsel a v) s = .next { s with drvSel := v, motorUs := s.cfg.motorOnUs }))

/-- O13 (R66, R181, 43_regfile_bus.md). When WaitNeeded holds, a transaction sets WAITOUT and has none of its effect; the
effect is that of the step in which the cycle ends, after the release. A transaction that needs no wait has its effect at
once. That a second transaction is refused meanwhile is the model's choice (log 15). -/
def Obligations.WaitHoldsTheTransaction : Prop :=
  (∀ (i : Instr) (t : BusTxn) (s : State), busTxnOf i = some t → s.stretched = none → waitNeeded t s = true →
    exec i s = .next { s with waitOut := true, stretched := some t }) ∧
  (∀ (i : Instr) (t u : BusTxn) (s : State), busTxnOf i = some t → s.stretched = some u → exec i s = .refused .busCycleOpen) ∧
  (∀ (i : Instr) (t : BusTxn) (s : State), busTxnOf i = some t → goesThrough t s → exec i s = .next (busEffect t s)) ∧
  (∀ (t : BusTxn) (rest : List Input) (s : State), s.inputs = .move .hostCycleEnd :: rest → s.stretched = some t →
    (s.waitOut = false → step s = .next (busEffect t { s with inputs := rest, stretched := none })) ∧
    (s.waitOut = true → step s = .refused .moveNotEnabled)) ∧
  (∀ (rest : List Input) (s : State), s.inputs = .move .svcRelease :: rest →
    step s = .next { s with inputs := rest, waitOut := false })

/-- O14 (R71, R41, R183). No bus transaction changes the track cache, the private arrays, the flux block, the images, the CRC
unit or the DEC unit, nor the drive slots, XFER, the step direction or the step timer; and none but WR_CMD changes the
command, its type, IEN, CMDRECV or the service state. -/
def Obligations.BusNeverTouchesTheTrack : Prop :=
  ∀ (i : Instr) (t : BusTxn) (s s' : State), busTxnOf i = some t → exec i s = .next s' →
    s'.cache = s.cache ∧ s'.stage = s.stage ∧ s'.hxMem = s.hxMem ∧ s'.flux = s.flux ∧ s'.fluxLen = s.fluxLen ∧
    s'.env.files = s.env.files ∧ s'.crc = s.crc ∧ s'.dec = s.dec ∧ s'.drives = s.drives ∧ s'.xfer = s.xfer ∧
    s'.dir = s.dir ∧ s'.timerUs = s.timerUs ∧
    ((∀ v, t ≠ .wrCmd v) → s'.svcTag = s.svcTag ∧ s'.svcSub = s.svcSub ∧ s'.ien = s.ien ∧ s'.cmdRecv = s.cmdRecv ∧
      s'.command = s.command ∧ s'.cmdType = s.cmdType)

/-- O15 (R11, R12, R13, R14, R22, R23, R25, R26, R33, R36, R41). Over all sixty-nine instructions, who may write what:
COMMAND, CMDTYPE, TRACK, SECTOR, DATA, DRVSEL and its backup, MOTOR_US, NMI_MASK, IEN, DIR, the drive slots, the image files,
the parameters. CMD.DISPATCH stands in a list because it runs the command it dispatches. -/
def Obligations.OnlyTheirWritersChangeTheRegisters : Prop :=
  ∀ (i : Instr) (s s' : State), exec i s = .next s' →
    s'.cfg = s.cfg ∧
    (s'.command ≠ s.command ∨ s'.cmdType ≠ s.cmdType → (∃ v, i = .wrCmd v) ∨ i = .reset) ∧
    (s'.track ≠ s.track → (∃ v, i = .wrTrack v) ∨ (∃ z, i = .restore z) ∨ (∃ z r, i = .seek z r) ∨ (∃ u z r, i = .step u z r) ∨
      (∃ u z r, i = .stepin u z r) ∨ (∃ u z r, i = .stepout u z r) ∨ i = .cmdDispatch ∨ i = .reset) ∧
    (s'.sector ≠ s.sector → (∃ v, i = .wrSector v) ∨ i = .reset) ∧
    (s'.data ≠ s.data → (∃ v, i = .wrData v) ∨ i = .reset) ∧
    (s'.drvSel ≠ s.drvSel ∨ s'.drvSelBackup ≠ s.drvSelBackup ∨ s'.motorUs ≠ s.motorUs →
      (∃ a v, i = .wrDrvsel a v) ∨ i = .reset) ∧
    (s'.nmiMask ≠ s.nmiMask → (∃ a v, i = .wrNmi a v) ∨ i = .reset) ∧
    (s'.ien ≠ s.ien → (∃ v, i = .wrCmd v) ∨ (∃ n, i = .forceint n) ∨ i = .cmdDispatch ∨ i = .reset) ∧
    (s'.dir ≠ s.dir → (∃ u z r, i = .stepin u z r) ∨ (∃ u z r, i = .stepout u z r) ∨ i = .cmdDispatch ∨ i = .reset) ∧
    (s'.drives ≠ s.drives → i = .reset) ∧
    (s'.env.files ≠ s.env.files → i = .scanFlush)

/-! ## The agents -/

/-- O16 (R38, R65, R215, R220, R226, R227, R265). The moves SVC.PUT, SVC.REQ, SVC.TAKE, SVC.LOST, SVC.DONE and SVC.STORE: what
each writes when its precondition holds; the first four cannot be made otherwise. How a move reaches the machine is the model's
(log 13), the condition of SVC.TAKE and SVC.LOST as log 17 reads it, and so is that SVC.DONE may be made in every state. -/
def Obligations.ServiceMovesFollowTheHandshake : Prop :=
  ∀ (rest : List Input) (s : State), let s0 := { s with inputs := rest }
    (∀ b, s.inputs = .move (.svcPut b) :: rest →
      (s.flags.drq = false → step s = .next { s0 with data := b, flags := { s.flags with drq := true } }) ∧
      (s.flags.drq = true → step s = .refused .moveNotEnabled)) ∧
    (s.inputs = .move .svcReq :: rest →
      (s.flags.drq = false → step s = .next { s0 with flags := { s.flags with drq := true }, svcReq := true }) ∧
      (s.flags.drq = true → step s = .refused .moveNotEnabled)) ∧
    (s.inputs = .move .svcTake :: rest →
      (s.flags.drq = false ∧ s.svcReq = true → step s = .next { s0 with svcReq := false, events := .svcByte s.data :: s.events }) ∧
      (s.flags.drq = true ∨ s.svcReq = false → step s = .refused .moveNotEnabled)) ∧
    (s.inputs = .move .svcLost :: rest →
      (s.svcTag = .readSector ∧ s.flags.drq = true → step s = .next { s0 with flags := { s.flags with lostData := true } }) ∧
      (s.svcTag ≠ .readSector ∨ s.flags.drq = false → step s = .refused .moveNotEnabled)) ∧
    (s.inputs = .move .svcDone :: rest →
      step s = .next (State.completed { s0 with svcTag := .none, svcReq := false })) ∧
    (∀ k b, s.inputs = .move (.svcStore k b) :: rest → k < s.xfer.len → s.xfer.base + k < spaceLen s s.xfer.space →
      ∃ s', step s = .next s' ∧
        (∀ sp a, (spaceMem s' sp).read a =
          if sp = s.xfer.space ∧ a = s.xfer.base + k then b else (spaceMem s sp).read a) ∧
        s' = { s0 with cache := { s.cache with trk := s'.cache.trk }, stage := s'.stage, hxMem := s'.hxMem })

/-! ## Commands -/

/-- O17 (R83, R187, R188, R211). CMD.DISPATCH runs exactly the command, or with the sentinel the host operation, that the
latched byte decodes to, with CMDRECV cleared; a host operation completes by handing its tag over. With no command received
the state stays (log 11). -/
def Obligations.DispatchRunsTheLatchedByte : Prop :=
  ∀ s : State,
    (s.cmdRecv = true → hostSel s = false →
      exec .cmdDispatch s = exec (decodeCommand s.command) { s with cmdRecv := false }) ∧
    (s.cmdRecv = true → hostSel s = true →
      exec .cmdDispatch s = exec (decodeHostop s.command) { s with cmdRecv := false } ∧
      exec .cmdDispatch s = .next { s with cmdRecv := false, events := .hostOp (hostTag s.command) :: s.events }) ∧
    (s.cmdRecv = false → exec .cmdDispatch s = .next s)

/-- O18 (R186). CMD.CLASSIFY answers the type of a command byte, total on all 256 values, and Type II whatever the byte while
HOSTSEL; it changes nothing. -/
def Obligations.ClassificationFollowsTheUpperNibble : Prop :=
  ∀ (v : Byte) (s : State), exec (.cmdClassify v) s = .next (s.answered (.cmdType
    (if hostSel s = true then .typeII
     else if v.toNat < 0x80 then .typeI
     else if v.toNat < 0xC0 then .typeII
     else if 0xD0 ≤ v.toNat ∧ v.toNat < 0xE0 then .typeIV
     else .typeIII)))

/-- O19 (R89, R211). The fourteen host opcodes hand their tag to HOSTX and change nothing else. -/
def Obligations.HostOpcodesHandOverTheirTag : Prop :=
  ∀ s : State, let hands := fun i t => exec i s = .next { s with events := .hostOp t :: s.events }
    hands .hxVersion .version ∧ hands .hxFindfirst .findFirstAll ∧ hands .hxFindnext .findNext ∧ hands .hxMount .mount ∧
    hands .hxOpen .openFile ∧ hands .hxRead .readFileBlock ∧ hands .hxWrite .writeFileBlock ∧ hands .hxClose .closeFile ∧
    hands .hxSettime .setTime ∧ hands .hxGettime .getTime ∧ hands .hxFindini .findFirstIni ∧
    hands .hxFinddmk .findFirstDmk ∧ hands .hxFindhfe .findFirstHfe ∧ ∀ b, hands (.hxUnknown b) (.unknown b)

/-- O20 (R190). RESTORE loads track 0 of the selected side if a drive is mounted, whatever the load answers, then sets TRACK
to 0, clears SEEKERR and completes. Where the load is refused, so is the command. -/
def Obligations.RestoreGoesToTrackZero : Prop :=
  ∀ (z : BitVec 4) (s : State),
    (mounted s = none →
      exec (.restore z) s = .next (State.completed { s with track := 0, flags := { s.flags with seekErr := false } })) ∧
    (∀ d, mounted s = some d → ensureReady s d (sideSel s) 0 = true →
      ∃ (ok : Bool) (u : State), exec (.scanEnsure d (sideSel s) 0) s = .next (u.answered (.loaded ok)) ∧
        exec (.restore z) s = .next (State.completed { u with track := 0, flags := { u.flags with seekErr := false } })) ∧
    (∀ d r, mounted s = some d → exec (.scanEnsure d (sideSel s) 0) s = .refused r → exec (.restore z) s = .refused r)

/-- O21 (R192). SEEK: a target at or beyond the track count (with no mounted drive, every target) sets SEEKERR and completes,
TRACK unchanged, nothing loaded, no delay recorded. In the blocking branch (D19) a target in range records the step rate times
the distance, loads the track whatever the load answers, sets TRACK, clears SEEKERR and completes. -/
def Obligations.SeekReachesTheTargetOrFails : Prop :=
  ∀ (z rate : BitVec 2) (s : State),
    ((mounted s = none ∨ ∃ d, mounted s = some d ∧ s.drives[d].tracks ≤ s.data.toNat) →
      exec (.seek z rate) s = .next (State.completed { s with flags := { s.flags with seekErr := true } })) ∧
    (∀ d, s.cfg.stepDelay = .blocking → mounted s = some d → s.data.toNat < s.drives[d].tracks →
      let ms := if rate = 0 then 3 else if rate = 1 then 6 else if rate = 2 then 10 else 15
      let steps := max (s.data.toNat - s.track.toNat) (s.track.toNat - s.data.toNat)
      let s1 := { s with timerUs := ms * steps * 1000 }
      (ensureReady s d (sideSel s) s.data = true →
        ∃ (ok : Bool) (u : State), exec (.scanEnsure d (sideSel s) s.data) s1 = .next (u.answered (.loaded ok)) ∧
          exec (.seek z rate) s = .next (State.completed
            { u with track := s.data, flags := { u.flags with seekErr := false } })) ∧
      ∀ r, exec (.scanEnsure d (sideSel s) s.data) s1 = .refused r → exec (.seek z rate) s = .refused r)

/-- O22 (R194, R195, R196). STEP, STEPIN and STEPOUT in the blocking branch (D19): the direction kept or forced, the new track
clamped to 0..255 and stored only if the update bit is set, the delay of one step, completion; nothing else changes. -/
def Obligations.StepsClampAndComplete : Prop :=
  ∀ (u : Bool) (z rate : BitVec 2) (s : State), s.cfg.stepDelay = .blocking →
    let ms := if rate = 0 then 3 else if rate = 1 then 6 else if rate = 2 then 10 else 15
    let inward : Byte := if s.track = 255 then 255 else s.track + 1
    let outward : Byte := if s.track = 0 then 0 else s.track - 1
    exec (.step u z rate) s = .next (State.completed
      { s with timerUs := ms * 1000, track := if u then (if s.dir = .plus then inward else outward) else s.track }) ∧
    exec (.stepin u z rate) s = .next (State.completed
      { s with dir := .plus, timerUs := ms * 1000, track := if u then inward else s.track }) ∧
    exec (.stepout u z rate) s = .next (State.completed
      { s with dir := .minus, timerUs := ms * 1000, track := if u then outward else s.track })

/-- O23 (R192, R194, R195, R196, R257). In the tick-based branch (D19) SEEK and the step family record the delay first; the rest
is a second step of the loop, enabled once TIMER_US is 0, which then does what the blocking branch does. That the drive, the
side and the new track are taken and DIR written at the first step, and that a new rest takes the place of one that still waits,
is the model's choice (log 16), and so is that an SVC.TIMER may bring TIMER_US to 0 as CLOCK does. -/
def Obligations.TickBasedDelaySplitsTheStep : Prop :=
  (∀ (u : Bool) (z rate : BitVec 2) (s : State), s.cfg.stepDelay = .tickBased →
    let us := (if rate = 0 then 3 else if rate = 1 then 6 else if rate = 2 then 10 else 15) * 1000
    let inward : Byte := if s.track = 255 then 255 else s.track + 1
    let outward : Byte := if s.track = 0 then 0 else s.track - 1
    let waits := fun dir t => { s with dir := dir, timerUs := us, stepWait := some (.step (if u then some t else none)) }
    exec (.step u z rate) s = .next (waits s.dir (if s.dir = .plus then inward else outward)) ∧
    exec (.stepin u z rate) s = .next (waits .plus inward) ∧
    exec (.stepout u z rate) s = .next (waits .minus outward)) ∧
  (∀ (z rate : BitVec 2) (s : State) (d : Fin 4), s.cfg.stepDelay = .tickBased →
    mounted s = some d → s.data.toNat < s.drives[d].tracks →
    let ms := if rate = 0 then 3 else if rate = 1 then 6 else if rate = 2 then 10 else 15
    let steps := max (s.data.toNat - s.track.toNat) (s.track.toNat - s.data.toNat)
    exec (.seek z rate) s = .next
      { s with timerUs := ms * steps * 1000, stepWait := some (.seek d (sideSel s) s.data) }) ∧
  (∀ (w : StepWait) (rest : List Input) (s : State), s.inputs = .move .loopResume :: rest → s.stepWait = some w →
    s.timerUs ≠ 0 → step s = .refused .moveNotEnabled) ∧
  (∀ (new : Option Byte) (rest : List Input) (s : State), s.inputs = .move .loopResume :: rest →
    s.stepWait = some (.step new) → s.timerUs = 0 →
    step s = .next (State.completed { s with inputs := rest, stepWait := none, track := new.getD s.track })) ∧
  (∀ (d : Fin 4) (side : Bool) (target : Byte) (rest : List Input) (s : State), s.inputs = .move .loopResume :: rest →
    s.stepWait = some (.seek d side target) → s.timerUs = 0 → ensureReady s d side target = true →
    ∃ (ok : Bool) (u : State), exec (.scanEnsure d side target) { s with inputs := rest, stepWait := none } = .next (u.answered (.loaded ok)) ∧
      step s = .next (State.completed { u with track := target, flags := { u.flags with seekErr := false } }))

/-- O24 (R200, R203, R204). RDSEC and WRSEC: no mounted drive, a track that does not load, no slot that names the sector, or
no view of it sets NOTFOUND and completes without a hand-over. A sector that resolves is staged for the service: RDSEC checks
both checksums, either failure sets CRCERR without stopping it, and RECTYPE tells the mark; WRSEC checks nothing and changes
no flag. -/
def Obligations.SectorCommandsResolveAndStage : Prop :=
  ∀ (z : BitVec 5) (i : Instr) (s : State), i = .rdsec z ∨ i = .wrsec z →
    (mounted s = none → exec i s = .next s.bailedOut) ∧
    (∀ d r, mounted s = some d → exec (.scanEnsure d (sideSel s) s.track) s = .refused r → exec i s = .refused r) ∧
    (∀ d, mounted s = some d → lookupReady s d (sideSel s) s.track = true →
      ∃ (ok : Bool) (u : State), exec (.scanEnsure d (sideSel s) s.track) s = .next (u.answered (.loaded ok)) ∧
        (ok = false → exec i s = .next u.bailedOut) ∧
        (ok = true → ∃ f, exec (.scanFind s.track (sideByte (sideSel s)) s.sector) u = .next (u.answered (.slot f)) ∧
          (f = none → exec i s = .next u.bailedOut) ∧
          ∀ n, f = some n → ∃ w, exec (.scanView n) u = .next (u.answered (.view w)) ∧
            (w = none → exec i s = .next u.bailedOut) ∧
            ∀ v, w = some v →
              (i = .wrsec z → exec i s = .next
                { u with xfer := ⟨.trk, v.dataOff, v.size, 0, some n⟩, svcTag := .writeSector, svcSub := 0 }) ∧
              (i = .rdsec z → ∃ idOk dataOk c1 c2,
                exec (.scanIdcrcCheck n) u = .next (State.answered { u with crc := c1 } (.bool idOk)) ∧
                exec (.scanDatacrcCheck n) u = .next (State.answered { u with crc := c2 } (.bool dataOk)) ∧
                exec i s = .next
                  { u with
                    crc := c2
                    flags := { u.flags with
                      crcErr := u.flags.crcErr || !idOk || !dataOk, recType := decide (v.mark = 0xF8) }
                    xfer := ⟨.trk, v.dataOff, v.size, 0, some n⟩, svcTag := .readSector, svcSub := 0 })))

/-- O25 (R206, R207). RDADDR stages the six bytes after the first used slot's mark, unchecked; without a mounted drive, a
track or a used slot it sets NOTFOUND and completes. RDTRK offers what is resident after the pointer table, whatever it
belongs to, loads nothing and changes no flag. -/
def Obligations.ReadAddressAndReadTrackStageTheirBytes : Prop :=
  (∀ (z : BitVec 4) (s : State),
    (mounted s = none → exec (.rdaddr z) s = .next s.bailedOut) ∧
    (∀ d r, mounted s = some d → exec (.scanEnsure d (sideSel s) s.track) s = .refused r → exec (.rdaddr z) s = .refused r) ∧
    (∀ d, mounted s = some d → lookupReady s d (sideSel s) s.track = true →
      ∃ (ok : Bool) (u : State), exec (.scanEnsure d (sideSel s) s.track) s = .next (u.answered (.loaded ok)) ∧
        (ok = false → exec (.rdaddr z) s = .next u.bailedOut) ∧
        (ok = true → ∃ f, exec .scanFirstidam u = .next (u.answered (.slot f)) ∧
          (f = none → exec (.rdaddr z) s = .next u.bailedOut) ∧
          ∀ n, f = some n → ∃ stage : Memory,
            exec (.rdaddr z) s = .next
              { u with stage := stage, xfer := ⟨.stage, 0, 6, 0, some n⟩, svcTag := .sendData, svcSub := 0 } ∧
            (∀ k, k < 6 → stage.read k = u.cache.trk.read (u.cache.idam[n] + 1 + k)) ∧
            agreeOutside u.stage stage 0 6))) ∧
  ∀ (z : BitVec 4) (s : State),
    exec (.rdtrk z) s = .next
      { s with
        xfer := ⟨.trk, 256, if 256 < s.cache.len then s.cache.len - 256 else 0, 0, none⟩
        svcTag := .sendData, svcSub := 0 }

/-- O26 (R208). WRTRK on a DMK drive loads the track, clears its body to 0x00 and stages the raw stream with the drive's track
length; the pointer table and the two tables keep their values. Without a mounted drive or a track it sets NOTFOUND and
completes; on an HFE drive it is refused. -/
def Obligations.WriteTrackClearsTheBody : Prop :=
  ∀ (z : BitVec 4) (s : State),
    (mounted s = none → exec (.wrtrk z) s = .next s.bailedOut) ∧
    (∀ d, mounted s = some d → s.drives[d].format = .hfe → exec (.wrtrk z) s = .refused .needsFluxEncoder) ∧
    (∀ d, mounted s = some d → s.drives[d].format = .dmk →
      ∃ (ok : Bool) (u : State), exec (.scanEnsure d (sideSel s) s.track) s = .next (u.answered (.loaded ok)) ∧
        (ok = false → exec (.wrtrk z) s = .next u.bailedOut) ∧
        (ok = true → ∃ trk : Memory,
          exec (.wrtrk z) s = .next
            { u with
              cache := { u.cache with trk := trk }
              xfer := ⟨.stage, 0, u.drives[d].trackLength, 0, none⟩, svcTag := .writeTrack, svcSub := 0 } ∧
          ∀ a, trk.read a = if 256 ≤ a ∧ a < u.cache.len then 0 else u.cache.trk.read a))

/-! ## The CRC unit -/

/-- O27 (R111, R114, R115). CRC.INIT presets the register to 0xFFFF, CRC.READ answers its high byte and its low byte,
CRC.CHECK whether it equals two stored bytes, high first; the last two leave it. -/
def Obligations.CrcRegisterPresetReadAndCheck : Prop :=
  ∀ (hi lo : Byte) (s : State),
    exec .crcInit s = .next { s with crc := 0xFFFF } ∧
    exec .crcRead s = .next (s.answered (.bytes (BitVec.ofNat 8 (s.crc.toNat / 256)) (BitVec.ofNat 8 s.crc.toNat))) ∧
    exec (.crcCheck hi lo) s = .next (s.answered (.bool (decide (s.crc.toNat = 256 * hi.toNat + lo.toNat))))

/-- O28 (R112). CRC.BYTE is the bit-serial loop, most significant bit first, and agrees with the byte-wise table form on every
register and byte, the entry x being what the loop leaves from x << 8 on the byte 0; it changes nothing else. The agreement is
the spec's own inference, "[derived: from the bit-serial form; the two agree on every (CRC, b)]". -/
def Obligations.CrcByteIsTheTableForm : Prop :=
  ∀ (b : Byte) (s : State),
    let turn := fun (c : Word16) (bit : Bool) => if (c.getLsbD 15 != bit) = true then (c <<< 1) ^^^ 0x1021#16 else c <<< 1
    let serial := fun (c : Word16) (x : Byte) => (List.range 8).foldl (fun r k => turn r (x.getLsbD (7 - k))) c
    let table := fun x : Word16 => serial (x <<< 8) 0
    exec (.crcByte b) s = .next { s with crc := serial s.crc b } ∧
    serial s.crc b = (s.crc <<< 8) ^^^ table ((s.crc >>> 8) ^^^ b.setWidth 16)

/-- O29 (R52, R113). CRC.RANGE is the preset followed by CRC.BYTE of each byte of the range in ascending order, answered and
left in the register, nothing else changed. A range that ends beyond its space is refused, which for TRK is R113's own word; the
bounds of STAGE and of HOSTX's memory, TRK_CAP each, are the model's (log 18, log 23). -/
def Obligations.CrcRangeRunsOverTheBytes : Prop :=
  ∀ (sp : Space) (start len : Nat) (s : State),
    (start + len ≤ spaceLen s sp →
      ∃ c, exec (.crcRange sp start len) s = .next (State.answered { s with crc := c } (.word c)) ∧
        (len = 0 → c = 0xFFFF) ∧
        ∀ n, len = n + 1 → ∃ c', exec (.crcRange sp start n) s = .next (State.answered { s with crc := c' } (.word c')) ∧
          exec (.crcByte ((spaceMem s sp).read (start + n))) { s with crc := c' } = .next { s with crc := c }) ∧
    (¬start + len ≤ spaceLen s sp → exec (.crcRange sp start len) s = .refused .outOfBounds)

/-- O30 (R115, R116). The register after a concatenation is the register after the first part fed the second, so a common
prefix folds into a constant, with the spec's three constants; and a field followed by two bytes leaves zero exactly when
those are its checksum, high byte first. -/
def Obligations.CrcComposesAndLeavesZero : Prop :=
  (∀ xs ys : List Byte, crcOf (xs ++ ys) = crcFeed .ccitt (crcOf xs) ys) ∧
  (∀ ys, crcOf ([0xA1, 0xA1, 0xA1, 0xFE] ++ ys) = crcFeed .ccitt 0xB230 ys) ∧
  (∀ ys, crcOf ([0xA1, 0xA1, 0xA1, 0xFB] ++ ys) = crcFeed .ccitt 0xE295 ys) ∧
  (∀ ys, crcOf ([0xA1, 0xA1, 0xA1, 0xF8] ++ ys) = crcFeed .ccitt 0xD2F6 ys) ∧
  ∀ (bs : List Byte) (hi lo : Byte), crcOf (bs ++ [hi, lo]) = 0 ↔ crcOf bs = hi ++ lo

/-- O31 (R116). Changing any single bit of the covered range changes the checksum, wherever the bit stands and whatever
precedes or follows it. -/
def Obligations.CrcDetectsEverySingleBitError : Prop :=
  ∀ (xs ys : List Byte) (b : Byte) (k : Fin 8), crcOf (xs ++ (b ^^^ (1#8 <<< k.val)) :: ys) ≠ crcOf (xs ++ b :: ys)

/-! ## The DEC unit -/

/-- O32 (R53, R54, R120, R121). A flux bit is bit k mod 8, the earliest least significant, of the byte at the place the side
interleave gives. Where that place lies beyond the end of the block the operation completes with a bit about which nothing is
claimed (log 32); a bit at or beyond NBITS is refused (log 18). -/
def Obligations.FluxBitFollowsTheInterleave : Prop :=
  ∀ (side : Bool) (k : Nat) (s : State),
    let p := k / 8
    let place := (p / 256 * 256) * 2 + p % 256 + (if side = true then 256 else 0)
    (k < 8 * (s.fluxLen / 2) → place < s.fluxLen →
      exec (.decBit side k) s = .next (s.answered (.bool ((s.flux.read place).getLsbD (k % 8))))) ∧
    (k < 8 * (s.fluxLen / 2) → s.fluxLen ≤ place → ∃ b : Bool, exec (.decBit side k) s = .next (s.answered (.bool b))) ∧
    (8 * (s.fluxLen / 2) ≤ k → exec (.decBit side k) s = .refused .fluxOutOfBounds)

/-- O33 (R97, R122, R123, R133). A window holds sixteen flux bits, or sixteen half-cells one every FM_STRIDE bits, the first
in bit 15; a window that does not exist is refused (log 18). Its data byte takes the even bits and its clock byte the odd
ones. -/
def Obligations.WindowsGatherSixteenBitsAndSplit : Prop :=
  (∀ (side : Bool) (p : Nat) (s : State),
    (p + 16 ≤ nbits s → ∃ w : Word16, exec (.decWord side p) s = .next (s.answered (.word w)) ∧
      ∀ j : Nat, j < 16 → w.getLsbD (15 - j) = fluxBit s side (p + j)) ∧
    (nbits s < p + 16 → exec (.decWord side p) s = .refused .fluxOutOfBounds) ∧
    (p + 16 * s.cfg.fmStride ≤ nbits s → ∃ w : Word16, exec (.decFmword side p) s = .next (s.answered (.word w)) ∧
      ∀ j : Nat, j < 16 → w.getLsbD (15 - j) = fluxBit s side (p + j * s.cfg.fmStride)) ∧
    (nbits s < p + 16 * s.cfg.fmStride → exec (.decFmword side p) s = .refused .fluxOutOfBounds)) ∧
  ∀ (w : Word16) (s : State), ∃ data clock : Byte,
    exec (.decMfmbyte w) s = .next (s.answered (.bytes data clock)) ∧
    ∀ j : Nat, j < 8 → data.getLsbD j = w.getLsbD (2 * j) ∧ clock.getLsbD j = w.getLsbD (2 * j + 1)

/-- O34 (R125, R134). DEC.SYNCSCAN answers the first position from p whose whole window is the sync word, DEC.FMSCAN the first
whose composite is one of the three FM marks; each answers none if there is none, and changes nothing. -/
def Obligations.ScansFindTheFirstMark : Prop :=
  (∀ (side : Bool) (p : Nat) (s : State), ∃ r, exec (.decSyncscan side p) s = .next (s.answered (.position r)) ∧
    (∀ q, r = some q → p ≤ q ∧ q + 16 ≤ nbits s ∧ wordAt s side q = 0x4489 ∧ ∀ j, p ≤ j → j < q → wordAt s side j ≠ 0x4489) ∧
    (r = none → ∀ j, p ≤ j → j + 16 ≤ nbits s → wordAt s side j ≠ 0x4489)) ∧
  ∀ (side : Bool) (p : Nat) (s : State),
    let isMark := fun q => fmWordAt s side q = 0xF57E ∨ fmWordAt s side q = 0xF56F ∨ fmWordAt s side q = 0xF56A
    ∃ r, exec (.decFmscan side p) s = .next (s.answered (.position r)) ∧
    (∀ q, r = some q → p ≤ q ∧ q + 16 * s.cfg.fmStride ≤ nbits s ∧ isMark q ∧ ∀ j, p ≤ j → j < q → ¬isMark j) ∧
    (r = none → ∀ j, p ≤ j → j + 16 * s.cfg.fmStride ≤ nbits s → ¬isMark j)

/-- O35 (R126, R127). What follows a sync word is classified by three decoded bytes, whatever their clock bits: an ID mark or
a data mark after two sync bytes, 0xA1 or 0xF5 each, else Fail; nothing changes. That the same three tests are made at a
position where no sync word stands is the model's choice (log 33). -/
def Obligations.MarkIsClassifiedByThreeBytes : Prop :=
  ∀ (side : Bool) (q : Nat) (s : State),
    let b1 := mfmByte s side (q + 16)
    let b2 := mfmByte s side (q + 32)
    let b3 := mfmByte s side (q + 48)
    let synced := q + 64 ≤ nbits s ∧ (b1 = 0xA1 ∨ b1 = 0xF5) ∧ (b2 = 0xA1 ∨ b2 = 0xF5)
    let gives := fun m => exec (.decMark side q) s = .next (s.answered (.mark m))
    (synced ∧ b3 = 0xFE → gives (.id b1 b2)) ∧
    (synced ∧ (b3 = 0xFB ∨ b3 = 0xF8) → gives (.data b1 b2 b3)) ∧
    (¬synced ∨ (b3 ≠ 0xFE ∧ b3 ≠ 0xFB ∧ b3 ≠ 0xF8) → gives .fail)

/-- O36 (R128). DEC.IDFIELD captures an ID field into the next slot: ten bytes at the write cursor, the table entries, the
cursors; a field that does not fit answers Fail and changes nothing, and a full table drops the current slot. That a count
above 128 is a full table is log 20, that the position may be any is log 33: the model's choices. -/
def Obligations.IdFieldIsCaptured : Prop :=
  ∀ (side : Bool) (q : Nat) (b1 b2 : Byte) (s : State),
    let fits := q + 160 ≤ nbits s ∧ s.dec.wp + 10 ≤ s.cfg.trkCap
    (∀ n : Fin 128, n.val = s.dec.n → fits → ∃ trk : Memory,
      exec (.decIdfield side q b1 b2) s = .next (State.answered
        { s with
          cache := { s.cache with
            trk := trk, idam := s.cache.idam.set n (s.dec.wp + 3), dam := s.cache.dam.set n none }
          dec := { s.dec with cur := some n, n := s.dec.n + 1, wp := s.dec.wp + 10 } } (.position (some (q + 160)))) ∧
      readsAs trk s.dec.wp [0xA1, b1, b2, 0xFE] ∧
      (∀ k, k < 6 → trk.read (s.dec.wp + 4 + k) = mfmByte s side (q + 64 + 16 * k)) ∧
      agreeOutside s.cache.trk trk s.dec.wp 10) ∧
    (s.dec.n < 128 → ¬fits → exec (.decIdfield side q b1 b2) s = .next (s.answered (.position none))) ∧
    (128 ≤ s.dec.n → exec (.decIdfield side q b1 b2) s =
      .next (State.answered { s with dec := { s.dec with cur := none } } (.position none)))

/-- O37 (R129). DEC.DATAFIELD captures a data field for the slot of the last ID field, once, with the size that field gives;
otherwise it answers Fail and changes nothing. A slot whose size code lies outside the buffer, which no decoding leaves, is
refused (log 18). That the position may be any is the model's choice (log 33). -/
def Obligations.DataFieldIsCapturedOnce : Prop :=
  ∀ (side : Bool) (q : Nat) (b1 b2 b3 : Byte) (s : State),
    let fails := exec (.decDatafield side q b1 b2 b3) s = .next (s.answered (.position none))
    (s.dec.cur = none → fails) ∧
    (∀ c : Fin 128, s.dec.cur = some c → s.cache.dam[c] ≠ none → fails) ∧
    (∀ c : Fin 128, s.dec.cur = some c → s.cache.dam[c] = none → s.cfg.trkCap ≤ s.cache.idam[c] + 4 →
      exec (.decDatafield side q b1 b2 b3) s = .refused .outOfBounds) ∧
    (∀ c : Fin 128, s.dec.cur = some c → s.cache.dam[c] = none → s.cache.idam[c] + 4 < s.cfg.trkCap →
      let size := 128 * 2 ^ ((s.cache.trk.read (s.cache.idam[c] + 4)).toNat % 4)
      let fits := q + 64 + 16 * (size + 2) ≤ nbits s ∧ s.dec.wp + 4 + size + 2 ≤ s.cfg.trkCap
      (¬fits → fails) ∧
      (fits → ∃ trk : Memory,
        exec (.decDatafield side q b1 b2 b3) s = .next (State.answered
          { s with
            cache := { s.cache with trk := trk, dam := s.cache.dam.set c (some (s.dec.wp + 3)) }
            dec := { s.dec with wp := s.dec.wp + 4 + size + 2 } } (.position (some (q + 64 + 16 * (size + 2))))) ∧
        readsAs trk s.dec.wp [0xA1, b1, b2, b3] ∧
        (∀ k, k < size + 2 → trk.read (s.dec.wp + 4 + k) = mfmByte s side (q + 64 + 16 * k)) ∧
        agreeOutside s.cache.trk trk s.dec.wp (4 + size + 2)))

/-- O38 (R37, R125, R130, R131). DEC.TRACK is the loop of its rule: from empty tables, with the place of the pointer table
zero, a run of turns, each a SYNCSCAN, a MARK, an IDFIELD or DATAFIELD and the move of the scan position, until SYNCSCAN
answers none. It completes on every stream, within TRK_CAP, with prefix 3 and TRKLEN the write cursor, and only the cache and
the DEC unit change. From the final scan position on no sync word is left. A stream without a sync word leaves 256 bytes and
every slot empty. -/
def Obligations.DecodingATrackCompletes : Prop :=
  ∀ (side : Bool) (s : State), 256 ≤ s.cfg.trkCap →
    ∃ (c : Cache) (d : DecUnit), exec (.decTrack side) s = .next { s with cache := c, dec := d } ∧
      (∃ (trk : Memory) (u : State),
        (∀ a, trk.read a = if a < 256 then 0 else s.cache.trk.read a) ∧
        Relation.ReflTransGen (mfmTurned side) (s.decodeStarted side .mfm trk) u ∧
        exec (.decSyncscan side u.dec.p) u = .next (u.answered (.position none)) ∧
        c = { u.cache with len := u.dec.wp, pfx := 3 } ∧ d = u.dec) ∧
      c.id = s.cache.id ∧ 256 ≤ c.len ∧ c.len ≤ s.cfg.trkCap ∧ d.n ≤ 128 ∧
      (∀ a, a < 256 → c.trk.read a = 0) ∧ (∀ a, c.len ≤ a → c.trk.read a = s.cache.trk.read a) ∧
      (∀ q, d.p ≤ q → q + 16 ≤ nbits s → wordAt s side q ≠ 0x4489) ∧
      ((∀ q, q + 16 ≤ nbits s → wordAt s side q ≠ 0x4489) →
        c.len = 256 ∧ d.n = 0 ∧ ∀ i : Fin 128, c.idam[i] = 0 ∧ c.dam[i] = none)

/-- O39 (R132). The ordering law of a decoded track: slots 0..n-1 are used, in strictly rising order, each data field between
its own ID field and the next one's, and the slots from n on are empty. -/
def Obligations.DecodedTrackIsOrdered : Prop :=
  ∀ (side : Bool) (s t : State), exec (.decTrack side) s = .next t →
    ∀ i : Fin 128,
      (i.val < t.dec.n → 259 ≤ t.cache.idam[i] ∧ t.cache.idam[i] + 7 ≤ t.cache.len ∧
        (∀ d, t.cache.dam[i] = some d → t.cache.idam[i] + 7 ≤ d - 3 ∧ d < t.cache.len) ∧
        ∀ j : Fin 128, i.val + 1 = j.val → j.val < t.dec.n →
          t.cache.idam[i] < t.cache.idam[j] ∧ ∀ d, t.cache.dam[i] = some d → d < t.cache.idam[j] - 3) ∧
      (t.dec.n ≤ i.val → t.cache.idam[i] = 0 ∧ t.cache.dam[i] = none)

/-- O40 (R125, R127, R128, R129, R130, R131, R132). The slots of a decoded track are the fields of the flux, in the order met.
Each ID field follows a sync word and two sync bytes and holds the six bytes decoded after the mark; its data field, if it has
one, follows a later sync word and holds the decoded payload and checksum of the size the ID field gives; and a slot ends
before the next begins. Where slots and buffer are left over, every ID field of the flux is recorded, or stands inside a field
that is. -/
def Obligations.EveryDecodedFieldIsInTheFlux : Prop :=
  ∀ (side : Bool) (s t : State), exec (.decTrack side) s = .next t →
    ∃ head body last : Fin 128 → Nat,
      (∀ i : Fin 128, i.val < t.dec.n →
        let o := t.cache.idam[i]
        let size := 128 * 2 ^ ((t.cache.trk.read (o + 4)).toNat % 4)
        wordAt s side (head i) = 0x4489 ∧
        markAt s side (head i) = .id (t.cache.trk.read (o - 2)) (t.cache.trk.read (o - 1)) ∧
        t.cache.trk.read (o - 3) = 0xA1 ∧ t.cache.trk.read o = 0xFE ∧
        (∀ k, k < 6 → t.cache.trk.read (o + 1 + k) = mfmByte s side (head i + 64 + 16 * k)) ∧
        (∀ d, t.cache.dam[i] = some d → head i + 160 ≤ body i ∧ wordAt s side (body i) = 0x4489 ∧
          markAt s side (body i) = .data (t.cache.trk.read (d - 2)) (t.cache.trk.read (d - 1)) (t.cache.trk.read d) ∧
          (∀ k, k < size + 2 → t.cache.trk.read (d + 1 + k) = mfmByte s side (body i + 64 + 16 * k)) ∧
          last i = body i + 64 + 16 * (size + 2)) ∧
        head i + 160 ≤ last i ∧ ∀ j : Fin 128, i < j → j.val < t.dec.n → last i ≤ head j) ∧
      (t.dec.n < 128 → t.cache.len + 10 ≤ s.cfg.trkCap →
        ∀ q b1 b2, wordAt s side q = 0x4489 → markAt s side q = .id b1 b2 → q + 160 ≤ nbits s →
          ∃ i : Fin 128, i.val < t.dec.n ∧
            (head i = q ∨ (head i < q ∧ q < head i + 160) ∨ (t.cache.dam[i] ≠ none ∧ body i < q ∧ q < last i)))

/-- O41 (R131, R134, R135). DEC.FMTRACK is the loop of its rule: from empty tables, with the place of the pointer table zero,
a run of turns until FMSCAN answers none. A turn captures an ID field with its six bytes, or a data field with the size its ID
field gives, where there is room, and else moves the scan position one bit on. It completes on every stream, within TRK_CAP,
with prefix 0 and the ordering of fields that have no sync bytes; only the cache and the DEC unit change. From the final scan
position on no mark is left. -/
def Obligations.DecodingAnFmTrackCompletesInOrder : Prop :=
  ∀ (side : Bool) (s : State), 256 ≤ s.cfg.trkCap →
    ∃ (c : Cache) (d : DecUnit), exec (.decFmtrack side) s = .next { s with cache := c, dec := d } ∧
      (∃ (trk : Memory) (u : State),
        (∀ a, trk.read a = if a < 256 then 0 else s.cache.trk.read a) ∧
        Relation.ReflTransGen (fmTurned side) (s.decodeStarted side .fm trk) u ∧
        (0 < s.cfg.fmStride → exec (.decFmscan side u.dec.p) u = .next (u.answered (.position none))) ∧
        c = { u.cache with len := u.dec.wp, pfx := 0 } ∧ d = u.dec) ∧
      c.id = s.cache.id ∧ 256 ≤ c.len ∧ c.len ≤ s.cfg.trkCap ∧ d.n ≤ 128 ∧
      (∀ a, a < 256 → c.trk.read a = 0) ∧ (∀ a, c.len ≤ a → c.trk.read a = s.cache.trk.read a) ∧
      (0 < s.cfg.fmStride → ∀ q, d.p ≤ q → q + 16 * s.cfg.fmStride ≤ nbits s →
        fmWordAt s side q ≠ 0xF57E ∧ fmWordAt s side q ≠ 0xF56F ∧ fmWordAt s side q ≠ 0xF56A) ∧
      ∀ i : Fin 128,
        (i.val < d.n → 256 ≤ c.idam[i] ∧ c.idam[i] + 7 ≤ c.len ∧ c.trk.read c.idam[i] = 0xFE ∧
          (∀ x, c.dam[i] = some x → c.idam[i] + 7 ≤ x ∧ x < c.len ∧ (c.trk.read x = 0xFB ∨ c.trk.read x = 0xF8)) ∧
          ∀ j : Fin 128, i.val + 1 = j.val → j.val < d.n →
            c.idam[i] < c.idam[j] ∧ ∀ x, c.dam[i] = some x → x < c.idam[j]) ∧
        (d.n ≤ i.val → c.idam[i] = 0 ∧ c.dam[i] = none)

/-- O42 (R137, R138, R139). Read-back symmetry: what the reference encoders put out decodes to the byte they were given, for
every previous bit, skip mask and clock byte, and for both FM strides. -/
def Obligations.EncodedBytesReadBack : Prop :=
  (∀ (prev : Bool) (b skip : Byte), mfmData (windowOf (mfmEncode prev b skip)) = b) ∧
  ∀ (stride : Nat) (b clock : Byte), stride = 1 ∨ stride = 2 →
    (fmEncode stride b clock).length = 16 * stride ∧
    mfmData (window fun j => (fmEncode stride b clock).getD (j * stride) false) = b ∧
    mfmClock (window fun j => (fmEncode stride b clock).getD (j * stride) false) = clock

/-! ## The SCAN unit -/

/-- O43 (R56, R140). SCAN.DMK_OFFSET answers the exact offset of a DMK record; for a drive that is not a DMK drive the rule
states no result and the operation completes with one about which nothing is claimed (log 6). -/
def Obligations.DmkOffsetIsExact : Prop :=
  ∀ (d : Fin 4) (track : Byte) (side : Bool) (s : State),
    (s.drives[d].format = .dmk →
      exec (.scanDmkOffset d track side) s = .next (s.answered (.nat (s.drives[d].recordAt track side)))) ∧
    (s.drives[d].format ≠ .dmk →
      ∃ n : Nat, exec (.scanDmkOffset d track side) s = .next (State.answered { s with draws := s.draws + 1 } (.nat n)))

/-- O44 (R36, R37, R56, R141, R252). SCAN.LOAD on a DMK drive copies the whole record into TRK, fills the tables and names the
track; without the drive, the track, the side, one or two sides (log 34) or a usable length, or when STORAGE does not answer
for the record (log 9), it fails and leaves the cache nameless with empty tables. -/
def Obligations.LoadCopiesTheDmkRecord : Prop :=
  ∀ (d : Fin 4) (side : Bool) (track : Byte) (s : State), s.drives[d].format ≠ .hfe →
    let v := s.drives[d]
    let f := s.env.files.getD v.handle Image.missing
    let off := v.recordAt track side
    let good := s.recordExists d track side ∧ f.down = false ∧ off + v.trackLength ≤ f.size
    (¬good → exec (.scanLoad d side track) s = .next (s.cacheForgotten.answered (.loaded false))) ∧
    (good → ∃ c : Cache,
      exec (.scanLoad d side track) s = .next (State.answered
        { s with cache := c, events := .imgRead v.handle off v.trackLength :: s.events } (.loaded true)) ∧
      c.id = some ⟨d, side, track⟩ ∧ c.len = v.trackLength ∧ c.pfx = 3 ∧ c.tablesOfPointers ∧
      ∀ a, c.trk.read a = if a < v.trackLength then f.bytes.read (off + a) else s.cache.trk.read a)

/-- O45 (R42, R136, R141, R252). SCAN.LOAD on an HFE drive reads the track block that the look-up entry names, decodes the side
in the drive's mode, drops the block and names the track; a track beyond the last or a failing STORAGE fails, a missing or
impossible entry is refused (log 18). The dropping of the block and the order of the tests are the model's choice (log 22): a
failing STORAGE answers Fail even where the entry lies outside the image, and a missing entry is refused even while STORAGE
fails. That STORAGE answers for a range inside the file is the model's too (log 9). -/
def Obligations.LoadDecodesTheHfeTrack : Prop :=
  ∀ (d : Fin 4) (side : Bool) (track : Byte) (s : State), s.drives[d].format = .hfe →
    let v := s.drives[d]
    let f := s.env.files.getD v.handle Image.missing
    let fails := exec (.scanLoad d side track) s = .next (s.cacheForgotten.answered (.loaded false))
    (v.tracks ≤ track.toNat → fails) ∧
    (track.toNat < v.tracks → v.lut[track.toNat]? = none → exec (.scanLoad d side track) s = .refused .malformedLut) ∧
    (∀ blk len, track.toNat < v.tracks → v.lut[track.toNat]? = some (blk, len) →
      (f.down = true → fails) ∧
      (f.down = false → ¬blk * 512 + len ≤ f.size → exec (.scanLoad d side track) s = .refused .malformedLut) ∧
      (f.down = false → blk * 512 + len ≤ f.size → ∃ (fl : Memory) (u : State),
        (∀ a, fl.read a = if a < len then f.bytes.read (blk * 512 + a) else 0) ∧
        exec (if v.encoding = .mfm then .decTrack side else .decFmtrack side)
          { s.cacheForgotten with
            flux := fl, fluxLen := len, events := .imgRead v.handle (blk * 512) len :: s.events } = .next u ∧
        exec (.scanLoad d side track) s = .next (State.answered
          { u with flux := [], fluxLen := 0, cache := { u.cache with id := some ⟨d, side, track⟩ } } (.loaded true))))

/-- O46 (R141, R142, R252). SCAN.ENSURE does not load a track that is cached and loads any other. Where the image can be read,
which is the model's reading of the storage (log 9) and of the look-up table (log 18, with the order of its tests, log 22), the
load completes and changes only the cache, the DEC unit, the flux block and the traffic; after success the cache names the track
and its tables fit, after failure it is nameless and empty; where it cannot be read, an HFE drive's malformed look-up table, it
is refused. -/
def Obligations.EnsureLoadsOnlyOnMismatch : Prop :=
  ∀ (d : Fin 4) (side : Bool) (track : Byte) (s : State),
    (s.cache.id = some ⟨d, side, track⟩ → exec (.scanEnsure d side track) s = .next (s.answered (.loaded true))) ∧
    (s.cache.id ≠ some ⟨d, side, track⟩ → exec (.scanEnsure d side track) s = exec (.scanLoad d side track) s) ∧
    (loadable s d track = true → ∃ (ok : Bool) (u : State),
      exec (.scanLoad d side track) s = .next (u.answered (.loaded ok)) ∧
      u = { s with cache := u.cache, dec := u.dec, flux := u.flux, fluxLen := u.fluxLen, events := u.events } ∧
      (ok = true → u.cache.id = some ⟨d, side, track⟩ ∧ u.cache.tablesFit = true) ∧
      (ok = false → u.cache.id = none ∧ ∀ i : Fin 128, u.cache.idam[i] = 0 ∧ u.cache.dam[i] = none)) ∧
    (loadable s d track = false → exec (.scanLoad d side track) s = .refused .malformedLut)

/-- O47 (R52, R143, R144, R145). SCAN.DMK_TABLES fills the two tables slot by slot from the pointer table; SCAN.DAMLOOKUP
answers the first data mark from its origin on, or none before the end of the track; that the origin may be any offset is the
model's choice (log 35). A track shorter than the pointer table is refused (log 18, from R52 and U3). -/
def Obligations.DmkTablesFollowThePointers : Prop :=
  (∀ s : State, 256 ≤ s.cache.len → ∃ a b,
    exec .scanDmkTables s = .next { s with cache := { s.cache with idam := a, dam := b } } ∧
    Cache.tablesOfPointers { s.cache with idam := a, dam := b }) ∧
  (∀ s : State, s.cache.len < 256 → exec .scanDmkTables s = .refused .outOfBounds) ∧
  ∀ (o : Nat) (s : State), ∃ r,
    exec (.scanDamlookup o) s = .next (s.answered (.position r)) ∧ s.cache.firstDataMark o r

/-- O48 (R52, R147, R148, R150). SCAN.FIND answers the lowest slot that names the track, side and sector, SCAN.FIRSTIDAM the
lowest used slot, or none; SCAN.VIEW answers none without a data mark or when the field does not fit in the track, else the
size, the offset of the data and the mark. They change nothing. That SCAN.FIND takes any side byte and SCAN.VIEW an empty slot
is the model's choice (log 35). SCAN.VIEW of a slot whose size code lies beyond TRKLEN is refused (log 18, from R52 and U3). -/
def Obligations.LookupsAndViewOfASector : Prop :=
  (∀ (track side sector : Byte) (s : State), (∀ i : Fin 128, s.cache.idam[i] ≠ 0 → s.cache.idam[i] + 3 < s.cache.len) →
    ∃ r, exec (.scanFind track side sector) s = .next (s.answered (.slot r)) ∧
      (∀ i, r = some i → s.cache.slotNames track side sector i ∧ ∀ j < i, ¬s.cache.slotNames track side sector j) ∧
      (r = none → ∀ j, ¬s.cache.slotNames track side sector j)) ∧
  (∀ s : State, ∃ r, exec .scanFirstidam s = .next (s.answered (.slot r)) ∧
    (∀ i, r = some i → s.cache.idam[i] ≠ 0 ∧ ∀ j < i, s.cache.idam[j] = 0) ∧
    (r = none → ∀ j : Fin 128, s.cache.idam[j] = 0)) ∧
  ∀ (i : Fin 128) (s : State),
    let size := 128 * 2 ^ ((s.cache.trk.read (s.cache.idam[i] + 4)).toNat % 4)
    (s.cache.dam[i] = none → exec (.scanView i) s = .next (s.answered (.view none))) ∧
    (∀ d, s.cache.dam[i] = some d → s.cache.idam[i] + 4 < s.cache.len →
      (d < 256 + s.cache.pfx ∨ s.cache.len < d + 1 + size + 2 → exec (.scanView i) s = .next (s.answered (.view none))) ∧
      (256 + s.cache.pfx ≤ d ∧ d + 1 + size + 2 ≤ s.cache.len →
        exec (.scanView i) s = .next (s.answered (.view (some ⟨size, d + 1, s.cache.trk.read d⟩))))) ∧
    (∀ d, s.cache.dam[i] = some d → s.cache.len ≤ s.cache.idam[i] + 4 → exec (.scanView i) s = .refused .outOfBounds)

/-- O49 (R150, R151, R152, R153). SCAN.IDCRC_CHECK and SCAN.DATACRC_CHECK compare the checksum of the field, its sync bytes
included, with the two bytes stored after it, and leave that checksum in the register. That SCAN.DATACRC_CHECK and
SCAN.DATACRC_GEN are refused on a slot without a view is the model's choice (log 36), and so is that an empty slot is put to the
same tests (log 35). -/
def Obligations.FieldChecksCompareTheStoredBytes : Prop :=
  (∀ (i : Fin 128) (s : State), let o := s.cache.idam[i]
    s.cache.pfx ≤ o → o + 6 < s.cache.len →
    let c := crcOf (s.cache.bytes (o - s.cache.pfx) (s.cache.pfx + 5))
    exec (.scanIdcrcCheck i) s = .next (State.answered { s with crc := c }
      (.bool (decide (c = s.cache.trk.read (o + 5) ++ s.cache.trk.read (o + 6)))))) ∧
  ∀ (i : Fin 128) (s : State),
    let size := 128 * 2 ^ ((s.cache.trk.read (s.cache.idam[i] + 4)).toNat % 4)
    let noView := exec (.scanDatacrcCheck i) s = .refused .noSectorView ∧ exec (.scanDatacrcGen i) s = .refused .noSectorView
    (s.cache.dam[i] = none → noView) ∧
    ∀ d, s.cache.dam[i] = some d → s.cache.idam[i] + 4 < s.cache.len →
      (d < 256 + s.cache.pfx ∨ s.cache.len < d + 1 + size + 2 → noView) ∧
      (256 + s.cache.pfx ≤ d → d + 1 + size + 2 ≤ s.cache.len →
        let c := crcOf (s.cache.bytes (d - s.cache.pfx) (s.cache.pfx + 1 + size))
        exec (.scanDatacrcCheck i) s = .next (State.answered { s with crc := c }
          (.bool (decide (c = s.cache.trk.read (d + 1 + size) ++ s.cache.trk.read (d + 2 + size))))))

/-- O50 (R153, R154). SCAN.DATACRC_GEN stores the checksum of a data field in the two bytes after the payload and changes
nothing else of the track, so that the check that follows succeeds. The slot's ID field lies before its data mark, as every load
leaves it. That an empty slot with a data mark, which no load leaves, is treated alike is the model's choice (log 35). -/
def Obligations.GeneratedChecksumPassesTheCheck : Prop :=
  ∀ (i : Fin 128) (s : State) (d : Nat), s.cache.dam[i] = some d → s.cache.idam[i] ≤ d → s.cache.idam[i] + 4 < s.cache.len →
    let size := 128 * 2 ^ ((s.cache.trk.read (s.cache.idam[i] + 4)).toNat % 4)
    256 + s.cache.pfx ≤ d → d + 1 + size + 2 ≤ s.cache.len →
    let c := crcOf (s.cache.bytes (d - s.cache.pfx) (s.cache.pfx + 1 + size))
    ∃ trk : Memory, let t := { s with crc := c, cache := { s.cache with trk := trk } }
      exec (.scanDatacrcGen i) s = .next t ∧
      trk.read (d + 1 + size) ++ trk.read (d + 2 + size) = c ∧
      agreeOutside s.cache.trk trk (d + 1 + size) 2 ∧
      exec (.scanDatacrcCheck i) t = .next (t.answered (.bool true))

/-- O51 (R99, R155). SCAN.WT_RESOLVE completes for a cached track of a double-density DMK drive and changes only bytes from
256 to the end of the track. Whatever the raw stream, the bytes from 256 on are what the sentinels resolve to, 0xF5 to a sync
byte that presets the CRC once a run, 0xF6 to 0xC2, 0xF7 to the two bytes of the CRC and a preset, any other byte to itself,
cut at TRKLEN; what they do not reach stays, and if nothing is cut the register is left as the stream leaves it. A stream that
is one field comes out as sync bytes, mark, payload and the checksum the checks expect. For any other drive it is refused. -/
def Obligations.ResolvedFieldsCarryTheirChecksum : Prop :=
  (∀ (m : Nat) (s : State), ¬(∃ t, s.cache.id = some t ∧ s.drives[t.drive].format = .dmk ∧
      s.drives[t.drive].singleDensity = false) → exec (.scanWtResolve m) s = .refused .notDoubleDensityDmk) ∧
  ∀ (m : Nat) (s : State) (t : TrackId), s.cache.id = some t → s.drives[t.drive].format = .dmk →
    s.drives[t.drive].singleDensity = false → m ≤ s.cache.len → m ≤ s.cfg.trkCap → ∃ (trk : Memory) (c : Word16),
      exec (.scanWtResolve m) s = .next { s with crc := c, cache := { s.cache with trk := trk } } ∧
      (∀ a, a < 256 ∨ s.cache.len ≤ a → trk.read a = s.cache.trk.read a) ∧
      (∀ raw : List Byte, raw.length = m → readsAs s.stage 0 raw →
        let out := resolved 0xFFFF false raw
        stored s.cache.trk trk 256 (out.1.take (s.cache.len - 256)) ∧ (256 + out.1.length ≤ s.cache.len → c = out.2)) ∧
      ∀ (mark : Byte) (payload : List Byte), (∀ b ∈ mark :: payload, b ≠ 0xF5 ∧ b ≠ 0xF6 ∧ b ≠ 0xF7) →
        m = payload.length + 5 → readsAs s.stage 0 ([0xF5, 0xF5, 0xF5, mark] ++ payload ++ [0xF7]) →
        256 + payload.length + 6 ≤ s.cache.len →
        readsAs trk 256 ([0xA1, 0xA1, 0xA1, mark] ++ payload) ∧
        trk.read (260 + payload.length) ++ trk.read (261 + payload.length) = crcOf ([0xA1, 0xA1, 0xA1, mark] ++ payload)

/-- O52 (R52, R156). SCAN.WT_REBUILD: the pointer table names the first 128 ID marks of the track body in order, with the
drive's density tag, and zero after them; the two tables follow it; the track body stays. A track shorter than 256 bytes is
refused (log 18, from R52 and U3). -/
def Obligations.RebuiltTableNamesTheIdMarks : Prop :=
  ∀ (d : Fin 4) (s : State),
    (256 ≤ s.cache.len → ∃ c : Cache,
      exec (.scanWtRebuild d) s = .next { s with cache := c } ∧
      c.id = s.cache.id ∧ c.len = s.cache.len ∧ c.pfx = s.cache.pfx ∧ c.tablesOfPointers ∧
      (∀ a, 256 ≤ a → c.trk.read a = s.cache.trk.read a) ∧
      ∀ k : Fin 128,
        (c.trk.read (2 * k.val)).toNat + 256 * (c.trk.read (2 * k.val + 1)).toNat =
          match s.cache.idFieldOffsets[k.val]? with
          | none => 0
          | some o => (if s.drives[d].singleDensity = true then o else o ||| 0x8000) % 65536) ∧
    (s.cache.len < 256 → exec (.scanWtRebuild d) s = .refused .outOfBounds)

/-- O53 (R56, R157, R260). SCAN.FLUSH puts the whole cached record at its place in the image and nothing anywhere else; a file
that ends before it grows to hold it (log 9). On an HFE drive, or with no track named (the model's choice, log 36), it is
refused. A failing STORAGE or an unmounted drive changes nothing (log 19). -/
def Obligations.FlushWritesTheWholeRecord : Prop :=
  (∀ s : State, s.cache.id = none → exec .scanFlush s = .refused .nothingCached) ∧
  ∀ (s : State) (t : TrackId), s.cache.id = some t →
    let v := s.drives[t.drive]
    let f := s.env.files.getD v.handle Image.missing
    let off := v.recordAt t.track t.side
    (v.format = .hfe → exec .scanFlush s = .refused .needsFluxEncoder) ∧
    (v.format = .none ∨ (v.format = .dmk ∧ f.down = true) → exec .scanFlush s = .next s) ∧
    (v.format = .dmk → f.down = false → ∃ (files : List Image) (g : Image),
      exec .scanFlush s = .next
        { s with env := { s.env with files := files }, events := .imgWrite v.handle off s.cache.len :: s.events } ∧
      files[v.handle]? = some g ∧ g.down = false ∧ g.size = max f.size (off + s.cache.len) ∧
      (∀ a, g.bytes.read a = if off ≤ a ∧ a < off + s.cache.len then s.cache.trk.read (a - off) else f.bytes.read a) ∧
      ∀ h, h ≠ v.handle → files[h]? = s.env.files[h]?)

/-- O54 (R56, R140, R141, R157). A DMK track written back and loaded again reads the same in every byte, and the record of
every other track and side of the image reads as before. For a file that ended before the record this rests on log 9: a write
grows the file. -/
def Obligations.FlushedTrackLoadsBack : Prop :=
  ∀ (s : State) (d : Fin 4) (side : Bool) (track : Byte), s.cache.id = some ⟨d, side, track⟩ → s.recordExists d track side →
    let v := s.drives[d]
    let f := s.env.files.getD v.handle Image.missing
    s.cache.len = v.trackLength → f.down = false →
    ∃ t u : State, exec .scanFlush s = .next t ∧ exec (.scanLoad d side track) t = .next (u.answered (.loaded true)) ∧
      u.cache.id = s.cache.id ∧ u.cache.len = s.cache.len ∧
      (∀ a, a < s.cache.len → u.cache.trk.read a = s.cache.trk.read a) ∧
      ∀ (track' : Byte) (side' : Bool), s.recordExists d track' side' → (track' ≠ track ∨ side' ≠ side) →
        ∀ a, a < v.trackLength →
          (t.env.files.getD v.handle Image.missing).bytes.read (v.recordAt track' side' + a) =
            f.bytes.read (v.recordAt track' side' + a)

/-- O55 (R158). Format independence: two machines with the same track cache get the same answer from SCAN.FIND,
SCAN.FIRSTIDAM, SCAN.VIEW and the two checks, and the same generated checksum, whatever their drives and everything else. -/
def Obligations.LookupsReadOnlyTheCache : Prop :=
  ∀ (i : Instr) (s s' : State), s.cache = s'.cache →
    (∃ t sd sec n, i = .scanFind t sd sec ∨ i = .scanFirstidam ∨ i = .scanView n ∨ i = .scanIdcrcCheck n ∨
      i = .scanDatacrcCheck n ∨ i = .scanDatacrcGen n) →
    (∀ r, exec i s = .refused r ↔ exec i s' = .refused r) ∧
    ∀ t t', exec i s = .next t → exec i s' = .next t' →
      t.cache = t'.cache ∧ (t.crc = t'.crc ∨ t.crc = s.crc ∧ t'.crc = s'.crc) ∧
      (∀ e, t.events = e :: s.events → t'.events = e :: s'.events)

/-! ## Reset and invariants -/

/-- O56 (R245, R250). RESET, once the reset line has been held long enough, leaves every register, latch, flag and table as
the rule says and the drives as the boot configuration gives them, without an interrupt; held for less it has no effect. What
the reset table leaves unspecified (CRC, the DEC state, the place of XFER, TRK, STAGE) stands unconstrained. That RESET drops
a waiting step delay (log 16) and an outstanding SVC.REQ (log 17), and that a stretched cycle (log 21) and HOSTX's memory (log
21, log 23) stay, is the model's reading. The state at power-on is one RESET leaves. -/
def Obligations.ResetReinitialisesTheState : Prop :=
  (∀ s : State,
    (s.env.resetLine = true → s.cfg.resetHoldUs ≤ s.env.resetHeldUs →
      ∃ (c : Word16) (d : DecUnit) (sp : Space) (base : Nat) (trk stage : Memory),
        exec .reset s = .next
          { s with
            command := 0, track := 0, sector := 0, data := 0, flags := Flags.clear, nmiStatus := s.cfg.nmiIdle
            cmdType := .typeI, drvSel := 0, drvSelBackup := 0, ien := 0, nmiMask := 0, waitOut := false, cmdRecv := false
            svcTag := .none, svcSub := 0, timerUs := 0, motorUs := 0, xfer := ⟨sp, base, 0, 0, none⟩, dir := s.cfg.resetDir
            cache := ⟨none, trk, 0, 3, emptyIdam, emptyDam⟩, drives := s.env.boot, crc := c, dec := d, stage := stage
            stepWait := none, svcReq := false }) ∧
    (s.env.resetLine = false ∨ s.env.resetHeldUs < s.cfg.resetHoldUs → exec .reset s = .next s)) ∧
  ∀ us : Nat, State.reset.cfg.resetHoldUs ≤ us →
    let held := { State.reset with env := { State.reset.env with resetLine := true, resetHeldUs := us } }
    exec .reset held = .next held

/-- O57 (R245, R251, R167, R32, R37). The state right after reset has the values of the reset table, whatever the open
parameters; its status byte reads as the table gives; and it meets the invariants below. Its parameters are the model's (log
1). -/
def Obligations.ResetStateMeetsTheTable : Prop :=
  let r := State.reset
  (r.command = 0 ∧ r.track = 0 ∧ r.sector = 0 ∧ r.data = 0 ∧ r.flags = Flags.clear ∧ r.cmdType = .typeI ∧ r.drvSel = 0 ∧
    r.drvSelBackup = 0 ∧ r.ien = 0 ∧ r.nmiMask = 0 ∧ r.nmiStatus = r.cfg.nmiIdle ∧ r.waitOut = false ∧ r.cmdRecv = false) ∧
  (r.svcTag = .none ∧ r.svcSub = 0 ∧ r.timerUs = 0 ∧ r.motorUs = 0 ∧ r.xfer.len = 0 ∧ r.xfer.cur = 0 ∧ r.xfer.slot = none ∧
    r.dir = r.cfg.resetDir ∧ r.cache.id = none ∧ r.cache.len = 0 ∧ r.cache.pfx = 3 ∧
    (∀ i : Fin 128, r.cache.idam[i] = 0 ∧ r.cache.dam[i] = none) ∧ r.drives = r.env.boot) ∧
  (∀ (c : Config) (x : Bool), statusByte { r with cfg := c, env := { r.env with indexIn := x } } =
    0x84 ||| (BitVec.ofBool c.hldStatus).setWidth 8 <<< 5 ||| (BitVec.ofBool x).setWidth 8 <<< 1) ∧
  r.cfg.wf = true ∧ r.memoriesCanonical = true ∧ r.latchShowsRequest = true ∧ r.cursorInRange = true ∧ r.trackFits = true

/-- O58 (20_memory.md). Every step of every agent keeps every byte memory, the images included, in its canonical form, so that
equal memories are equal data. -/
def Obligations.StepKeepsMemoriesCanonical : Prop :=
  ∀ s t : State, s.memoriesCanonical = true → step s = .next t → t.memoriesCanonical = true

/-- O59 (R27, R167). Every step of every agent keeps the NMI status latch at its interrupt pattern exactly while an interrupt
is pending. -/
def Obligations.StepKeepsTheLatchShowingTheRequest : Prop :=
  ∀ s t : State, s.latchShowsRequest = true → step s = .next t → t.latchShowsRequest = true

/-- O60 (R32, R37, R128, R131, R135). Every step of every agent keeps the transfer cursor within the transfer, the track
within TRK_CAP, the prefix 0 or 3 and the DEC unit's counters within the table and the buffer; and no step writes the
parameters. -/
def Obligations.StepKeepsTransferAndTrackInBounds : Prop :=
  ∀ s t : State, s.cfg.wf = true → s.cursorInRange = true → s.trackFits = true → step s = .next t →
    t.cfg = s.cfg ∧ t.cursorInRange = true ∧ t.trackFits = true
end

