-- ==== Sys2Proof/Laws/State.lean ====
section
/-! SUPPORT. What each shared update leaves in each field of the state. -/

namespace Sys2Proof.Machine

/-! ## An event -/

@[simp] theorem State.emit_cfg (s : State) (e : Event) : (s.emit e).cfg = s.cfg := rfl
@[simp] theorem State.emit_command (s : State) (e : Event) : (s.emit e).command = s.command := rfl
@[simp] theorem State.emit_track (s : State) (e : Event) : (s.emit e).track = s.track := rfl
@[simp] theorem State.emit_sector (s : State) (e : Event) : (s.emit e).sector = s.sector := rfl
@[simp] theorem State.emit_data (s : State) (e : Event) : (s.emit e).data = s.data := rfl
@[simp] theorem State.emit_flags (s : State) (e : Event) : (s.emit e).flags = s.flags := rfl
@[simp] theorem State.emit_cmdType (s : State) (e : Event) : (s.emit e).cmdType = s.cmdType := rfl
@[simp] theorem State.emit_drvSel (s : State) (e : Event) : (s.emit e).drvSel = s.drvSel := rfl
@[simp] theorem State.emit_drvSelBackup (s : State) (e : Event) : (s.emit e).drvSelBackup = s.drvSelBackup := rfl
@[simp] theorem State.emit_ien (s : State) (e : Event) : (s.emit e).ien = s.ien := rfl
@[simp] theorem State.emit_nmiMask (s : State) (e : Event) : (s.emit e).nmiMask = s.nmiMask := rfl
@[simp] theorem State.emit_nmiStatus (s : State) (e : Event) : (s.emit e).nmiStatus = s.nmiStatus := rfl
@[simp] theorem State.emit_waitOut (s : State) (e : Event) : (s.emit e).waitOut = s.waitOut := rfl
@[simp] theorem State.emit_cmdRecv (s : State) (e : Event) : (s.emit e).cmdRecv = s.cmdRecv := rfl
@[simp] theorem State.emit_svcTag (s : State) (e : Event) : (s.emit e).svcTag = s.svcTag := rfl
@[simp] theorem State.emit_svcSub (s : State) (e : Event) : (s.emit e).svcSub = s.svcSub := rfl
@[simp] theorem State.emit_timerUs (s : State) (e : Event) : (s.emit e).timerUs = s.timerUs := rfl
@[simp] theorem State.emit_motorUs (s : State) (e : Event) : (s.emit e).motorUs = s.motorUs := rfl
@[simp] theorem State.emit_xfer (s : State) (e : Event) : (s.emit e).xfer = s.xfer := rfl
@[simp] theorem State.emit_dir (s : State) (e : Event) : (s.emit e).dir = s.dir := rfl
@[simp] theorem State.emit_crc (s : State) (e : Event) : (s.emit e).crc = s.crc := rfl
@[simp] theorem State.emit_dec (s : State) (e : Event) : (s.emit e).dec = s.dec := rfl
@[simp] theorem State.emit_drives (s : State) (e : Event) : (s.emit e).drives = s.drives := rfl
@[simp] theorem State.emit_cache (s : State) (e : Event) : (s.emit e).cache = s.cache := rfl
@[simp] theorem State.emit_stage (s : State) (e : Event) : (s.emit e).stage = s.stage := rfl
@[simp] theorem State.emit_hxMem (s : State) (e : Event) : (s.emit e).hxMem = s.hxMem := rfl
@[simp] theorem State.emit_flux (s : State) (e : Event) : (s.emit e).flux = s.flux := rfl
@[simp] theorem State.emit_fluxLen (s : State) (e : Event) : (s.emit e).fluxLen = s.fluxLen := rfl
@[simp] theorem State.emit_stretched (s : State) (e : Event) : (s.emit e).stretched = s.stretched := rfl
@[simp] theorem State.emit_stepWait (s : State) (e : Event) : (s.emit e).stepWait = s.stepWait := rfl
@[simp] theorem State.emit_svcReq (s : State) (e : Event) : (s.emit e).svcReq = s.svcReq := rfl
@[simp] theorem State.emit_env (s : State) (e : Event) : (s.emit e).env = s.env := rfl
@[simp] theorem State.emit_inputs (s : State) (e : Event) : (s.emit e).inputs = s.inputs := rfl
@[simp] theorem State.emit_events (s : State) (e : Event) : (s.emit e).events = e :: s.events := rfl
@[simp] theorem State.emit_draws (s : State) (e : Event) : (s.emit e).draws = s.draws := rfl

/-! ## A condition (rule R215) -/

@[simp] theorem State.raise_cfg (s : State) (c : Cond) : (s.raise c).cfg = s.cfg := by cases c <;> rfl
@[simp] theorem State.raise_command (s : State) (c : Cond) : (s.raise c).command = s.command := by cases c <;> rfl
@[simp] theorem State.raise_track (s : State) (c : Cond) : (s.raise c).track = s.track := by cases c <;> rfl
@[simp] theorem State.raise_sector (s : State) (c : Cond) : (s.raise c).sector = s.sector := by cases c <;> rfl
@[simp] theorem State.raise_data (s : State) (c : Cond) : (s.raise c).data = s.data := by cases c <;> rfl
@[simp] theorem State.raise_cmdType (s : State) (c : Cond) : (s.raise c).cmdType = s.cmdType := by cases c <;> rfl
@[simp] theorem State.raise_drvSel (s : State) (c : Cond) : (s.raise c).drvSel = s.drvSel := by cases c <;> rfl
@[simp] theorem State.raise_drvSelBackup (s : State) (c : Cond) :
    (s.raise c).drvSelBackup = s.drvSelBackup := by cases c <;> rfl
@[simp] theorem State.raise_ien (s : State) (c : Cond) : (s.raise c).ien = s.ien := by cases c <;> rfl
@[simp] theorem State.raise_nmiMask (s : State) (c : Cond) : (s.raise c).nmiMask = s.nmiMask := by cases c <;> rfl
@[simp] theorem State.raise_nmiStatus (s : State) (c : Cond) : (s.raise c).nmiStatus = s.nmiStatus := by cases c <;> rfl
@[simp] theorem State.raise_waitOut (s : State) (c : Cond) : (s.raise c).waitOut = s.waitOut := by cases c <;> rfl
@[simp] theorem State.raise_cmdRecv (s : State) (c : Cond) : (s.raise c).cmdRecv = s.cmdRecv := by cases c <;> rfl
@[simp] theorem State.raise_svcTag (s : State) (c : Cond) : (s.raise c).svcTag = s.svcTag := by cases c <;> rfl
@[simp] theorem State.raise_svcSub (s : State) (c : Cond) : (s.raise c).svcSub = s.svcSub := by cases c <;> rfl
@[simp] theorem State.raise_timerUs (s : State) (c : Cond) : (s.raise c).timerUs = s.timerUs := by cases c <;> rfl
@[simp] theorem State.raise_motorUs (s : State) (c : Cond) : (s.raise c).motorUs = s.motorUs := by cases c <;> rfl
@[simp] theorem State.raise_xfer (s : State) (c : Cond) : (s.raise c).xfer = s.xfer := by cases c <;> rfl
@[simp] theorem State.raise_dir (s : State) (c : Cond) : (s.raise c).dir = s.dir := by cases c <;> rfl
@[simp] theorem State.raise_crc (s : State) (c : Cond) : (s.raise c).crc = s.crc := by cases c <;> rfl
@[simp] theorem State.raise_dec (s : State) (c : Cond) : (s.raise c).dec = s.dec := by cases c <;> rfl
@[simp] theorem State.raise_drives (s : State) (c : Cond) : (s.raise c).drives = s.drives := by cases c <;> rfl
@[simp] theorem State.raise_cache (s : State) (c : Cond) : (s.raise c).cache = s.cache := by cases c <;> rfl
@[simp] theorem State.raise_stage (s : State) (c : Cond) : (s.raise c).stage = s.stage := by cases c <;> rfl
@[simp] theorem State.raise_hxMem (s : State) (c : Cond) : (s.raise c).hxMem = s.hxMem := by cases c <;> rfl
@[simp] theorem State.raise_flux (s : State) (c : Cond) : (s.raise c).flux = s.flux := by cases c <;> rfl
@[simp] theorem State.raise_fluxLen (s : State) (c : Cond) : (s.raise c).fluxLen = s.fluxLen := by cases c <;> rfl
@[simp] theorem State.raise_stretched (s : State) (c : Cond) : (s.raise c).stretched = s.stretched := by cases c <;> rfl
@[simp] theorem State.raise_stepWait (s : State) (c : Cond) : (s.raise c).stepWait = s.stepWait := by cases c <;> rfl
@[simp] theorem State.raise_svcReq (s : State) (c : Cond) : (s.raise c).svcReq = s.svcReq := by cases c <;> rfl
@[simp] theorem State.raise_env (s : State) (c : Cond) : (s.raise c).env = s.env := by cases c <;> rfl
@[simp] theorem State.raise_inputs (s : State) (c : Cond) : (s.raise c).inputs = s.inputs := by cases c <;> rfl
@[simp] theorem State.raise_events (s : State) (c : Cond) : (s.raise c).events = s.events := by cases c <;> rfl
@[simp] theorem State.raise_draws (s : State) (c : Cond) : (s.raise c).draws = s.draws := by cases c <;> rfl

/-! ## The interrupt (rule R226) -/

@[simp] theorem generateInterrupt_cfg (s : State) : (generateInterrupt s).cfg = s.cfg := rfl
@[simp] theorem generateInterrupt_command (s : State) : (generateInterrupt s).command = s.command := rfl
@[simp] theorem generateInterrupt_track (s : State) : (generateInterrupt s).track = s.track := rfl
@[simp] theorem generateInterrupt_sector (s : State) : (generateInterrupt s).sector = s.sector := rfl
@[simp] theorem generateInterrupt_data (s : State) : (generateInterrupt s).data = s.data := rfl
@[simp] theorem generateInterrupt_flags (s : State) : (generateInterrupt s).flags = { s.flags with intrq := true } := rfl
@[simp] theorem generateInterrupt_cmdType (s : State) : (generateInterrupt s).cmdType = s.cmdType := rfl
@[simp] theorem generateInterrupt_drvSel (s : State) : (generateInterrupt s).drvSel = s.drvSel := rfl
@[simp] theorem generateInterrupt_drvSelBackup (s : State) : (generateInterrupt s).drvSelBackup = s.drvSelBackup := rfl
@[simp] theorem generateInterrupt_ien (s : State) : (generateInterrupt s).ien = s.ien := rfl
@[simp] theorem generateInterrupt_nmiMask (s : State) : (generateInterrupt s).nmiMask = s.nmiMask := rfl
@[simp] theorem generateInterrupt_nmiStatus (s : State) : (generateInterrupt s).nmiStatus = s.cfg.nmiIntrq := rfl
@[simp] theorem generateInterrupt_waitOut (s : State) : (generateInterrupt s).waitOut = s.waitOut := rfl
@[simp] theorem generateInterrupt_cmdRecv (s : State) : (generateInterrupt s).cmdRecv = s.cmdRecv := rfl
@[simp] theorem generateInterrupt_svcTag (s : State) : (generateInterrupt s).svcTag = s.svcTag := rfl
@[simp] theorem generateInterrupt_svcSub (s : State) : (generateInterrupt s).svcSub = s.svcSub := rfl
@[simp] theorem generateInterrupt_timerUs (s : State) : (generateInterrupt s).timerUs = s.timerUs := rfl
@[simp] theorem generateInterrupt_motorUs (s : State) : (generateInterrupt s).motorUs = s.motorUs := rfl
@[simp] theorem generateInterrupt_xfer (s : State) : (generateInterrupt s).xfer = s.xfer := rfl
@[simp] theorem generateInterrupt_dir (s : State) : (generateInterrupt s).dir = s.dir := rfl
@[simp] theorem generateInterrupt_crc (s : State) : (generateInterrupt s).crc = s.crc := rfl
@[simp] theorem generateInterrupt_dec (s : State) : (generateInterrupt s).dec = s.dec := rfl
@[simp] theorem generateInterrupt_drives (s : State) : (generateInterrupt s).drives = s.drives := rfl
@[simp] theorem generateInterrupt_cache (s : State) : (generateInterrupt s).cache = s.cache := rfl
@[simp] theorem generateInterrupt_stage (s : State) : (generateInterrupt s).stage = s.stage := rfl
@[simp] theorem generateInterrupt_hxMem (s : State) : (generateInterrupt s).hxMem = s.hxMem := rfl
@[simp] theorem generateInterrupt_flux (s : State) : (generateInterrupt s).flux = s.flux := rfl
@[simp] theorem generateInterrupt_fluxLen (s : State) : (generateInterrupt s).fluxLen = s.fluxLen := rfl
@[simp] theorem generateInterrupt_stretched (s : State) : (generateInterrupt s).stretched = s.stretched := rfl
@[simp] theorem generateInterrupt_stepWait (s : State) : (generateInterrupt s).stepWait = s.stepWait := rfl
@[simp] theorem generateInterrupt_svcReq (s : State) : (generateInterrupt s).svcReq = s.svcReq := rfl
@[simp] theorem generateInterrupt_env (s : State) : (generateInterrupt s).env = s.env := rfl
@[simp] theorem generateInterrupt_inputs (s : State) : (generateInterrupt s).inputs = s.inputs := rfl
@[simp] theorem generateInterrupt_events (s : State) : (generateInterrupt s).events = .intrPulse :: s.events := rfl
@[simp] theorem generateInterrupt_draws (s : State) : (generateInterrupt s).draws = s.draws := rfl

/-! ## Completion (rule R227) -/

@[simp] theorem complete_cfg (s : State) : (complete s).cfg = s.cfg := rfl
@[simp] theorem complete_command (s : State) : (complete s).command = s.command := rfl
@[simp] theorem complete_track (s : State) : (complete s).track = s.track := rfl
@[simp] theorem complete_sector (s : State) : (complete s).sector = s.sector := rfl
@[simp] theorem complete_data (s : State) : (complete s).data = s.data := rfl
@[simp] theorem complete_flags (s : State) : (complete s).flags = { s.flags with busy := false, intrq := true } := rfl
@[simp] theorem complete_cmdType (s : State) : (complete s).cmdType = s.cmdType := rfl
@[simp] theorem complete_drvSel (s : State) : (complete s).drvSel = s.drvSel := rfl
@[simp] theorem complete_drvSelBackup (s : State) : (complete s).drvSelBackup = s.drvSelBackup := rfl
@[simp] theorem complete_ien (s : State) : (complete s).ien = s.ien := rfl
@[simp] theorem complete_nmiMask (s : State) : (complete s).nmiMask = s.nmiMask := rfl
@[simp] theorem complete_nmiStatus (s : State) : (complete s).nmiStatus = s.cfg.nmiIntrq := rfl
@[simp] theorem complete_waitOut (s : State) : (complete s).waitOut = s.waitOut := rfl
@[simp] theorem complete_cmdRecv (s : State) : (complete s).cmdRecv = s.cmdRecv := rfl
@[simp] theorem complete_svcTag (s : State) : (complete s).svcTag = s.svcTag := rfl
@[simp] theorem complete_svcSub (s : State) : (complete s).svcSub = s.svcSub := rfl
@[simp] theorem complete_timerUs (s : State) : (complete s).timerUs = s.timerUs := rfl
@[simp] theorem complete_motorUs (s : State) : (complete s).motorUs = s.motorUs := rfl
@[simp] theorem complete_xfer (s : State) : (complete s).xfer = s.xfer := rfl
@[simp] theorem complete_dir (s : State) : (complete s).dir = s.dir := rfl
@[simp] theorem complete_crc (s : State) : (complete s).crc = s.crc := rfl
@[simp] theorem complete_dec (s : State) : (complete s).dec = s.dec := rfl
@[simp] theorem complete_drives (s : State) : (complete s).drives = s.drives := rfl
@[simp] theorem complete_cache (s : State) : (complete s).cache = s.cache := rfl
@[simp] theorem complete_stage (s : State) : (complete s).stage = s.stage := rfl
@[simp] theorem complete_hxMem (s : State) : (complete s).hxMem = s.hxMem := rfl
@[simp] theorem complete_flux (s : State) : (complete s).flux = s.flux := rfl
@[simp] theorem complete_fluxLen (s : State) : (complete s).fluxLen = s.fluxLen := rfl
@[simp] theorem complete_stretched (s : State) : (complete s).stretched = s.stretched := rfl
@[simp] theorem complete_stepWait (s : State) : (complete s).stepWait = s.stepWait := rfl
@[simp] theorem complete_svcReq (s : State) : (complete s).svcReq = s.svcReq := rfl
@[simp] theorem complete_env (s : State) : (complete s).env = s.env := rfl
@[simp] theorem complete_inputs (s : State) : (complete s).inputs = s.inputs := rfl
@[simp] theorem complete_events (s : State) : (complete s).events = .intrPulse :: s.events := rfl
@[simp] theorem complete_draws (s : State) : (complete s).draws = s.draws := rfl

/-! ## Clearing the pending interrupt (rule R167) -/

@[simp] theorem clearPending_cfg (s : State) : (clearPending s).cfg = s.cfg := rfl
@[simp] theorem clearPending_command (s : State) : (clearPending s).command = s.command := rfl
@[simp] theorem clearPending_track (s : State) : (clearPending s).track = s.track := rfl
@[simp] theorem clearPending_sector (s : State) : (clearPending s).sector = s.sector := rfl
@[simp] theorem clearPending_data (s : State) : (clearPending s).data = s.data := rfl
@[simp] theorem clearPending_flags (s : State) : (clearPending s).flags = { s.flags with intrq := false } := rfl
@[simp] theorem clearPending_cmdType (s : State) : (clearPending s).cmdType = s.cmdType := rfl
@[simp] theorem clearPending_drvSel (s : State) : (clearPending s).drvSel = s.drvSel := rfl
@[simp] theorem clearPending_drvSelBackup (s : State) : (clearPending s).drvSelBackup = s.drvSelBackup := rfl
@[simp] theorem clearPending_ien (s : State) : (clearPending s).ien = s.ien := rfl
@[simp] theorem clearPending_nmiMask (s : State) : (clearPending s).nmiMask = s.nmiMask := rfl
@[simp] theorem clearPending_nmiStatus (s : State) : (clearPending s).nmiStatus = s.cfg.nmiIdle := rfl
@[simp] theorem clearPending_waitOut (s : State) : (clearPending s).waitOut = s.waitOut := rfl
@[simp] theorem clearPending_cmdRecv (s : State) : (clearPending s).cmdRecv = s.cmdRecv := rfl
@[simp] theorem clearPending_svcTag (s : State) : (clearPending s).svcTag = s.svcTag := rfl
@[simp] theorem clearPending_svcSub (s : State) : (clearPending s).svcSub = s.svcSub := rfl
@[simp] theorem clearPending_timerUs (s : State) : (clearPending s).timerUs = s.timerUs := rfl
@[simp] theorem clearPending_motorUs (s : State) : (clearPending s).motorUs = s.motorUs := rfl
@[simp] theorem clearPending_xfer (s : State) : (clearPending s).xfer = s.xfer := rfl
@[simp] theorem clearPending_dir (s : State) : (clearPending s).dir = s.dir := rfl
@[simp] theorem clearPending_crc (s : State) : (clearPending s).crc = s.crc := rfl
@[simp] theorem clearPending_dec (s : State) : (clearPending s).dec = s.dec := rfl
@[simp] theorem clearPending_drives (s : State) : (clearPending s).drives = s.drives := rfl
@[simp] theorem clearPending_cache (s : State) : (clearPending s).cache = s.cache := rfl
@[simp] theorem clearPending_stage (s : State) : (clearPending s).stage = s.stage := rfl
@[simp] theorem clearPending_hxMem (s : State) : (clearPending s).hxMem = s.hxMem := rfl
@[simp] theorem clearPending_flux (s : State) : (clearPending s).flux = s.flux := rfl
@[simp] theorem clearPending_fluxLen (s : State) : (clearPending s).fluxLen = s.fluxLen := rfl
@[simp] theorem clearPending_stretched (s : State) : (clearPending s).stretched = s.stretched := rfl
@[simp] theorem clearPending_stepWait (s : State) : (clearPending s).stepWait = s.stepWait := rfl
@[simp] theorem clearPending_svcReq (s : State) : (clearPending s).svcReq = s.svcReq := rfl
@[simp] theorem clearPending_env (s : State) : (clearPending s).env = s.env := rfl
@[simp] theorem clearPending_inputs (s : State) : (clearPending s).inputs = s.inputs := rfl
@[simp] theorem clearPending_events (s : State) : (clearPending s).events = s.events := rfl
@[simp] theorem clearPending_draws (s : State) : (clearPending s).draws = s.draws := rfl

/-! ## The status reset (rule R180) -/

@[simp] theorem statusReset_cfg (s : State) : (statusReset s).cfg = s.cfg := rfl
@[simp] theorem statusReset_command (s : State) : (statusReset s).command = s.command := rfl
@[simp] theorem statusReset_track (s : State) : (statusReset s).track = s.track := rfl
@[simp] theorem statusReset_sector (s : State) : (statusReset s).sector = s.sector := rfl
@[simp] theorem statusReset_data (s : State) : (statusReset s).data = s.data := rfl
@[simp] theorem statusReset_flags (s : State) : (statusReset s).flags = Flags.clear := rfl
@[simp] theorem statusReset_cmdType (s : State) : (statusReset s).cmdType = s.cmdType := rfl
@[simp] theorem statusReset_drvSel (s : State) : (statusReset s).drvSel = s.drvSel := rfl
@[simp] theorem statusReset_drvSelBackup (s : State) : (statusReset s).drvSelBackup = s.drvSelBackup := rfl
@[simp] theorem statusReset_ien (s : State) : (statusReset s).ien = s.ien := rfl
@[simp] theorem statusReset_nmiMask (s : State) : (statusReset s).nmiMask = s.nmiMask := rfl
@[simp] theorem statusReset_nmiStatus (s : State) : (statusReset s).nmiStatus = s.cfg.nmiIdle := rfl
@[simp] theorem statusReset_waitOut (s : State) : (statusReset s).waitOut = s.waitOut := rfl
@[simp] theorem statusReset_cmdRecv (s : State) : (statusReset s).cmdRecv = s.cmdRecv := rfl
@[simp] theorem statusReset_svcTag (s : State) : (statusReset s).svcTag = s.svcTag := rfl
@[simp] theorem statusReset_svcSub (s : State) : (statusReset s).svcSub = s.svcSub := rfl
@[simp] theorem statusReset_timerUs (s : State) : (statusReset s).timerUs = s.timerUs := rfl
@[simp] theorem statusReset_motorUs (s : State) : (statusReset s).motorUs = s.motorUs := rfl
@[simp] theorem statusReset_xfer (s : State) : (statusReset s).xfer = s.xfer := rfl
@[simp] theorem statusReset_dir (s : State) : (statusReset s).dir = s.dir := rfl
@[simp] theorem statusReset_crc (s : State) : (statusReset s).crc = s.crc := rfl
@[simp] theorem statusReset_dec (s : State) : (statusReset s).dec = s.dec := rfl
@[simp] theorem statusReset_drives (s : State) : (statusReset s).drives = s.drives := rfl
@[simp] theorem statusReset_cache (s : State) : (statusReset s).cache = s.cache := rfl
@[simp] theorem statusReset_stage (s : State) : (statusReset s).stage = s.stage := rfl
@[simp] theorem statusReset_hxMem (s : State) : (statusReset s).hxMem = s.hxMem := rfl
@[simp] theorem statusReset_flux (s : State) : (statusReset s).flux = s.flux := rfl
@[simp] theorem statusReset_fluxLen (s : State) : (statusReset s).fluxLen = s.fluxLen := rfl
@[simp] theorem statusReset_stretched (s : State) : (statusReset s).stretched = s.stretched := rfl
@[simp] theorem statusReset_stepWait (s : State) : (statusReset s).stepWait = s.stepWait := rfl
@[simp] theorem statusReset_svcReq (s : State) : (statusReset s).svcReq = s.svcReq := rfl
@[simp] theorem statusReset_env (s : State) : (statusReset s).env = s.env := rfl
@[simp] theorem statusReset_inputs (s : State) : (statusReset s).inputs = s.inputs := rfl
@[simp] theorem statusReset_events (s : State) : (statusReset s).events = s.events := rfl
@[simp] theorem statusReset_draws (s : State) : (statusReset s).draws = s.draws := rfl

/-! ## Handing over (rule R30) -/

@[simp] theorem handOver_cfg (t : SvcTag) (x : Xfer) (s : State) : (handOver t x s).cfg = s.cfg := rfl
@[simp] theorem handOver_command (t : SvcTag) (x : Xfer) (s : State) : (handOver t x s).command = s.command := rfl
@[simp] theorem handOver_track (t : SvcTag) (x : Xfer) (s : State) : (handOver t x s).track = s.track := rfl
@[simp] theorem handOver_sector (t : SvcTag) (x : Xfer) (s : State) : (handOver t x s).sector = s.sector := rfl
@[simp] theorem handOver_data (t : SvcTag) (x : Xfer) (s : State) : (handOver t x s).data = s.data := rfl
@[simp] theorem handOver_flags (t : SvcTag) (x : Xfer) (s : State) : (handOver t x s).flags = s.flags := rfl
@[simp] theorem handOver_cmdType (t : SvcTag) (x : Xfer) (s : State) : (handOver t x s).cmdType = s.cmdType := rfl
@[simp] theorem handOver_drvSel (t : SvcTag) (x : Xfer) (s : State) : (handOver t x s).drvSel = s.drvSel := rfl
@[simp] theorem handOver_drvSelBackup (t : SvcTag) (x : Xfer) (s : State) :
    (handOver t x s).drvSelBackup = s.drvSelBackup := rfl
@[simp] theorem handOver_ien (t : SvcTag) (x : Xfer) (s : State) : (handOver t x s).ien = s.ien := rfl
@[simp] theorem handOver_nmiMask (t : SvcTag) (x : Xfer) (s : State) : (handOver t x s).nmiMask = s.nmiMask := rfl
@[simp] theorem handOver_nmiStatus (t : SvcTag) (x : Xfer) (s : State) : (handOver t x s).nmiStatus = s.nmiStatus := rfl
@[simp] theorem handOver_waitOut (t : SvcTag) (x : Xfer) (s : State) : (handOver t x s).waitOut = s.waitOut := rfl
@[simp] theorem handOver_cmdRecv (t : SvcTag) (x : Xfer) (s : State) : (handOver t x s).cmdRecv = s.cmdRecv := rfl
@[simp] theorem handOver_svcTag (t : SvcTag) (x : Xfer) (s : State) : (handOver t x s).svcTag = t := rfl
@[simp] theorem handOver_svcSub (t : SvcTag) (x : Xfer) (s : State) : (handOver t x s).svcSub = 0 := rfl
@[simp] theorem handOver_timerUs (t : SvcTag) (x : Xfer) (s : State) : (handOver t x s).timerUs = s.timerUs := rfl
@[simp] theorem handOver_motorUs (t : SvcTag) (x : Xfer) (s : State) : (handOver t x s).motorUs = s.motorUs := rfl
@[simp] theorem handOver_xfer (t : SvcTag) (x : Xfer) (s : State) : (handOver t x s).xfer = x := rfl
@[simp] theorem handOver_dir (t : SvcTag) (x : Xfer) (s : State) : (handOver t x s).dir = s.dir := rfl
@[simp] theorem handOver_crc (t : SvcTag) (x : Xfer) (s : State) : (handOver t x s).crc = s.crc := rfl
@[simp] theorem handOver_dec (t : SvcTag) (x : Xfer) (s : State) : (handOver t x s).dec = s.dec := rfl
@[simp] theorem handOver_drives (t : SvcTag) (x : Xfer) (s : State) : (handOver t x s).drives = s.drives := rfl
@[simp] theorem handOver_cache (t : SvcTag) (x : Xfer) (s : State) : (handOver t x s).cache = s.cache := rfl
@[simp] theorem handOver_stage (t : SvcTag) (x : Xfer) (s : State) : (handOver t x s).stage = s.stage := rfl
@[simp] theorem handOver_hxMem (t : SvcTag) (x : Xfer) (s : State) : (handOver t x s).hxMem = s.hxMem := rfl
@[simp] theorem handOver_flux (t : SvcTag) (x : Xfer) (s : State) : (handOver t x s).flux = s.flux := rfl
@[simp] theorem handOver_fluxLen (t : SvcTag) (x : Xfer) (s : State) : (handOver t x s).fluxLen = s.fluxLen := rfl
@[simp] theorem handOver_stretched (t : SvcTag) (x : Xfer) (s : State) : (handOver t x s).stretched = s.stretched := rfl
@[simp] theorem handOver_stepWait (t : SvcTag) (x : Xfer) (s : State) : (handOver t x s).stepWait = s.stepWait := rfl
@[simp] theorem handOver_svcReq (t : SvcTag) (x : Xfer) (s : State) : (handOver t x s).svcReq = s.svcReq := rfl
@[simp] theorem handOver_env (t : SvcTag) (x : Xfer) (s : State) : (handOver t x s).env = s.env := rfl
@[simp] theorem handOver_inputs (t : SvcTag) (x : Xfer) (s : State) : (handOver t x s).inputs = s.inputs := rfl
@[simp] theorem handOver_events (t : SvcTag) (x : Xfer) (s : State) : (handOver t x s).events = s.events := rfl
@[simp] theorem handOver_draws (t : SvcTag) (x : Xfer) (s : State) : (handOver t x s).draws = s.draws := rfl

/-! ## A track forgotten and named (rule R141) -/

@[simp] theorem forgetTrack_cfg (s : State) : (forgetTrack s).cfg = s.cfg := rfl
@[simp] theorem forgetTrack_command (s : State) : (forgetTrack s).command = s.command := rfl
@[simp] theorem forgetTrack_track (s : State) : (forgetTrack s).track = s.track := rfl
@[simp] theorem forgetTrack_sector (s : State) : (forgetTrack s).sector = s.sector := rfl
@[simp] theorem forgetTrack_data (s : State) : (forgetTrack s).data = s.data := rfl
@[simp] theorem forgetTrack_flags (s : State) : (forgetTrack s).flags = s.flags := rfl
@[simp] theorem forgetTrack_cmdType (s : State) : (forgetTrack s).cmdType = s.cmdType := rfl
@[simp] theorem forgetTrack_drvSel (s : State) : (forgetTrack s).drvSel = s.drvSel := rfl
@[simp] theorem forgetTrack_drvSelBackup (s : State) : (forgetTrack s).drvSelBackup = s.drvSelBackup := rfl
@[simp] theorem forgetTrack_ien (s : State) : (forgetTrack s).ien = s.ien := rfl
@[simp] theorem forgetTrack_nmiMask (s : State) : (forgetTrack s).nmiMask = s.nmiMask := rfl
@[simp] theorem forgetTrack_nmiStatus (s : State) : (forgetTrack s).nmiStatus = s.nmiStatus := rfl
@[simp] theorem forgetTrack_waitOut (s : State) : (forgetTrack s).waitOut = s.waitOut := rfl
@[simp] theorem forgetTrack_cmdRecv (s : State) : (forgetTrack s).cmdRecv = s.cmdRecv := rfl
@[simp] theorem forgetTrack_svcTag (s : State) : (forgetTrack s).svcTag = s.svcTag := rfl
@[simp] theorem forgetTrack_svcSub (s : State) : (forgetTrack s).svcSub = s.svcSub := rfl
@[simp] theorem forgetTrack_timerUs (s : State) : (forgetTrack s).timerUs = s.timerUs := rfl
@[simp] theorem forgetTrack_motorUs (s : State) : (forgetTrack s).motorUs = s.motorUs := rfl
@[simp] theorem forgetTrack_xfer (s : State) : (forgetTrack s).xfer = s.xfer := rfl
@[simp] theorem forgetTrack_dir (s : State) : (forgetTrack s).dir = s.dir := rfl
@[simp] theorem forgetTrack_crc (s : State) : (forgetTrack s).crc = s.crc := rfl
@[simp] theorem forgetTrack_dec (s : State) : (forgetTrack s).dec = s.dec := rfl
@[simp] theorem forgetTrack_drives (s : State) : (forgetTrack s).drives = s.drives := rfl
@[simp] theorem forgetTrack_cache (s : State) :
    (forgetTrack s).cache = { s.cache with id := none, idam := emptyIdam, dam := emptyDam } := rfl
@[simp] theorem forgetTrack_stage (s : State) : (forgetTrack s).stage = s.stage := rfl
@[simp] theorem forgetTrack_hxMem (s : State) : (forgetTrack s).hxMem = s.hxMem := rfl
@[simp] theorem forgetTrack_flux (s : State) : (forgetTrack s).flux = s.flux := rfl
@[simp] theorem forgetTrack_fluxLen (s : State) : (forgetTrack s).fluxLen = s.fluxLen := rfl
@[simp] theorem forgetTrack_stretched (s : State) : (forgetTrack s).stretched = s.stretched := rfl
@[simp] theorem forgetTrack_stepWait (s : State) : (forgetTrack s).stepWait = s.stepWait := rfl
@[simp] theorem forgetTrack_svcReq (s : State) : (forgetTrack s).svcReq = s.svcReq := rfl
@[simp] theorem forgetTrack_env (s : State) : (forgetTrack s).env = s.env := rfl
@[simp] theorem forgetTrack_inputs (s : State) : (forgetTrack s).inputs = s.inputs := rfl
@[simp] theorem forgetTrack_events (s : State) : (forgetTrack s).events = s.events := rfl
@[simp] theorem forgetTrack_draws (s : State) : (forgetTrack s).draws = s.draws := rfl

/-! ## Force Interrupt (rule R209) -/

@[simp] theorem forceInterrupt_cfg (n : BitVec 4) (s : State) : (forceInterrupt n s).cfg = s.cfg := rfl
@[simp] theorem forceInterrupt_command (n : BitVec 4) (s : State) : (forceInterrupt n s).command = s.command := rfl
@[simp] theorem forceInterrupt_track (n : BitVec 4) (s : State) : (forceInterrupt n s).track = s.track := rfl
@[simp] theorem forceInterrupt_sector (n : BitVec 4) (s : State) : (forceInterrupt n s).sector = s.sector := rfl
@[simp] theorem forceInterrupt_data (n : BitVec 4) (s : State) : (forceInterrupt n s).data = s.data := rfl
@[simp] theorem forceInterrupt_flags (n : BitVec 4) (s : State) :
    (forceInterrupt n s).flags = { Flags.clear with intrq := true } := rfl
@[simp] theorem forceInterrupt_cmdType (n : BitVec 4) (s : State) : (forceInterrupt n s).cmdType = s.cmdType := rfl
@[simp] theorem forceInterrupt_drvSel (n : BitVec 4) (s : State) : (forceInterrupt n s).drvSel = s.drvSel := rfl
@[simp] theorem forceInterrupt_drvSelBackup (n : BitVec 4) (s : State) :
    (forceInterrupt n s).drvSelBackup = s.drvSelBackup := rfl
@[simp] theorem forceInterrupt_ien (n : BitVec 4) (s : State) : (forceInterrupt n s).ien = n := rfl
@[simp] theorem forceInterrupt_nmiMask (n : BitVec 4) (s : State) : (forceInterrupt n s).nmiMask = s.nmiMask := rfl
@[simp] theorem forceInterrupt_nmiStatus (n : BitVec 4) (s : State) : (forceInterrupt n s).nmiStatus = s.cfg.nmiIntrq := rfl
@[simp] theorem forceInterrupt_waitOut (n : BitVec 4) (s : State) : (forceInterrupt n s).waitOut = s.waitOut := rfl
@[simp] theorem forceInterrupt_cmdRecv (n : BitVec 4) (s : State) : (forceInterrupt n s).cmdRecv = false := rfl
@[simp] theorem forceInterrupt_svcTag (n : BitVec 4) (s : State) : (forceInterrupt n s).svcTag = .none := rfl
@[simp] theorem forceInterrupt_svcSub (n : BitVec 4) (s : State) : (forceInterrupt n s).svcSub = 0 := rfl
@[simp] theorem forceInterrupt_timerUs (n : BitVec 4) (s : State) : (forceInterrupt n s).timerUs = s.timerUs := rfl
@[simp] theorem forceInterrupt_motorUs (n : BitVec 4) (s : State) : (forceInterrupt n s).motorUs = s.motorUs := rfl
@[simp] theorem forceInterrupt_xfer (n : BitVec 4) (s : State) : (forceInterrupt n s).xfer = s.xfer := rfl
@[simp] theorem forceInterrupt_dir (n : BitVec 4) (s : State) : (forceInterrupt n s).dir = s.dir := rfl
@[simp] theorem forceInterrupt_crc (n : BitVec 4) (s : State) : (forceInterrupt n s).crc = s.crc := rfl
@[simp] theorem forceInterrupt_dec (n : BitVec 4) (s : State) : (forceInterrupt n s).dec = s.dec := rfl
@[simp] theorem forceInterrupt_drives (n : BitVec 4) (s : State) : (forceInterrupt n s).drives = s.drives := rfl
@[simp] theorem forceInterrupt_cache (n : BitVec 4) (s : State) : (forceInterrupt n s).cache = s.cache := rfl
@[simp] theorem forceInterrupt_stage (n : BitVec 4) (s : State) : (forceInterrupt n s).stage = s.stage := rfl
@[simp] theorem forceInterrupt_hxMem (n : BitVec 4) (s : State) : (forceInterrupt n s).hxMem = s.hxMem := rfl
@[simp] theorem forceInterrupt_flux (n : BitVec 4) (s : State) : (forceInterrupt n s).flux = s.flux := rfl
@[simp] theorem forceInterrupt_fluxLen (n : BitVec 4) (s : State) : (forceInterrupt n s).fluxLen = s.fluxLen := rfl
@[simp] theorem forceInterrupt_stretched (n : BitVec 4) (s : State) : (forceInterrupt n s).stretched = s.stretched := rfl
@[simp] theorem forceInterrupt_stepWait (n : BitVec 4) (s : State) : (forceInterrupt n s).stepWait = none := rfl
@[simp] theorem forceInterrupt_svcReq (n : BitVec 4) (s : State) : (forceInterrupt n s).svcReq = false := rfl
@[simp] theorem forceInterrupt_env (n : BitVec 4) (s : State) : (forceInterrupt n s).env = s.env := rfl
@[simp] theorem forceInterrupt_inputs (n : BitVec 4) (s : State) : (forceInterrupt n s).inputs = s.inputs := rfl
@[simp] theorem forceInterrupt_events (n : BitVec 4) (s : State) : (forceInterrupt n s).events = .intrPulse :: s.events := rfl
@[simp] theorem forceInterrupt_draws (n : BitVec 4) (s : State) : (forceInterrupt n s).draws = s.draws := rfl

/-! ## The flags a condition sets (rule R216) -/

@[simp] theorem State.raise_seekError (s : State) : (s.raise .seekError).flags = { s.flags with seekErr := true } := rfl
@[simp] theorem State.raise_crcError (s : State) : (s.raise .crcError).flags = { s.flags with crcErr := true } := rfl
@[simp] theorem State.raise_recordNotFound (s : State) : (s.raise .recordNotFound).flags = { s.flags with notFound := true } := rfl
@[simp] theorem State.raise_dataLost (s : State) : (s.raise .dataLost).flags = { s.flags with lostData := true } := rfl
@[simp] theorem State.raise_intrq (s : State) (c : Cond) : (s.raise c).flags.intrq = s.flags.intrq := by cases c <;> rfl

/-! ## Outcomes -/

@[simp] theorem answer_ok (s : State) : answer (.ok s) = .next s := rfl
@[simp] theorem answer_error (r : Refusal) : answer (.error r) = .refused r := rfl
theorem answer_eq_next {x : Except Refusal State} {t : State} : answer x = .next t ↔ x = .ok t := by
  cases x <;> simp [answer]
theorem tellWith_eq_next {α : Type} {f : α → Result} {x : Except Refusal (α × State)} {t : State} :
    tellWith f x = .next t ↔ ∃ a s, x = .ok (a, s) ∧ t = s.emit (.result (f a)) := by
  rcases x with _ | ⟨a, s⟩
  · simp [tellWith]
  · simp only [tellWith, tell, Host.Outcome.next.injEq, Except.ok.injEq, Prod.mk.injEq]
    exact ⟨fun h => ⟨a, s, ⟨rfl, rfl⟩, h.symm⟩, fun ⟨_, _, ⟨h1, h2⟩, h3⟩ => by subst h1 h2; exact h3.symm⟩

/-- A bind of two checked operations succeeds through a middle result. -/
theorem except_bind_ok {ε α β : Type} {x : Except ε α} {f : α → Except ε β} {b : β} :
    (x >>= f) = .ok b ↔ ∃ a, x = .ok a ∧ f a = .ok b := by
  cases x <;> simp [bind, Except.bind]

end Sys2Proof.Machine
end

