-- ==== Sys2Proof/Laws/Crc.lean ====
section
/-! SUPPORT. The CRC as a linear map: the register over a concatenation, over an exclusive-or of two streams, and that a difference
once in the register never leaves it (rules R112, R116). -/

namespace Sys2Proof.Machine

theorem crcFeed_append (p : CrcParams) (c : Word16) (xs ys : List Byte) :
    crcFeed p c (xs ++ ys) = crcFeed p (crcFeed p c xs) ys := List.foldl_append

/-- There is no final exclusive-or (rule R110). -/
@[simp] theorem crcValue_ccitt (c : Word16) : crcValue .ccitt c = c := by simp [crcValue, CrcParams.ccitt]

/-- The bit step, without a branch. -/
theorem crcBit_eq (c : Word16) (b : Bool) :
    crcBit .ccitt c b = (c <<< 1) ^^^ (BitVec.fill 16 (c.getLsbD 15 ^^ b) &&& 0x1021#16) := by
  unfold crcBit
  cases c.getLsbD 15 <;> cases b <;> simp [CrcParams.ccitt, BitVec.fill]

theorem shiftLeft_xor (c d : Word16) : (c ^^^ d) <<< 1 = (c <<< 1) ^^^ (d <<< 1) := BitVec.shiftLeft_xor_distrib _ _ _

theorem fill_xor (x y : Bool) (m : Word16) :
    BitVec.fill 16 (x ^^ y) &&& m = (BitVec.fill 16 x &&& m) ^^^ (BitVec.fill 16 y &&& m) := by
  cases x <;> cases y <;> simp [BitVec.fill]

/-- The bit step of an exclusive-or is the exclusive-or of the bit steps. -/
theorem crcBit_xor (c d : Word16) (b e : Bool) :
    crcBit .ccitt (c ^^^ d) (b ^^ e) = crcBit .ccitt c b ^^^ crcBit .ccitt d e := by
  rw [crcBit_eq, crcBit_eq, crcBit_eq, shiftLeft_xor, BitVec.getLsbD_xor,
    show (c.getLsbD 15 ^^ d.getLsbD 15 ^^ (b ^^ e)) = ((c.getLsbD 15 ^^ b) ^^ (d.getLsbD 15 ^^ e)) by
      cases c.getLsbD 15 <;> cases d.getLsbD 15 <;> cases b <;> cases e <;> rfl, fill_xor]
  ac_rfl

/-- The same of a byte. -/
theorem crcUpdate_xor (c d : Word16) (x y : Byte) :
    crcUpdate .ccitt (c ^^^ d) (x ^^^ y) = crcUpdate .ccitt c x ^^^ crcUpdate .ccitt d y := by
  simp only [crcUpdate, byteBits, CrcParams.ccitt, if_true, List.foldl_cons, List.foldl_nil, BitVec.getLsbD_xor]
  simp only [show (⟨0x1021, 0xFFFF, true, 0x0000⟩ : CrcParams) = CrcParams.ccitt from rfl, crcBit_xor]

/-- A register that is not zero does not become zero by a zero bit. -/
theorem crcBit_ne_zero {d : Word16} (h : d ≠ 0) : crcBit .ccitt d false ≠ 0 := fun e => by
  cases h15 : d.getLsbD 15 with
  | true =>
    have e' : (d <<< 1) ^^^ 0x1021#16 = 0 := by simpa [crcBit, h15, CrcParams.ccitt] using e
    have := congrArg (fun v => v.getLsbD 0) e'
    simp at this
  | false =>
    have e' : d <<< 1 = 0 := by
      rw [crcBit, h15] at e
      exact e
    apply h
    apply BitVec.eq_of_getLsbD_eq
    intro i hi
    by_cases hi15 : i = 15
    · subst hi15
      simpa using h15
    · have := congrArg (fun v => v.getLsbD (i + 1)) e'
      rw [BitVec.getLsbD_shiftLeft] at this
      simpa [show i + 1 < 16 by omega, -BitVec.getLsbD_eq_getElem] using this

/-- A difference in the register is still there after a byte 0. -/
theorem crcUpdate_ne_zero {d : Word16} (h : d ≠ 0) : crcUpdate .ccitt d 0 ≠ 0 := by
  simp only [crcUpdate, byteBits, CrcParams.ccitt, if_true, List.foldl_cons, List.foldl_nil]
  simp only [show (⟨0x1021, 0xFFFF, true, 0x0000⟩ : CrcParams) = CrcParams.ccitt from rfl]
  exact crcBit_ne_zero (crcBit_ne_zero (crcBit_ne_zero (crcBit_ne_zero (crcBit_ne_zero (crcBit_ne_zero
    (crcBit_ne_zero (crcBit_ne_zero h)))))))

/-- Two registers fed the same bytes stay different. -/
theorem crcFeed_ne (ys : List Byte) : ∀ {c d : Word16}, c ≠ d → crcFeed .ccitt c ys ≠ crcFeed .ccitt d ys := by
  induction ys with
  | nil => exact fun h => h
  | cons y ys ih =>
    intro c d h
    refine ih fun e => ?_
    have hx := crcUpdate_xor c d y y
    rw [e, BitVec.xor_self, BitVec.xor_self] at hx
    exact crcUpdate_ne_zero (d := c ^^^ d) (fun e' => h (by simpa using e')) hx

end Sys2Proof.Machine
end

