-- ==== Sys2Proof/Laws/Memory.lean ====
section
/-! SUPPORT. The laws of byte memories: a read after a write, and that every operation keeps the canonical form. -/

namespace Sys2Proof.Machine

/-! ## The canonical form -/

theorem Memory.wfFrom_iff (m : Memory) (lo : Nat) :
    Memory.wfFrom lo m = true ↔ (∀ c ∈ m, lo ≤ c.1 ∧ c.2 ≠ 0) ∧ m.Pairwise (fun x y => x.1 < y.1) := by
  induction m generalizing lo with
  | nil => simp [Memory.wfFrom]
  | cons c r ih =>
    obtain ⟨a, b⟩ := c
    simp only [Memory.wfFrom, Bool.and_eq_true, decide_eq_true_eq, bne_iff_ne, ih, List.mem_cons,
      forall_eq_or_imp, List.pairwise_cons]
    constructor
    · rintro ⟨⟨h1, h2⟩, h3, h4⟩
      exact ⟨⟨⟨h1, h2⟩, fun c hc => ⟨by have := (h3 c hc).1; omega, (h3 c hc).2⟩⟩,
        fun c hc => by have := (h3 c hc).1; omega, h4⟩
    · rintro ⟨⟨⟨h1, h2⟩, h3⟩, h4, h5⟩
      exact ⟨⟨h1, h2⟩, fun c hc => ⟨h4 c hc, (h3 c hc).2⟩, h5⟩

/-- The canonical form: no zero listed, addresses strictly rising. -/
theorem Memory.wf_iff (m : Memory) :
    m.wf = true ↔ (∀ c ∈ m, c.2 ≠ 0) ∧ m.Pairwise (fun x y => x.1 < y.1) := by
  simp [Memory.wf, Memory.wfFrom_iff]

@[simp] theorem Memory.wf_nil : Memory.wf [] = true := rfl

theorem mem_cellsFrom {a : Nat} {bs : List Byte} {c : Host.Cell} (h : c ∈ cellsFrom a bs) :
    a ≤ c.1 ∧ c.1 < a + bs.length ∧ c.2 ≠ 0 := by
  induction bs generalizing a with
  | nil => simp [cellsFrom] at h
  | cons b r ih =>
    simp only [cellsFrom] at h
    split at h
    · have := ih h
      simp only [List.length_cons]
      exact ⟨by omega, by omega, this.2.2⟩
    · rcases List.mem_cons.1 h with rfl | h
      · simp only [List.length_cons]; exact ⟨by omega, by omega, by assumption⟩
      · have := ih h
        simp only [List.length_cons]
        exact ⟨by omega, by omega, this.2.2⟩

theorem cellsFrom_pairwise (a : Nat) (bs : List Byte) : (cellsFrom a bs).Pairwise (fun x y => x.1 < y.1) := by
  induction bs generalizing a with
  | nil => exact List.Pairwise.nil
  | cons b r ih =>
    simp only [cellsFrom]
    split
    · exact ih _
    · exact List.Pairwise.cons (fun c hc => by have := mem_cellsFrom hc; simp only; omega) (ih _)

theorem Memory.mem_below {m : Memory} {a : Nat} {c : Host.Cell} : c ∈ m.below a ↔ c ∈ m ∧ c.1 < a := by
  simp [Memory.below]

theorem Memory.mem_from {m : Memory} {a : Nat} {c : Host.Cell} : c ∈ m.from a ↔ c ∈ m ∧ a ≤ c.1 := by
  simp [Memory.from]

theorem Memory.mem_moved {m : Memory} {sa n da : Nat} {c : Host.Cell} (h : c ∈ m.moved sa n da) :
    da ≤ c.1 ∧ c.1 < da + n ∧ ∃ e ∈ m, e.2 = c.2 ∧ sa ≤ e.1 ∧ c.1 = e.1 - sa + da := by
  simp only [Memory.moved, List.mem_map, Memory.mem_below, Memory.mem_from] at h
  obtain ⟨e, ⟨⟨h1, h2⟩, h3⟩, rfl⟩ := h
  exact ⟨by simp, by simp only; omega, e, h1, rfl, h2, rfl⟩

/-- Cells below `a`, cells of `a, …, b - 1`, cells from `b` on: in canonical form if each part is. -/
theorem Memory.wf_splice {m mid : Memory} {a b : Nat} (hm : m.wf = true) (hab : a ≤ b) (hmid : mid.wf = true)
    (hr : ∀ c ∈ mid, a ≤ c.1 ∧ c.1 < b) : Memory.wf (m.below a ++ (mid ++ m.from b)) = true := by
  rw [Memory.wf_iff] at *
  refine ⟨?_, ?_⟩
  · intro c hc
    simp only [List.mem_append, Memory.mem_below, Memory.mem_from] at hc
    rcases hc with h | h | h
    · exact hm.1 c h.1
    · exact hmid.1 c h
    · exact hm.1 c h.1
  · rw [List.pairwise_append, List.pairwise_append]
    refine ⟨hm.2.filter _, ⟨hmid.2, hm.2.filter _, ?_⟩, ?_⟩
    · intro x hx y hy
      have := (Memory.mem_from.1 hy).2
      have := hr x hx
      omega
    · intro x hx y hy
      have h1 := (Memory.mem_below.1 hx).2
      rcases List.mem_append.1 hy with h | h
      · have := hr y h; omega
      · have := (Memory.mem_from.1 h).2; omega

theorem cellsFrom_wf (a : Nat) (bs : List Byte) : Memory.wf (cellsFrom a bs) = true :=
  (Memory.wf_iff _).2 ⟨fun _ hc => (mem_cellsFrom hc).2.2, cellsFrom_pairwise a bs⟩

/-- A block write keeps the canonical form. -/
theorem Memory.wf_writeBlock {m : Memory} (h : m.wf = true) (a : Nat) (bs : List Byte) :
    (m.writeBlock a bs).wf = true :=
  Memory.wf_splice h (Nat.le_add_right _ _) (cellsFrom_wf a bs) fun _ hc =>
    ⟨(mem_cellsFrom hc).1, (mem_cellsFrom hc).2.1⟩

/-- A byte write keeps the canonical form. -/
theorem Memory.wf_write {m : Memory} (h : m.wf = true) (a : Nat) (b : Byte) : (m.write a b).wf = true :=
  Memory.wf_writeBlock h a [b]

/-- Clearing keeps the canonical form. -/
theorem Memory.wf_clear {m : Memory} (h : m.wf = true) (a n : Nat) : (m.clear a n).wf = true := by
  have := Memory.wf_splice (mid := []) h (Nat.le_add_right a n) Memory.wf_nil (by simp)
  simpa [Memory.clear] using this

theorem Memory.wf_moved {m : Memory} (h : m.wf = true) (sa n da : Nat) : (m.moved sa n da).wf = true := by
  rw [Memory.wf_iff] at *
  refine ⟨?_, ?_⟩
  · intro c hc
    obtain ⟨-, -, e, he, h2, -⟩ := Memory.mem_moved hc
    exact h2 ▸ h.1 e he
  · refine List.pairwise_map.2 (List.Pairwise.imp_of_mem ?_ ((h.2.filter _).filter _))
    intro x y hx hy hlt
    have h1 := (Memory.mem_from.1 (Memory.mem_below.1 hx).1).2
    have h2 := (Memory.mem_from.1 (Memory.mem_below.1 hy).1).2
    simp only
    omega

/-- Copying keeps the canonical form. -/
theorem Memory.wf_copy {m src : Memory} (h : m.wf = true) (hs : src.wf = true) (da sa n : Nat) :
    (m.copy da src sa n).wf = true :=
  Memory.wf_splice h (Nat.le_add_right _ _) (Memory.wf_moved hs sa n da) fun _ hc =>
    ⟨(Memory.mem_moved hc).1, (Memory.mem_moved hc).2.1⟩

/-! ## Reads -/

theorem Memory.read_of_not_mem {m : Memory} {a : Nat} (h : ∀ c ∈ m, c.1 ≠ a) : m.read a = 0 := by
  induction m with
  | nil => rfl
  | cons c r ih =>
    obtain ⟨k, b⟩ := c
    have hk : k ≠ a := h (k, b) List.mem_cons_self
    simp only [Memory.read, if_neg hk]
    exact ih fun c hc => h c (List.mem_cons_of_mem _ hc)

theorem Memory.read_append_left {x y : Memory} {a : Nat} (h : ∀ c ∈ y, c.1 ≠ a) : Memory.read (x ++ y) a = x.read a := by
  induction x with
  | nil => simpa [Memory.read] using Memory.read_of_not_mem h
  | cons c r ih =>
    obtain ⟨k, b⟩ := c
    simp only [List.cons_append, Memory.read]
    split
    · rfl
    · exact ih

theorem Memory.read_append_right {x y : Memory} {a : Nat} (h : ∀ c ∈ x, c.1 ≠ a) : Memory.read (x ++ y) a = y.read a := by
  induction x with
  | nil => rfl
  | cons c r ih =>
    obtain ⟨k, b⟩ := c
    have hk : k ≠ a := h (k, b) List.mem_cons_self
    simp only [List.cons_append, Memory.read, if_neg hk]
    exact ih fun c hc => h c (List.mem_cons_of_mem _ hc)

theorem Memory.read_filter {m : Memory} {a : Nat} {p : Host.Cell → Bool} (h : ∀ b, p (a, b) = true) :
    Memory.read (m.filter p) a = m.read a := by
  induction m with
  | nil => rfl
  | cons c r ih =>
    obtain ⟨k, b⟩ := c
    simp only [List.filter_cons, Memory.read]
    split
    · simp only [Memory.read]
      split
      · rfl
      · exact ih
    · rename_i hp
      have : k ≠ a := by rintro rfl; exact hp (h b)
      rw [if_neg this]
      exact ih

theorem Memory.read_below {m : Memory} {a t : Nat} (h : a < t) : (m.below t).read a = m.read a :=
  Memory.read_filter (by simpa using h)

theorem Memory.read_from {m : Memory} {a t : Nat} (h : t ≤ a) : (m.from t).read a = m.read a :=
  Memory.read_filter (by simpa using h)

/-- What a spliced memory reads: the middle part inside `a, …, b - 1`, the old memory elsewhere. -/
theorem Memory.read_splice {m mid : Memory} {a b k : Nat} (hab : a ≤ b) (hr : ∀ c ∈ mid, a ≤ c.1 ∧ c.1 < b) :
    Memory.read (m.below a ++ (mid ++ m.from b)) k = if a ≤ k ∧ k < b then mid.read k else m.read k := by
  by_cases h : a ≤ k ∧ k < b
  · rw [if_pos h, Memory.read_append_right, Memory.read_append_left]
    · intro c hc; have := (Memory.mem_from.1 hc).2; omega
    · intro c hc; have := (Memory.mem_below.1 hc).2; omega
  · rw [if_neg h]
    by_cases hk : k < a
    · rw [Memory.read_append_left, Memory.read_below hk]
      intro c hc
      rcases List.mem_append.1 hc with h1 | h1
      · have := hr c h1; omega
      · have := (Memory.mem_from.1 h1).2; omega
    · rw [Memory.read_append_right, Memory.read_append_right, Memory.read_from (by omega)]
      · intro c hc; have := hr c hc; omega
      · intro c hc; have := (Memory.mem_below.1 hc).2; omega

theorem read_cellsFrom (a : Nat) (bs : List Byte) (k : Nat) (h1 : a ≤ k) (h2 : k < a + bs.length) :
    Memory.read (cellsFrom a bs) k = bs.getD (k - a) 0 := by
  induction bs generalizing a with
  | nil => simp at h2; omega
  | cons b r ih =>
    simp only [List.length_cons] at h2
    simp only [cellsFrom]
    by_cases hk : k = a
    · subst hk
      split
      · rw [Memory.read_of_not_mem]
        · simp_all
        · intro c hc; have := mem_cellsFrom hc; omega
      · simp [Memory.read]
    · have h3 : k - a = (k - (a + 1)) + 1 := by omega
      have := ih (a + 1) (by omega) (by omega)
      split
      · rw [this, h3]; rfl
      · rw [Memory.read, if_neg (fun e => hk e.symm), this, h3]; rfl

/-- A read after a block write (MemWrite, rule R8). -/
theorem Memory.read_writeBlock (m : Memory) (a : Nat) (bs : List Byte) (k : Nat) :
    (m.writeBlock a bs).read k = if a ≤ k ∧ k < a + bs.length then bs.getD (k - a) 0 else m.read k := by
  rw [Memory.writeBlock, Memory.read_splice (Nat.le_add_right _ _)
    (fun c hc => ⟨(mem_cellsFrom hc).1, (mem_cellsFrom hc).2.1⟩)]
  split
  · rename_i h
    rw [read_cellsFrom a bs k h.1 h.2]
  · rfl

/-- A read after a byte write. -/
theorem Memory.read_write (m : Memory) (a : Nat) (b : Byte) (k : Nat) :
    (m.write a b).read k = if k = a then b else m.read k := by
  rw [Memory.write, Memory.read_writeBlock]
  by_cases h : k = a
  · subst h; simp
  · rw [if_neg h, if_neg]
    simp only [List.length_singleton]; omega

/-- A read after clearing. -/
theorem Memory.read_clear (m : Memory) (a n k : Nat) :
    (m.clear a n).read k = if a ≤ k ∧ k < a + n then 0 else m.read k := by
  have := Memory.read_splice (m := m) (mid := []) (k := k) (Nat.le_add_right a n) (by simp)
  simpa [Memory.clear, Memory.read] using this

theorem Memory.read_map_shift {m : Memory} {sa da k : Nat} (h : ∀ c ∈ m, sa ≤ c.1) (hk : da ≤ k) :
    Memory.read (m.map fun c => (c.1 - sa + da, c.2)) k = m.read (k - da + sa) := by
  induction m with
  | nil => rfl
  | cons c r ih =>
    obtain ⟨x, b⟩ := c
    have hx : sa ≤ x := h (x, b) List.mem_cons_self
    simp only [List.map_cons, Memory.read]
    rw [ih fun c hc => h c (List.mem_cons_of_mem _ hc)]
    by_cases e : x = k - da + sa
    · rw [if_pos e, if_pos (by omega)]
    · rw [if_neg e, if_neg (by omega)]

/-- A read after a copy. -/
theorem Memory.read_copy (m src : Memory) (da sa n k : Nat) :
    (m.copy da src sa n).read k = if da ≤ k ∧ k < da + n then src.read (k - da + sa) else m.read k := by
  rw [Memory.copy, Memory.read_splice (Nat.le_add_right _ _)
    (fun c hc => ⟨(Memory.mem_moved hc).1, (Memory.mem_moved hc).2.1⟩)]
  split
  · rename_i h
    rw [Memory.moved, Memory.read_map_shift _ h.1, Memory.read_below (by omega), Memory.read_from (by omega)]
    intro c hc
    exact (Memory.mem_from.1 (Memory.mem_below.1 hc).1).2
  · rfl

/-- Equal memories are equal data: two memories in canonical form that read alike everywhere are one list. -/
theorem Memory.ext_of_wf {m m' : Memory} (h : m.wf = true) (h' : m'.wf = true) (he : ∀ a, m.read a = m'.read a) :
    m = m' := by
  have key : ∀ {m : Memory}, m.wf = true → ∀ c : Host.Cell, c ∈ m ↔ c.2 ≠ 0 ∧ m.read c.1 = c.2 := by
    intro m hm
    rw [Memory.wf_iff] at hm
    obtain ⟨h0, hp⟩ := hm
    induction m with
    | nil => intro c; simp [Memory.read]; intro h e; exact h e.symm
    | cons x r ih =>
      obtain ⟨k, b⟩ := x
      rintro ⟨a, v⟩
      have hp' := List.pairwise_cons.1 hp
      have ih' := ih (fun c hc => h0 c (List.mem_cons_of_mem _ hc)) hp'.2 (a, v)
      have hkb : b ≠ 0 := h0 (k, b) List.mem_cons_self
      simp only [List.mem_cons, Prod.mk.injEq, Memory.read]
      by_cases hk : k = a
      · subst hk
        simp only [true_and, if_true]
        constructor
        · rintro (rfl | h)
          · exact ⟨hkb, rfl⟩
          · have := hp'.1 _ h; simp at this
        · rintro ⟨-, rfl⟩; exact .inl rfl
      · rw [if_neg hk, ← ih']
        constructor
        · rintro (⟨rfl, -⟩ | h)
          · exact absurd rfl hk
          · exact h
        · exact .inr
  have hperm : ∀ c, c ∈ m ↔ c ∈ m' := fun c => by rw [key h, key h', he]
  have hp := ((Memory.wf_iff m).1 h).2
  have hp' := ((Memory.wf_iff m').1 h').2
  have nd : ∀ {m : Memory}, m.Pairwise (fun x y => x.1 < y.1) → m.Nodup := by
    intro m hm
    exact hm.imp fun h e => by subst e; exact Nat.lt_irrefl _ h
  exact List.Perm.eq_of_pairwise (fun a b _ _ h1 h2 => absurd h1 (by omega)) hp hp'
    ((List.perm_ext_iff_of_nodup (nd hp) (nd hp')).2 hperm)

end Sys2Proof.Machine
end

