-- ==== Sys2Proof/Laws/Search.lean ====
section
/-! SUPPORT. The searches and the tables: the first candidate that passes, the window of sixteen bits, a table from a function. -/

namespace Sys2Proof.Machine

/-- A search that answers stops at the first candidate that passes. -/
theorem firstFrom_some {test : Nat → Bool} {count start q : Nat} (h : firstFrom test count start = some q) :
    start ≤ q ∧ q < start + count ∧ test q = true ∧ ∀ j, start ≤ j → j < q → test j = false := by
  induction count generalizing start with
  | zero => simp [firstFrom] at h
  | succ n ih =>
    simp only [firstFrom] at h
    split at h
    · rename_i ht
      simp only [Option.some.injEq] at h
      subst h
      exact ⟨Nat.le_refl _, by omega, ht, fun j h1 h2 => absurd h2 (by omega)⟩
    · rename_i ht
      obtain ⟨h1, h2, h3, h4⟩ := ih h
      refine ⟨by omega, by omega, h3, fun j h5 h6 => ?_⟩
      by_cases e : j = start
      · subst e; simpa using ht
      · exact h4 j (by omega) h6

/-- A search that answers none has seen every candidate fail. -/
theorem firstFrom_none {test : Nat → Bool} {count start : Nat} (h : firstFrom test count start = none) :
    ∀ j, start ≤ j → j < start + count → test j = false := by
  induction count generalizing start with
  | zero => intro j h1 h2; omega
  | succ n ih =>
    simp only [firstFrom] at h
    split at h
    · simp at h
    · rename_i ht
      intro j h1 h2
      by_cases e : j = start
      · subst e; simpa using ht
      · exact ih h j (by omega) (by omega)

@[simp] theorem tableOf_get {α : Type} (f : Fin 128 → α) (i : Fin 128) : (tableOf f)[i] = f i := by
  simp [tableOf]

@[simp] theorem emptyIdam_get (i : Fin 128) : emptyIdam[i] = 0 := by simp [emptyIdam]
@[simp] theorem emptyDam_get (i : Fin 128) : emptyDam[i] = none := by simp [emptyDam]

theorem set_get {α : Type} (v : Vector α 128) (i j : Fin 128) (x : α) :
    (v.set i x)[j] = if j = i then x else v[j] := by
  have : (v.set i.val x i.isLt)[j.val] = if i.val = j.val then x else v[j.val] := Vector.getElem_set _ _
  by_cases h : j = i
  · subst h; simp
  · have h' : ¬ i.val = j.val := fun e => h (Fin.ext e.symm)
    rw [if_neg h]
    simp only [Fin.getElem_fin]
    rw [this, if_neg h']

end Sys2Proof.Machine
end

