-- ==== Sys2Proof/Laws/Dec.lean ====
section
/-! SUPPORT. The DEC unit: what its scans find, what a captured field leaves, and that the decoding loops complete and keep what
every turn keeps. -/

namespace Sys2Proof.Machine

/-! ## Scans -/

/-- Rule R125. -/
theorem syncScan_some {s : State} {side : Bool} {p q : Nat} (h : syncScan s side p = some q) :
    p ≤ q ∧ q + 16 ≤ nbits s ∧ wordAt s side q = mfmSync ∧ ∀ j, p ≤ j → j < q → wordAt s side j ≠ mfmSync := by
  obtain ⟨h1, h2, h3, h4⟩ := firstFrom_some h
  exact ⟨h1, by omega, by simpa using h3, fun j a b => by simpa using h4 j a b⟩

theorem syncScan_none {s : State} {side : Bool} {p : Nat} (h : syncScan s side p = none) :
    ∀ j, p ≤ j → j + 16 ≤ nbits s → wordAt s side j ≠ mfmSync := fun j a b => by
  simpa using firstFrom_none h j a (by omega)

/-- Rule R134. -/
theorem fmScan_some {s : State} {side : Bool} {p q : Nat} (h : fmScan s side p = some q) :
    p ≤ q ∧ q + 16 * s.cfg.fmStride ≤ nbits s ∧ fmWordAt s side q ∈ fmMarks ∧
      ∀ j, p ≤ j → j < q → fmWordAt s side j ∉ fmMarks := by
  obtain ⟨h1, h2, h3, h4⟩ := firstFrom_some h
  exact ⟨h1, by omega, by simpa using h3, fun j a b => by simpa using h4 j a b⟩

theorem fmScan_none {s : State} {side : Bool} {p : Nat} (h : fmScan s side p = none) :
    ∀ j, p ≤ j → j + 16 * s.cfg.fmStride ≤ nbits s → fmWordAt s side j ∉ fmMarks := fun j a b => by
  simpa using firstFrom_none h j a (by omega)

/-! ## The flux is read-only: what is decoded depends on nothing else -/

theorem fluxBit_congr {s s' : State} (h : s.flux = s'.flux) (hl : s.fluxLen = s'.fluxLen) (side : Bool) (k : Nat) :
    fluxBit s side k = fluxBit s' side k := by
  simp [fluxBit, fluxByte, h, hl]

theorem wordAt_congr {s s' : State} (h : s.flux = s'.flux) (hl : s.fluxLen = s'.fluxLen) (side : Bool) (p : Nat) :
    wordAt s side p = wordAt s' side p := by
  simp [wordAt, fluxBit_congr h hl]

theorem mfmByte_congr {s s' : State} (h : s.flux = s'.flux) (hl : s.fluxLen = s'.fluxLen) (side : Bool) (p : Nat) :
    mfmByte s side p = mfmByte s' side p := by
  simp [mfmByte, wordAt_congr h hl]

theorem fmWordAt_congr {s s' : State} (h : s.flux = s'.flux) (hl : s.fluxLen = s'.fluxLen) (hc : s.cfg = s'.cfg) (side : Bool)
    (p : Nat) : fmWordAt s side p = fmWordAt s' side p := by
  simp [fmWordAt, fluxBit_congr h hl, hc]

theorem fmByte_congr {s s' : State} (h : s.flux = s'.flux) (hl : s.fluxLen = s'.fluxLen) (hc : s.cfg = s'.cfg) (side : Bool)
    (p : Nat) : fmByte s side p = fmByte s' side p := by
  simp [fmByte, fmWordAt_congr h hl hc]

theorem markAt_congr {s s' : State} (h : s.flux = s'.flux) (hl : s.fluxLen = s'.fluxLen) (side : Bool) (q : Nat) :
    markAt s side q = markAt s' side q := by
  have h1 : nbits s = nbits s' := by simp [nbits, hl]
  have h2 : mfmByte s side = mfmByte s' side := funext (mfmByte_congr h hl side)
  unfold markAt
  rw [h1, h2]

/-! ## A decoded run of bytes -/

@[simp] theorem decodedBytes_length (get : Nat → Byte) (f stride n : Nat) : (decodedBytes get f stride n).length = n := by
  simp [decodedBytes]

theorem decodedBytes_getD (get : Nat → Byte) (f stride n k : Nat) (h : k < n) :
    (decodedBytes get f stride n).getD k 0 = get (f + k * stride) := by
  simp [decodedBytes, List.getD_eq_getElem?_getD, h]

/-- Rule R150. -/
theorem sectorSize_eq (code : Byte) : sectorSize code = 128 * 2 ^ (code.toNat % 4) := Nat.shiftLeft_eq _ _

/-! ## Loops -/

/-- `DEC.TRACK`'s loop keeps what every turn keeps, completes, and runs until no sync word is left (rule R130: `p` strictly rises). -/
theorem mfmLoop_induct {side : Bool} {P : State → Prop} {bits : Nat} (hb : ∀ s, P s → nbits s = bits)
    (hstep : ∀ s q, P s → syncScan s side s.dec.p = some q →
      ∃ r s', mfmTurn side q s = .ok (r, s') ∧ P (resumeAt q r s') ∧ s.dec.p < (resumeAt q r s').dec.p) :
    ∀ n s, P s → ∃ t, mfmLoop side n s = .ok t ∧ P t ∧ (bits ≤ n + s.dec.p → syncScan t side t.dec.p = none) := by
  intro n
  induction n with
  | zero =>
    intro s hs
    refine ⟨s, rfl, hs, fun h => ?_⟩
    have h0 : nbits s - 15 - s.dec.p = 0 := by have := hb s hs; omega
    unfold syncScan
    rw [h0]
    rfl
  | succ n ih =>
    intro s hs
    simp only [mfmLoop]
    cases hq : syncScan s side s.dec.p with
    | none => exact ⟨s, rfl, hs, fun _ => hq⟩
    | some q =>
      obtain ⟨r, s', h1, h2, h3⟩ := hstep s q hs hq
      obtain ⟨t, h4, h5, h6⟩ := ih _ h2
      refine ⟨t, ?_, h5, fun h => h6 (by omega)⟩
      simp only [h1, bind, Except.bind]
      exact h4

/-- The same of `DEC.FMTRACK`'s loop; `p` strictly rises because `FM_STRIDE` is at least 1. -/
theorem fmLoop_induct {side : Bool} {P : State → Prop} {bits stride : Nat} (hb : ∀ s, P s → nbits s = bits)
    (hc : ∀ s, P s → s.cfg.fmStride = stride)
    (hstep : ∀ s q, P s → fmScan s side s.dec.p = some q →
      ∃ r s', fmTurn side q s = .ok (r, s') ∧ P (resumeAt q r s') ∧ (0 < stride → s.dec.p < (resumeAt q r s').dec.p)) :
    ∀ n s, P s → ∃ t, fmLoop side n s = .ok t ∧ P t ∧ (0 < stride → bits ≤ n + s.dec.p → fmScan t side t.dec.p = none) := by
  intro n
  induction n with
  | zero =>
    intro s hs
    refine ⟨s, rfl, hs, fun h0 h => ?_⟩
    have h0 : nbits s + 1 - 16 * s.cfg.fmStride - s.dec.p = 0 := by
      have := hb s hs
      have := hc s hs
      omega
    unfold fmScan
    rw [h0]
    rfl
  | succ n ih =>
    intro s hs
    simp only [fmLoop]
    cases hq : fmScan s side s.dec.p with
    | none => exact ⟨s, rfl, hs, fun _ _ => hq⟩
    | some q =>
      obtain ⟨r, s', h1, h2, h3⟩ := hstep s q hs hq
      obtain ⟨t, h4, h5, h6⟩ := ih _ h2
      refine ⟨t, ?_, h5, fun h0 h => h6 h0 (by have := h3 h0; omega)⟩
      simp only [h1, bind, Except.bind]
      exact h4

/-! ## What a turn of either loop may do -/

/-- The offset of the current slot's size code is in the buffer, so that no turn is refused. -/
def SizeInBuffer (s : State) : Prop := ∀ c, s.dec.cur = some c → s.cache.idam[c] + 4 < s.cfg.trkCap

theorem dataSize_ok {s : State} {c : Fin 128} (h : s.cache.idam[c] + 4 < s.cfg.trkCap) :
    dataSize s c = .ok (128 * 2 ^ ((s.cache.trk.read (s.cache.idam[c] + 4)).toNat % 4)) := by
  simp only [dataSize, if_pos h, sectorSize_eq]

/-- Rule R128: `DEC.IDFIELD` captures the field, or answers Fail and at most forgets the current slot. -/
theorem idField_cases (side : Bool) (q : Nat) (b1 b2 : Byte) (s : State) :
    (∃ n, idField side q b1 b2 s =
        (some (q + 160), recordId s n ([0xA1, b1, b2, 0xFE] ++ decodedBytes (mfmByte s side) (q + 64) 16 6) (s.dec.wp + 3)) ∧
      n.val = s.dec.n ∧ q + 160 ≤ nbits s ∧ s.dec.wp + 10 ≤ s.cfg.trkCap) ∨
    (idField side q b1 b2 s = (none, dropId s) ∧
      ¬(q + 160 ≤ nbits s ∧ s.dec.wp + 10 ≤ s.cfg.trkCap ∧ s.dec.n < 128)) := by
  unfold idField
  simp only
  split
  · rename_i h
    exact .inl ⟨⟨s.dec.n, h.2.2⟩, rfl, rfl, by omega, h.2.1⟩
  · rename_i h
    exact .inr ⟨rfl, fun hh => h ⟨by omega, hh.2⟩⟩

/-- Rule R129: `DEC.DATAFIELD` captures the field, or answers Fail and changes nothing. -/
theorem dataField_cases {s : State} (hs : SizeInBuffer s) (side : Bool) (q : Nat) (b1 b2 b3 : Byte) :
    (∃ c, s.dec.cur = some c ∧ s.cache.dam[c] = none ∧
      ∃ size, size = 128 * 2 ^ ((s.cache.trk.read (s.cache.idam[c] + 4)).toNat % 4) ∧
      q + 64 + 16 * (size + 2) ≤ nbits s ∧ s.dec.wp + 4 + size + 2 ≤ s.cfg.trkCap ∧
      dataField side q b1 b2 b3 s = .ok (some (q + 64 + 16 * (size + 2)),
        recordData s c ([0xA1, b1, b2, b3] ++ decodedBytes (mfmByte s side) (q + 64) 16 (size + 2)) (s.dec.wp + 3))) ∨
    dataField side q b1 b2 b3 s = .ok (none, s) := by
  unfold dataField
  cases hc : s.dec.cur with
  | none => exact .inr rfl
  | some c =>
    simp only
    split
    · exact .inr rfl
    · rename_i hd
      rw [dataSize_ok (hs c hc)]
      simp only [bind, Except.bind]
      split
      · rename_i h
        exact .inl ⟨c, rfl, by simpa using hd, _, rfl, h.1, h.2, rfl⟩
      · exact .inr rfl

/-- One turn of `DEC.TRACK`, on a sync word at `q`. -/
theorem mfmTurn_cases {s : State} (hs : SizeInBuffer s) (side : Bool) (q : Nat) :
    (∃ n b1 b2, markAt s side q = .id b1 b2 ∧ n.val = s.dec.n ∧ q + 160 ≤ nbits s ∧ s.dec.wp + 10 ≤ s.cfg.trkCap ∧
      mfmTurn side q s = .ok (some (q + 160),
        recordId s n ([0xA1, b1, b2, 0xFE] ++ decodedBytes (mfmByte s side) (q + 64) 16 6) (s.dec.wp + 3))) ∨
    (∃ c b1 b2 b3 size, markAt s side q = .data b1 b2 b3 ∧ s.dec.cur = some c ∧ s.cache.dam[c] = none ∧
      size = 128 * 2 ^ ((s.cache.trk.read (s.cache.idam[c] + 4)).toNat % 4) ∧
      q + 64 + 16 * (size + 2) ≤ nbits s ∧ s.dec.wp + 4 + size + 2 ≤ s.cfg.trkCap ∧
      mfmTurn side q s = .ok (some (q + 64 + 16 * (size + 2)),
        recordData s c ([0xA1, b1, b2, b3] ++ decodedBytes (mfmByte s side) (q + 64) 16 (size + 2)) (s.dec.wp + 3))) ∨
    (mfmTurn side q s = .ok (none, s) ∧ ∀ b1 b2, markAt s side q ≠ .id b1 b2) ∨
    (mfmTurn side q s = .ok (none, dropId s) ∧
      ¬(q + 160 ≤ nbits s ∧ s.dec.wp + 10 ≤ s.cfg.trkCap ∧ s.dec.n < 128)) := by
  unfold mfmTurn
  cases hm : markAt s side q with
  | fail => exact .inr (.inr (.inl ⟨rfl, nofun⟩))
  | id b1 b2 =>
    rcases idField_cases side q b1 b2 s with ⟨n, h1, h2, h3, h4⟩ | ⟨h1, h2⟩
    · exact .inl ⟨n, b1, b2, rfl, h2, h3, h4, by simp only [h1]⟩
    · exact .inr (.inr (.inr ⟨by simp only [h1], h2⟩))
  | data b1 b2 b3 =>
    rcases dataField_cases hs side q b1 b2 b3 with ⟨c, h1, h2, size, h3, h4, h5, h6⟩ | h
    · exact .inr (.inl ⟨c, b1, b2, b3, size, rfl, h1, h2, h3, h4, h5, h6⟩)
    · exact .inr (.inr (.inl ⟨h, nofun⟩))

/-- One turn of `DEC.FMTRACK`, on a mark at `q` (rule R135). -/
theorem fmTurn_cases {s : State} (hs : SizeInBuffer s) (side : Bool) (q : Nat) :
    (∃ n, n.val = s.dec.n ∧ s.dec.wp + 7 ≤ s.cfg.trkCap ∧
      fmTurn side q s = .ok (some (q + 16 * s.cfg.fmStride + 6 * (16 * s.cfg.fmStride)),
        recordId s n (0xFE :: decodedBytes (fmByte s side) (q + 16 * s.cfg.fmStride) (16 * s.cfg.fmStride) 6) s.dec.wp)) ∨
    (∃ c m size, (m = 0xFB ∨ m = 0xF8) ∧ s.dec.cur = some c ∧ s.cache.dam[c] = none ∧
      size = 128 * 2 ^ ((s.cache.trk.read (s.cache.idam[c] + 4)).toNat % 4) ∧
      s.dec.wp + 1 + size + 2 ≤ s.cfg.trkCap ∧
      fmTurn side q s = .ok (some (q + 16 * s.cfg.fmStride + (size + 2) * (16 * s.cfg.fmStride)),
        recordData s c (m :: decodedBytes (fmByte s side) (q + 16 * s.cfg.fmStride) (16 * s.cfg.fmStride) (size + 2))
          s.dec.wp)) ∨
    fmTurn side q s = .ok (none, s) ∨ fmTurn side q s = .ok (none, dropId s) := by
  unfold fmTurn
  simp only
  split
  · split
    · rename_i h
      exact .inl ⟨⟨s.dec.n, h.1⟩, rfl, h.2.2, rfl⟩
    · exact .inr (.inr (.inr rfl))
  · split
    · rename_i hm
      cases hc : s.dec.cur with
      | none => exact .inr (.inr (.inl rfl))
      | some c =>
        simp only
        split
        · exact .inr (.inr (.inl rfl))
        · rename_i hd
          rw [dataSize_ok (hs c hc)]
          simp only [bind, Except.bind]
          split
          · rename_i h
            exact .inr (.inl ⟨c, _, _, hm, rfl, by simpa using hd, rfl, h.2, rfl⟩)
          · exact .inr (.inr (.inl rfl))
    · exact .inr (.inr (.inl rfl))

/-! ## What every turn keeps -/

/-- What holds at every turn of a decoding loop that started from `s0`: only TRK, the tables and the DEC unit have changed, the cursors
are in range, the bytes below 256 are zero and those from the write cursor on untouched. -/
structure LoopInv (s0 s : State) : Prop where
  frame : s = { s0 with
    cache := { s0.cache with trk := s.cache.trk, idam := s.cache.idam, dam := s.cache.dam }
    dec := s.dec }
  canon : s0.cache.trk.wf = true → s.cache.trk.wf = true
  low : 256 ≤ s.dec.wp
  high : s.dec.wp ≤ max 256 s0.cfg.trkCap
  count : s.dec.n ≤ 128
  cur : ∀ c, s.dec.cur = some c → c.val + 1 = s.dec.n ∧ s.cache.idam[c] + 7 ≤ s.dec.wp ∧ s.dec.wp ≤ s0.cfg.trkCap
  zero : ∀ a, a < 256 → s.cache.trk.read a = 0
  beyond : ∀ a, s.dec.wp ≤ a → s.cache.trk.read a = s0.cache.trk.read a
  empty : ∀ i : Fin 128, s.dec.n ≤ i.val → s.cache.idam[i] = 0 ∧ s.cache.dam[i] = none

theorem LoopInv.flux {s0 s : State} (h : LoopInv s0 s) : s.flux = s0.flux := by rw [h.frame]
theorem LoopInv.fluxLen {s0 s : State} (h : LoopInv s0 s) : s.fluxLen = s0.fluxLen := by rw [h.frame]
theorem LoopInv.cfg {s0 s : State} (h : LoopInv s0 s) : s.cfg = s0.cfg := by rw [h.frame]
theorem LoopInv.nbits {s0 s : State} (h : LoopInv s0 s) : nbits s = nbits s0 := by simp [Machine.nbits, h.fluxLen]

theorem LoopInv.sizeInBuffer {s0 s : State} (h : LoopInv s0 s) : SizeInBuffer s := fun c hc => by
  have := h.cur c hc
  rw [h.cfg]
  omega

/-- A loop starts with it. -/
theorem LoopInv.start (side : Bool) (mode : Encoding) (s : State) :
    LoopInv (startDecode side mode s) (startDecode side mode s) where
  frame := rfl
  canon := id
  low := Nat.le_refl _
  high := Nat.le_max_left _ _
  count := Nat.zero_le _
  cur := fun c hc => by simp [startDecode] at hc
  zero := fun a ha => by simp [startDecode, Memory.read_clear, ha]
  beyond := fun _ _ => rfl
  empty := fun i _ => by simp only [startDecode, emptyIdam_get, emptyDam_get, and_self]

/-- A captured ID field keeps it. -/
theorem LoopInv.id {s0 s : State} (h : LoopInv s0 s) {n : Fin 128} {bytes : List Byte} {mark : Nat} (hn : n.val = s.dec.n)
    (hroom : s.dec.wp + bytes.length ≤ s.cfg.trkCap) (hmark : mark + 7 ≤ bytes.length) :
    LoopInv s0 (recordId s n bytes (s.dec.wp + mark)) where
  frame := by
    conv_lhs => rw [recordId, h.frame]
    rfl
  canon := fun hw => Memory.wf_writeBlock (h.canon hw) _ _
  low := Nat.le_trans h.low (Nat.le_add_right _ _)
  high := Nat.le_trans (by rw [← h.cfg]; exact hroom) (Nat.le_max_right _ _)
  count := by
    have := n.isLt
    show s.dec.n + 1 ≤ 128
    omega
  cur := fun c hc => by
    have hc' : n = c := by simpa [recordId] using hc
    subst hc'
    refine ⟨by simp [recordId, hn], ?_, by rw [← h.cfg]; exact hroom⟩
    show (s.cache.idam.set n (s.dec.wp + mark))[n] + 7 ≤ s.dec.wp + bytes.length
    rw [set_get, if_pos rfl]
    omega
  zero := fun a ha => by
    have := h.low
    show (s.cache.trk.writeBlock s.dec.wp bytes).read a = 0
    rw [Memory.read_writeBlock, if_neg (by omega)]
    exact h.zero a ha
  beyond := fun a ha => by
    have ha' : s.dec.wp + bytes.length ≤ a := ha
    show (s.cache.trk.writeBlock s.dec.wp bytes).read a = _
    rw [Memory.read_writeBlock, if_neg (by omega)]
    exact h.beyond a (by omega)
  empty := fun i hi => by
    have hi' : s.dec.n + 1 ≤ i.val := hi
    have hne : i ≠ n := by intro e; subst e; omega
    show (s.cache.idam.set n (s.dec.wp + mark))[i] = 0 ∧ (s.cache.dam.set n none)[i] = none
    rw [set_get, set_get, if_neg hne, if_neg hne]
    exact h.empty i (by omega)

/-- A captured data field keeps it. -/
theorem LoopInv.data {s0 s : State} (h : LoopInv s0 s) {c : Fin 128} {bytes : List Byte} {off : Nat} (hc : s.dec.cur = some c)
    (hroom : s.dec.wp + bytes.length ≤ s.cfg.trkCap) : LoopInv s0 (recordData s c bytes off) where
  frame := by
    conv_lhs => rw [recordData, h.frame]
    rfl
  canon := fun hw => Memory.wf_writeBlock (h.canon hw) _ _
  low := Nat.le_trans h.low (Nat.le_add_right _ _)
  high := Nat.le_trans (by rw [← h.cfg]; exact hroom) (Nat.le_max_right _ _)
  count := h.count
  cur := fun c' hc' => by
    have := h.cur c' hc'
    refine ⟨this.1, ?_, by rw [← h.cfg]; exact hroom⟩
    show s.cache.idam[c'] + 7 ≤ s.dec.wp + bytes.length
    omega
  zero := fun a ha => by
    have := h.low
    show (s.cache.trk.writeBlock s.dec.wp bytes).read a = 0
    rw [Memory.read_writeBlock, if_neg (by omega)]
    exact h.zero a ha
  beyond := fun a ha => by
    have ha' : s.dec.wp + bytes.length ≤ a := ha
    show (s.cache.trk.writeBlock s.dec.wp bytes).read a = _
    rw [Memory.read_writeBlock, if_neg (by omega)]
    exact h.beyond a (by omega)
  empty := fun i hi => by
    have hne : i ≠ c := by
      have := (h.cur c hc).1
      have hi' : s.dec.n ≤ i.val := hi
      intro e; subst e; omega
    show s.cache.idam[i] = 0 ∧ (s.cache.dam.set c (some off))[i] = none
    rw [set_get, if_neg hne]
    exact h.empty i hi

/-- Forgetting the current slot of a full table keeps it. -/
theorem LoopInv.drop {s0 s : State} (h : LoopInv s0 s) : LoopInv s0 (dropId s) := by
  unfold dropId
  split
  · exact ⟨by conv_lhs => rw [h.frame], h.canon, h.low, h.high, h.count, fun c hc => by simp at hc, h.zero, h.beyond, h.empty⟩
  · exact h

/-- Moving the scan position keeps it. -/
theorem LoopInv.resume {s0 s : State} (h : LoopInv s0 s) (q : Nat) (r : Option Nat) : LoopInv s0 (resumeAt q r s) :=
  ⟨by conv_lhs => rw [resumeAt, h.frame]
      rfl, h.canon, h.low, h.high, h.count, h.cur, h.zero, h.beyond, h.empty⟩

@[simp] theorem dropId_p (s : State) : (dropId s).dec.p = s.dec.p := by unfold dropId; split <;> rfl
@[simp] theorem dropId_wp (s : State) : (dropId s).dec.wp = s.dec.wp := by unfold dropId; split <;> rfl
@[simp] theorem dropId_n (s : State) : (dropId s).dec.n = s.dec.n := by unfold dropId; split <;> rfl
@[simp] theorem dropId_cache (s : State) : (dropId s).cache = s.cache := by unfold dropId; split <;> rfl

/-- A turn of `DEC.TRACK` keeps it and moves the scan position up. -/
theorem mfmTurn_keeps {s0 s : State} (h : LoopInv s0 s) {side : Bool} {q : Nat} (hq : s.dec.p ≤ q) :
    ∃ r s', mfmTurn side q s = .ok (r, s') ∧ LoopInv s0 (resumeAt q r s') ∧ s.dec.p < (resumeAt q r s').dec.p := by
  rcases mfmTurn_cases h.sizeInBuffer side q with ⟨n, b1, b2, -, hn, -, hr, e⟩ |
    ⟨c, b1, b2, b3, size, -, hc, -, -, -, hr, e⟩ | ⟨e, -⟩ | ⟨e, -⟩
  · exact ⟨_, _, e, (h.id hn (by simpa using hr) (by simp)).resume _ _, by simp only [resumeAt, Option.getD_some]; omega⟩
  · exact ⟨_, _, e, (h.data hc (by simp; omega)).resume _ _, by simp only [resumeAt, Option.getD_some]; omega⟩
  · exact ⟨_, _, e, h.resume _ _, by simp only [resumeAt, Option.getD_none]; omega⟩
  · exact ⟨_, _, e, h.drop.resume _ _, by simp only [resumeAt, Option.getD_none]; omega⟩

/-- A turn of `DEC.FMTRACK` keeps it and moves the scan position up. -/
theorem fmTurn_keeps {s0 s : State} (h : LoopInv s0 s) {side : Bool} {q : Nat} (hq : s.dec.p ≤ q) :
    ∃ r s', fmTurn side q s = .ok (r, s') ∧ LoopInv s0 (resumeAt q r s') ∧
      (0 < s.cfg.fmStride → s.dec.p < (resumeAt q r s').dec.p) := by
  rcases fmTurn_cases h.sizeInBuffer side q with ⟨n, hn, hr, e⟩ | ⟨c, m, size, -, hc, -, -, hr, e⟩ | e | e
  · exact ⟨_, _, e, (h.id (mark := 0) hn (by simpa using hr) (by simp)).resume _ _,
      fun _ => by simp only [resumeAt, Option.getD_some]; omega⟩
  · exact ⟨_, _, e, (h.data hc (by simp; omega)).resume _ _, fun _ => by
      simp only [resumeAt, Option.getD_some]
      have := Nat.le_add_right (q + 16 * s.cfg.fmStride) ((size + 2) * (16 * s.cfg.fmStride))
      omega⟩
  · exact ⟨_, _, e, h.resume _ _, fun _ => by simp only [resumeAt, Option.getD_none]; omega⟩
  · exact ⟨_, _, e, h.drop.resume _ _, fun _ => by simp only [resumeAt, Option.getD_none]; omega⟩

/-! ## The whole track -/

/-- `DEC.TRACK` completes on every stream, keeps the loop's invariant, and stops only where no sync word is left (rules R130, R131). -/
theorem decodeTrack_spec (side : Bool) (s : State) :
    ∃ t, decodeTrack side s = .ok (endDecode 3 t) ∧ LoopInv (startDecode side .mfm s) t ∧
      syncScan t side t.dec.p = none := by
  obtain ⟨t, h1, h2, h3⟩ := mfmLoop_induct (side := side) (P := LoopInv (startDecode side .mfm s)) (bits := nbits s)
    (fun u hu => hu.nbits) (fun u q hu hq => mfmTurn_keeps hu (syncScan_some hq).1) (nbits s) _ (LoopInv.start side .mfm s)
  refine ⟨t, ?_, h2, h3 (Nat.le_add_right _ _)⟩
  simp only [decodeTrack, h1, bind, Except.bind]

/-- `DEC.FMTRACK` completes on every stream and keeps the loop's invariant (rule R135). -/
theorem decodeFmTrack_spec (side : Bool) (s : State) :
    ∃ t, decodeFmTrack side s = .ok (endDecode 0 t) ∧ LoopInv (startDecode side .fm s) t ∧
      (0 < s.cfg.fmStride → fmScan t side t.dec.p = none) := by
  obtain ⟨t, h1, h2, h3⟩ := fmLoop_induct (side := side) (P := LoopInv (startDecode side .fm s)) (bits := nbits s)
    (stride := s.cfg.fmStride) (fun u hu => hu.nbits) (fun u hu => congrArg Config.fmStride hu.cfg)
    (fun u q hu hq => by
      obtain ⟨r, s', a, b, c⟩ := fmTurn_keeps hu (fmScan_some hq).1
      exact ⟨r, s', a, b, fun h0 => c (by rw [hu.cfg]; exact h0)⟩)
    (nbits s) _ (LoopInv.start side .fm s)
  refine ⟨t, ?_, h2, fun h0 => h3 h0 (Nat.le_add_right _ _)⟩
  simp only [decodeFmTrack, h1, bind, Except.bind]

end Sys2Proof.Machine
end

