-- ==== Sys2Proof/Laws/Track.lean ====
section
/-! SUPPORT. What the slots of a decoded track hold: where the fields lie (rules R128, R129, R132, R135), and where in the flux they
came from (rules R125, R127 to R131). -/

namespace Sys2Proof.Machine

/-- The payload size of slot `i`, from the size code of its ID field (rule R150). -/
def slotSize (c : Cache) (i : Fin 128) : Nat := 128 * 2 ^ ((c.trk.read (c.idam[i] + 4)).toNat % 4)

/-- The fields of the slots below `n` lie one after the other, each with its `pre` sync bytes before it, up to the write cursor. -/
structure Layout (pre : Nat) (s : State) : Prop where
  id : ∀ i : Fin 128, i.val < s.dec.n → 256 + pre ≤ s.cache.idam[i] ∧ s.cache.idam[i] + 7 ≤ s.dec.wp
  data : ∀ (i : Fin 128) (d : Nat), i.val < s.dec.n → s.cache.dam[i] = some d →
    s.cache.idam[i] + 7 + pre ≤ d ∧ d + 1 + (slotSize s.cache i + 2) ≤ s.dec.wp
  order : ∀ i j : Fin 128, i.val + 1 = j.val → j.val < s.dec.n →
    s.cache.idam[i] + 7 + pre ≤ s.cache.idam[j] ∧
      ∀ d, s.cache.dam[i] = some d → d + 1 + (slotSize s.cache i + 2) + pre ≤ s.cache.idam[j]

/-- A captured field leaves every byte below the write cursor. -/
theorem read_below_writeBlock (m : Memory) (wp a : Nat) (bs : List Byte) (h : a < wp) :
    (m.writeBlock wp bs).read a = m.read a := by
  rw [Memory.read_writeBlock, if_neg (by omega)]

theorem recordId_idam (s : State) (n i : Fin 128) (bs : List Byte) (m : Nat) :
    (recordId s n bs m).cache.idam[i] = if i = n then m else s.cache.idam[i] := set_get _ _ _ _

theorem recordId_dam (s : State) (n i : Fin 128) (bs : List Byte) (m : Nat) :
    (recordId s n bs m).cache.dam[i] = if i = n then none else s.cache.dam[i] := set_get _ _ _ _

theorem recordData_dam (s : State) (c i : Fin 128) (bs : List Byte) (m : Nat) :
    (recordData s c bs m).cache.dam[i] = if i = c then some m else s.cache.dam[i] := set_get _ _ _ _

/-- The size of an older slot does not change when a field is captured. -/
theorem recordId_slotSize {s : State} {n i : Fin 128} {bs : List Byte} {m : Nat} (hne : i ≠ n)
    (h : s.cache.idam[i] + 7 ≤ s.dec.wp) : slotSize (recordId s n bs m).cache i = slotSize s.cache i := by
  unfold slotSize
  rw [recordId_idam, if_neg hne]
  show 128 * 2 ^ (((s.cache.trk.writeBlock s.dec.wp bs).read _).toNat % 4) = _
  rw [read_below_writeBlock _ _ _ _ (by omega)]

theorem recordData_slotSize {s : State} {c i : Fin 128} {bs : List Byte} {m : Nat}
    (h : s.cache.idam[i] + 7 ≤ s.dec.wp) : slotSize (recordData s c bs m).cache i = slotSize s.cache i := by
  show 128 * 2 ^ (((s.cache.trk.writeBlock s.dec.wp bs).read (s.cache.idam[i] + 4)).toNat % 4) = _
  rw [read_below_writeBlock _ _ _ _ (by omega)]
  rfl

/-- A captured ID field keeps the layout. -/
theorem Layout.recordId {pre : Nat} {s : State} (h : Layout pre s) {n : Fin 128} {bs : List Byte} (hn : n.val = s.dec.n)
    (hw : 256 ≤ s.dec.wp) (hl : bs.length = pre + 7) : Layout pre (recordId s n bs (s.dec.wp + pre)) where
  id := fun i hi => by
    have hi' : i.val < s.dec.n + 1 := hi
    show _ ∧ _ ≤ s.dec.wp + bs.length
    rw [recordId_idam]
    split
    · omega
    · rename_i hne
      have hv : i.val ≠ n.val := fun e => hne (Fin.ext e)
      have := h.id i (by omega)
      omega
  data := fun i d hi hd => by
    have hi' : i.val < s.dec.n + 1 := hi
    rw [recordId_dam] at hd
    split at hd
    · cases hd
    · rename_i hne
      have hv : i.val ≠ n.val := fun e => hne (Fin.ext e)
      have h1 := h.id i (by omega)
      have h2 := h.data i d (by omega) hd
      rw [recordId_slotSize hne h1.2, recordId_idam, if_neg hne]
      show _ ∧ _ ≤ s.dec.wp + bs.length
      omega
  order := fun i j hij hj => by
    have hj' : j.val < s.dec.n + 1 := hj
    have hne : i ≠ n := fun e => by subst e; omega
    have h1 := h.id i (by omega)
    rw [recordId_idam, recordId_idam, if_neg hne, recordId_dam, if_neg hne]
    split
    · refine ⟨by omega, fun d hd => ?_⟩
      have h2 := h.data i d (by omega) hd
      rw [recordId_slotSize hne h1.2]
      omega
    · rename_i hjn
      have hv : j.val ≠ n.val := fun e => hjn (Fin.ext e)
      have h3 := h.order i j hij (by omega)
      refine ⟨h3.1, fun d hd => ?_⟩
      rw [recordId_slotSize hne h1.2]
      exact h3.2 d hd

/-- A captured data field keeps the layout. -/
theorem Layout.recordData {pre : Nat} {s : State} (h : Layout pre s) {c : Fin 128} {bs : List Byte} (hc : c.val + 1 = s.dec.n)
    (hl : bs.length = pre + 1 + (slotSize s.cache c + 2)) : Layout pre (recordData s c bs (s.dec.wp + pre)) where
  id := fun i hi => by
    have := h.id i hi
    show 256 + pre ≤ s.cache.idam[i] ∧ s.cache.idam[i] + 7 ≤ s.dec.wp + bs.length
    omega
  data := fun i d hi hd => by
    have h1 := h.id i hi
    rw [recordData_slotSize h1.2]
    show s.cache.idam[i] + 7 + pre ≤ d ∧ _ ≤ s.dec.wp + bs.length
    rw [recordData_dam] at hd
    split at hd
    · rename_i e
      subst e
      cases hd
      omega
    · have h2 := h.data i d hi hd
      omega
  order := fun i j hij hj => by
    have hj' : j.val < s.dec.n := hj
    have hne : i ≠ c := fun e => by subst e; omega
    have h1 := h.id i (by omega)
    have h3 := h.order i j hij hj
    rw [recordData_dam, if_neg hne, recordData_slotSize h1.2]
    exact h3

theorem Layout.drop {pre : Nat} {s : State} (h : Layout pre s) : Layout pre (dropId s) := by
  unfold dropId
  split
  · exact ⟨h.id, h.data, h.order⟩
  · exact h

theorem Layout.resume {pre : Nat} {s : State} (h : Layout pre s) (q : Nat) (r : Option Nat) : Layout pre (resumeAt q r s) :=
  ⟨h.id, h.data, h.order⟩

theorem Layout.start (pre : Nat) (side : Bool) (mode : Encoding) (s : State) : Layout pre (startDecode side mode s) :=
  ⟨fun _ hi => absurd hi (Nat.not_lt_zero _), fun _ _ hi => absurd hi (Nat.not_lt_zero _),
    fun _ _ _ hj => absurd hj (Nat.not_lt_zero _)⟩

/-! ## MFM: where the fields stand in the flux -/

/-- Slot `i` was captured from the sync word at `q`, its data field, if it has one, from the later sync word at `dq`, and the scan went
on at `e` (rules R125, R127 to R130). -/
structure FromFlux (s0 : State) (side : Bool) (c : Cache) (i : Fin 128) (q dq e : Nat) : Prop where
  sync : wordAt s0 side q = mfmSync
  mark : markAt s0 side q = .id (c.trk.read (c.idam[i] - 2)) (c.trk.read (c.idam[i] - 1))
  first : c.trk.read (c.idam[i] - 3) = 0xA1
  fe : c.trk.read c.idam[i] = 0xFE
  bytes : ∀ k, k < 6 → c.trk.read (c.idam[i] + 1 + k) = mfmByte s0 side (q + 64 + 16 * k)
  stop : q + 160 ≤ e
  data : ∀ d, c.dam[i] = some d → q + 160 ≤ dq ∧ wordAt s0 side dq = mfmSync ∧
    markAt s0 side dq = .data (c.trk.read (d - 2)) (c.trk.read (d - 1)) (c.trk.read d) ∧
    (∀ k, k < slotSize c i + 2 → c.trk.read (d + 1 + k) = mfmByte s0 side (dq + 64 + 16 * k)) ∧
    e = dq + 64 + 16 * (slotSize c i + 2)

/-- Every slot recorded so far comes from the flux before the scan position, the slots one after the other; and while there is room, an
ID field the scan has passed is recorded or stands inside one that is (rule R132). -/
def AllFromFlux (s0 : State) (side : Bool) (s : State) : Prop :=
  ∃ pos dpos fin : Fin 128 → Nat,
    (∀ i : Fin 128, i.val < s.dec.n → FromFlux s0 side s.cache i (pos i) (dpos i) (fin i) ∧ fin i ≤ s.dec.p ∧
      ∀ j : Fin 128, i < j → j.val < s.dec.n → fin i ≤ pos j) ∧
    ∀ q b1 b2, q < s.dec.p → wordAt s0 side q = mfmSync → markAt s0 side q = .id b1 b2 → q + 160 ≤ nbits s0 → s.dec.n < 128 →
      s.dec.wp + 10 ≤ s0.cfg.trkCap → ∃ i : Fin 128, i.val < s.dec.n ∧
        (pos i = q ∨ (pos i < q ∧ q < pos i + 160) ∨ (s.cache.dam[i] ≠ none ∧ dpos i < q ∧ q < fin i))

/-- Bytes of a list written at `wp`, one by one. -/
theorem read_written (m : Memory) (wp k : Nat) (bs : List Byte) (h : k < bs.length) :
    (m.writeBlock wp bs).read (wp + k) = bs.getD k 0 := by
  rw [Memory.read_writeBlock, if_pos (by omega), Nat.add_sub_cancel_left]

/-- A slot keeps its origin when a memory agrees with its own below the write cursor. -/
theorem FromFlux.keep {pre : Nat} {s0 s : State} {side : Bool} {i : Fin 128} {q dq e : Nat} (h : FromFlux s0 side s.cache i q dq e)
    (hl : Layout pre s) (hi : i.val < s.dec.n) {c : Cache} (hid : c.idam[i] = s.cache.idam[i]) (hdam : c.dam[i] = s.cache.dam[i])
    (ht : ∀ a, a < s.dec.wp → c.trk.read a = s.cache.trk.read a) : FromFlux s0 side c i q dq e := by
  have h1 := hl.id i hi
  have hsz : slotSize c i = slotSize s.cache i := by
    unfold slotSize
    rw [hid, ht _ (by omega)]
  refine ⟨h.sync, ?_, ?_, ?_, fun k hk => ?_, h.stop, fun d hd => ?_⟩
  · rw [hid, ht _ (by omega), ht _ (by omega)]; exact h.mark
  · rw [hid, ht _ (by omega)]; exact h.first
  · rw [hid, ht _ (by omega)]; exact h.fe
  · rw [hid, ht _ (by omega)]; exact h.bytes k hk
  · rw [hdam] at hd
    have h2 := hl.data i d hi hd
    obtain ⟨a, b, m, f, g⟩ := h.data d hd
    rw [hsz]
    refine ⟨a, b, ?_, fun k hk => ?_, g⟩
    · rw [ht _ (by omega), ht _ (by omega), ht _ (by omega)]; exact m
    · rw [ht _ (by omega)]
      exact f k hk

/-- What `DEC.IDFIELD` captures comes from the sync word it was given. -/
theorem FromFlux.recordId {s0 s : State} {side : Bool} (hfl : s.flux = s0.flux) (hfn : s.fluxLen = s0.fluxLen) {n : Fin 128} {q : Nat}
    {b1 b2 : Byte} (hw : wordAt s0 side q = mfmSync) (hm : markAt s0 side q = .id b1 b2) (dq : Nat) :
    FromFlux s0 side (recordId s n ([0xA1, b1, b2, 0xFE] ++ decodedBytes (mfmByte s side) (q + 64) 16 6) (s.dec.wp + 3)).cache n q dq
      (q + 160) := by
  have hid : (Machine.recordId s n ([0xA1, b1, b2, 0xFE] ++ decodedBytes (mfmByte s side) (q + 64) 16 6) (s.dec.wp + 3)).cache.idam[n]
      = s.dec.wp + 3 := by rw [recordId_idam, if_pos rfl]
  have hrd : ∀ k, k < 10 →
      (Machine.recordId s n ([0xA1, b1, b2, 0xFE] ++ decodedBytes (mfmByte s side) (q + 64) 16 6) (s.dec.wp + 3)).cache.trk.read
        (s.dec.wp + k) = ([0xA1, b1, b2, 0xFE] ++ decodedBytes (mfmByte s side) (q + 64) 16 6).getD k 0 :=
    fun k hk => read_written _ _ _ _ (by simpa using hk)
  refine ⟨hw, ?_, ?_, ?_, fun k hk => ?_, Nat.le_refl _, fun d hd => ?_⟩
  · rw [hid, show s.dec.wp + 3 - 2 = s.dec.wp + 1 by omega, show s.dec.wp + 3 - 1 = s.dec.wp + 2 by omega, hrd 1 (by omega),
      hrd 2 (by omega)]
    exact hm
  · rw [hid]; exact hrd 0 (by omega)
  · rw [hid]; exact hrd 3 (by omega)
  · rw [hid, show s.dec.wp + 3 + 1 + k = s.dec.wp + (4 + k) by omega, hrd (4 + k) (by omega),
      List.getD_append_right _ _ _ _ (by simp), ← mfmByte_congr hfl hfn,
      show 4 + k - [0xA1, b1, b2, (0xFE : Byte)].length = k by simp, decodedBytes_getD _ _ _ _ _ hk, Nat.mul_comm 16 k]
  · rw [recordId_dam, if_pos rfl] at hd
    cases hd

/-- What `DEC.DATAFIELD` captures comes from the sync word it was given. -/
theorem FromFlux.recordData {s0 s : State} {side : Bool} (hfl : s.flux = s0.flux) (hfn : s.fluxLen = s0.fluxLen) {c : Fin 128}
    {q q1 dq e size : Nat} {b1 b2 b3 : Byte} (h : FromFlux s0 side s.cache c q1 dq e) (hl : Layout 3 s) (hc : c.val < s.dec.n)
    (hsize : size = slotSize s.cache c) (hq : q1 + 160 ≤ q) (hw : wordAt s0 side q = mfmSync)
    (hm : markAt s0 side q = .data b1 b2 b3) :
    FromFlux s0 side (recordData s c ([0xA1, b1, b2, b3] ++ decodedBytes (mfmByte s side) (q + 64) 16 (size + 2)) (s.dec.wp + 3)).cache
      c q1 q (q + 64 + 16 * (size + 2)) := by
  have hci := hl.id c hc
  have hrd : ∀ k, k < size + 6 →
      (s.cache.trk.writeBlock s.dec.wp ([0xA1, b1, b2, b3] ++ decodedBytes (mfmByte s side) (q + 64) 16 (size + 2))).read
        (s.dec.wp + k) = ([0xA1, b1, b2, b3] ++ decodedBytes (mfmByte s side) (q + 64) 16 (size + 2)).getD k 0 :=
    fun k hk => read_written _ _ _ _ (by simp; omega)
  have hlow : ∀ a, a < s.dec.wp → (s.cache.trk.writeBlock s.dec.wp ([0xA1, b1, b2, b3] ++
      decodedBytes (mfmByte s side) (q + 64) 16 (size + 2))).read a = s.cache.trk.read a :=
    fun a ha => read_below_writeBlock _ _ _ _ ha
  refine ⟨h.sync, ?_, ?_, ?_, fun k hk => ?_, by omega, fun d hd => ?_⟩
  · show _ = DecMark.id ((s.cache.trk.writeBlock s.dec.wp _).read (s.cache.idam[c] - 2))
      ((s.cache.trk.writeBlock s.dec.wp _).read (s.cache.idam[c] - 1))
    rw [hlow _ (by omega), hlow _ (by omega)]; exact h.mark
  · show (s.cache.trk.writeBlock s.dec.wp _).read (s.cache.idam[c] - 3) = _
    rw [hlow _ (by omega)]; exact h.first
  · show (s.cache.trk.writeBlock s.dec.wp _).read s.cache.idam[c] = _
    rw [hlow _ (by omega)]; exact h.fe
  · show (s.cache.trk.writeBlock s.dec.wp _).read (s.cache.idam[c] + 1 + k) = _
    rw [hlow _ (by omega)]; exact h.bytes k hk
  · rw [recordData_dam, if_pos rfl] at hd
    cases hd
    rw [recordData_slotSize hci.2, ← hsize]
    refine ⟨hq, hw, ?_, fun k hk => ?_, rfl⟩
    · refine hm.trans ?_
      show _ = DecMark.data ((s.cache.trk.writeBlock s.dec.wp _).read (s.dec.wp + 1))
        ((s.cache.trk.writeBlock s.dec.wp _).read (s.dec.wp + 2)) ((s.cache.trk.writeBlock s.dec.wp _).read (s.dec.wp + 3))
      rw [hrd 1 (by omega), hrd 2 (by omega), hrd 3 (by omega)]
      rfl
    · show (s.cache.trk.writeBlock s.dec.wp _).read (s.dec.wp + 3 + 1 + k) = _
      rw [show s.dec.wp + 3 + 1 + k = s.dec.wp + (4 + k) by omega]
      refine (hrd (4 + k) (by omega)).trans ?_
      rw [List.getD_append_right _ _ _ _ (by simp), ← mfmByte_congr hfl hfn,
        show 4 + k - [0xA1, b1, b2, b3].length = k by simp, decodedBytes_getD _ _ _ _ _ hk, Nat.mul_comm 16 k]

/-- One turn of `DEC.TRACK` keeps where every field lies and where it comes from, and passes no ID field for which there is room. -/
theorem mfmTurn_fields {s0 s : State} (h : LoopInv s0 s) (hl : Layout 3 s) {side : Bool} (hf : AllFromFlux s0 side s) {q : Nat}
    (hq : s.dec.p ≤ q) (hw : wordAt s side q = mfmSync) (hno : ∀ j, s.dec.p ≤ j → j < q → wordAt s side j ≠ mfmSync) :
    ∃ r s', mfmTurn side q s = .ok (r, s') ∧ LoopInv s0 (resumeAt q r s') ∧ Layout 3 (resumeAt q r s') ∧
      AllFromFlux s0 side (resumeAt q r s') ∧ s.dec.p < (resumeAt q r s').dec.p := by
  have hwc : ∀ j, wordAt s side j = wordAt s0 side j := fun j => wordAt_congr h.flux h.fluxLen side j
  have hw0 : wordAt s0 side q = mfmSync := by rw [← hwc]; exact hw
  have before : ∀ x, x < q → wordAt s0 side x = mfmSync → x < s.dec.p := fun x hx hs => by
    by_contra hc
    exact hno x (by omega) hx (by rw [hwc]; exact hs)
  obtain ⟨pos, dpos, fin, hslots, hmet⟩ := hf
  rcases mfmTurn_cases h.sizeInBuffer side q with ⟨n, b1, b2, hm, hn, -, hr, e⟩ |
    ⟨c, b1, b2, b3, size, hm, hc, hdn, hsize, -, hr, e⟩ | ⟨e, hid⟩ | ⟨e, hfull⟩
  · refine ⟨_, _, e, (h.id hn (by simpa using hr) (by simp)).resume _ _,
      (hl.recordId hn h.low (by simp)).resume _ _, ?_, by simp only [resumeAt, Option.getD_some]; omega⟩
    rw [markAt_congr h.flux h.fluxLen] at hm
    refine ⟨fun i => if i = n then q else pos i, dpos, fun i => if i = n then q + 160 else fin i, fun i hi => ?_,
      fun x y1 y2 hx hxw hxm hxn _ hxr => ?_⟩
    · have hi' : i.val < s.dec.n + 1 := hi
      show _ ∧ _ ≤ q + 160 ∧ ∀ j : Fin 128, i < j → j.val < s.dec.n + 1 → _
      by_cases hin : i = n
      · subst hin
        simp only [if_true]
        exact ⟨.recordId h.flux h.fluxLen hw0 hm _, Nat.le_refl _, fun j hij hj => absurd (Fin.lt_def.mp hij) (by omega)⟩
      · have hv : i.val ≠ n.val := fun e => hin (Fin.ext e)
        obtain ⟨h1, h2, h3⟩ := hslots i (by omega)
        simp only [if_neg hin]
        refine ⟨h1.keep hl (by omega) ?_ ?_ fun a ha => read_below_writeBlock _ _ _ _ ha, by omega, fun j hij hj => ?_⟩
        · show (recordId s n _ _).cache.idam[i] = _
          rw [recordId_idam, if_neg hin]
        · show (recordId s n _ _).cache.dam[i] = _
          rw [recordId_dam, if_neg hin]
        · split
          · omega
          · rename_i hjn
            have : j.val ≠ n.val := fun e => hjn (Fin.ext e)
            exact h3 j hij (by omega)
    · have hx' : x < q + 160 := hx
      show ∃ i : Fin 128, i.val < s.dec.n + 1 ∧ _
      by_cases hxq : q ≤ x
      · refine ⟨n, by omega, ?_⟩
        simp only [if_true]
        omega
      · have hxr' : s.dec.wp + 10 + 10 ≤ s0.cfg.trkCap := by simpa [resumeAt, recordId] using hxr
        obtain ⟨i, hi, hc⟩ := hmet x y1 y2 (before x (by omega) hxw) hxw hxm hxn (by have := n.isLt; omega) (by omega)
        have hin : i ≠ n := fun e => by subst e; omega
        refine ⟨i, by omega, ?_⟩
        simp only [if_neg hin]
        show _ ∨ _ ∨ (recordId s n _ _).cache.dam[i] ≠ none ∧ _
        rw [recordId_dam, if_neg hin]
        exact hc
  · have hcn := h.cur c hc
    have hsz : size = slotSize s.cache c := hsize
    refine ⟨_, _, e, (h.data hc (by simp; omega)).resume _ _,
      (hl.recordData hcn.1 (by simp [slotSize, hsize]; omega)).resume _ _, ?_,
      by simp only [resumeAt, Option.getD_some]; omega⟩
    rw [markAt_congr h.flux h.fluxLen] at hm
    refine ⟨pos, fun i => if i = c then q else dpos i, fun i => if i = c then q + 64 + 16 * (size + 2) else fin i, fun i hi => ?_,
      fun x y1 y2 hx hxw hxm hxn hxf hxr => ?_⟩
    · have hi' : i.val < s.dec.n := hi
      obtain ⟨h1, h2, h3⟩ := hslots i hi'
      show _ ∧ _ ≤ q + 64 + 16 * (size + 2) ∧ ∀ j : Fin 128, i < j → j.val < s.dec.n → _
      by_cases hin : i = c
      · subst hin
        simp only [if_true]
        have := h1.stop
        exact ⟨h1.recordData h.flux h.fluxLen hl hi' hsz (by omega) hw0 hm, Nat.le_refl _,
          fun j hij hj => absurd (Fin.lt_def.mp hij) (by omega)⟩
      · simp only [if_neg hin]
        refine ⟨h1.keep hl hi' rfl ?_ fun a ha => read_below_writeBlock _ _ _ _ ha, by omega, h3⟩
        show (recordData s c _ _).cache.dam[i] = _
        rw [recordData_dam, if_neg hin]
    · have hx' : x < q + 64 + 16 * (size + 2) := hx
      show ∃ i : Fin 128, i.val < s.dec.n ∧ (_ ∨ _ ∨ (recordData s c _ _).cache.dam[i] ≠ none ∧ _)
      by_cases hxq : q < x
      · exact ⟨c, by omega, .inr (.inr ⟨by rw [recordData_dam, if_pos rfl]; exact nofun, by simpa using hxq, by simpa using hx'⟩)⟩
      · rcases Nat.lt_or_ge x q with hlt | hge
        · have hxr' : s.dec.wp + (4 + (size + 2)) + 10 ≤ s0.cfg.trkCap := by
            simp only [resumeAt, recordData, List.length_append, List.length_cons, List.length_nil, decodedBytes_length] at hxr
            omega
          obtain ⟨i, hi, hc'⟩ := hmet x y1 y2 (before x hlt hxw) hxw hxm hxn hxf (by omega)
          have hin : ¬(s.cache.dam[i] ≠ none ∧ i = c) := fun e => e.1 (by rw [e.2]; exact hdn)
          refine ⟨i, hi, hc'.imp_right (.imp_right fun ⟨e1, e2⟩ => ?_)⟩
          have hne : i ≠ c := fun e => hin ⟨e1, e⟩
          rw [recordData_dam]
          simp only [if_neg hne]
          exact ⟨e1, e2⟩
        · have : x = q := by omega
          subst this
          rw [hm] at hxm
          cases hxm
  · refine ⟨_, _, e, h.resume _ _, hl.resume _ _, ?_, by simp only [resumeAt, Option.getD_none]; omega⟩
    refine ⟨pos, dpos, fin, fun i hi => ?_, fun x y1 y2 hx hxw hxm hxn hxf hxr => ?_⟩
    · obtain ⟨h1, h2, h3⟩ := hslots i hi
      exact ⟨h1, by simp only [resumeAt, Option.getD_none]; omega, h3⟩
    · have hx' : x < q + 1 := hx
      rcases Nat.lt_or_ge x q with hlt | hge
      · exact hmet x y1 y2 (before x hlt hxw) hxw hxm hxn hxf hxr
      · have : x = q := by omega
        subst this
        rw [← markAt_congr h.flux h.fluxLen] at hxm
        exact absurd hxm (hid y1 y2)
  · refine ⟨_, _, e, h.drop.resume _ _, hl.drop.resume _ _, ?_, by simp only [resumeAt, Option.getD_none]; omega⟩
    have hcache : (resumeAt q none (dropId s)).cache = s.cache := by simp [resumeAt]
    have hdn : (resumeAt q none (dropId s)).dec.n = s.dec.n := by simp [resumeAt]
    have hdw : (resumeAt q none (dropId s)).dec.wp = s.dec.wp := by simp [resumeAt]
    unfold AllFromFlux
    rw [hcache, hdn, hdw]
    refine ⟨pos, dpos, fin, fun i hi => ?_, fun x y1 y2 hx hxw hxm hxn hxf hxr => ?_⟩
    · obtain ⟨h1, h2, h3⟩ := hslots i hi
      exact ⟨h1, by simp only [resumeAt, Option.getD_none]; omega, h3⟩
    · have hx' : x < q + 1 := hx
      rcases Nat.lt_or_ge x q with hlt | hge
      · exact hmet x y1 y2 (before x hlt hxw) hxw hxm hxn hxf hxr
      · have : x = q := by omega
        subst this
        rw [h.nbits, h.cfg] at hfull
        exact absurd ⟨hxn, hxr, hxf⟩ hfull

theorem AllFromFlux.start (side : Bool) (s : State) : AllFromFlux (startDecode side .mfm s) side (startDecode side .mfm s) :=
  ⟨fun _ => 0, fun _ => 0, fun _ => 0, fun _ hi => absurd hi (Nat.not_lt_zero _), fun _ _ _ hx => absurd hx (Nat.not_lt_zero _)⟩

/-- `DEC.TRACK` completes with every field in place and in the flux, and no sync word left to scan (rules R130 to R132). -/
theorem decodeTrack_fields (side : Bool) (s : State) :
    ∃ t, decodeTrack side s = .ok (endDecode 3 t) ∧ mfmLoop side (nbits s) (startDecode side .mfm s) = .ok t ∧ LoopInv (startDecode side .mfm s) t ∧ Layout 3 t ∧
      AllFromFlux (startDecode side .mfm s) side t ∧ syncScan t side t.dec.p = none := by
  obtain ⟨t, h1, ⟨h2, h3, h4⟩, h5⟩ := mfmLoop_induct (side := side) (bits := nbits s)
    (P := fun u => LoopInv (startDecode side .mfm s) u ∧ Layout 3 u ∧ AllFromFlux (startDecode side .mfm s) side u)
    (fun u hu => hu.1.nbits)
    (fun u q hu hq => by
      obtain ⟨r, s', a, b, c, d, e⟩ := mfmTurn_fields hu.1 hu.2.1 hu.2.2 (syncScan_some hq).1 (syncScan_some hq).2.2.1
        (syncScan_some hq).2.2.2
      exact ⟨r, s', a, ⟨b, c, d⟩, e⟩)
    (nbits s) _ ⟨LoopInv.start side .mfm s, Layout.start 3 side .mfm s, AllFromFlux.start side s⟩
  refine ⟨t, ?_, h1, h2, h3, h4, h5 (Nat.le_add_right _ _)⟩
  simp only [decodeTrack, h1, bind, Except.bind]

/-! ## FM -/

/-- Every slot recorded so far points at its ID mark and, if it has a data field, at a data mark (rule R135). -/
def AllMarked (s : State) : Prop :=
  ∀ i : Fin 128, i.val < s.dec.n → s.cache.trk.read s.cache.idam[i] = 0xFE ∧
    ∀ d, s.cache.dam[i] = some d → s.cache.trk.read d = 0xFB ∨ s.cache.trk.read d = 0xF8

theorem AllMarked.recordId {s : State} (h : AllMarked s) (hl : Layout 0 s) {n : Fin 128} {bs : List Byte}
    (hn : n.val = s.dec.n) (hb : 0 < bs.length) (hfe : bs.getD 0 0 = 0xFE) : AllMarked (recordId s n bs s.dec.wp) := fun i hi => by
  have hi' : i.val < s.dec.n + 1 := hi
  rw [recordId_idam, recordId_dam]
  show (s.cache.trk.writeBlock s.dec.wp bs).read _ = _ ∧
    ∀ d, _ → (s.cache.trk.writeBlock s.dec.wp bs).read d = _ ∨ (s.cache.trk.writeBlock s.dec.wp bs).read d = _
  split
  · refine ⟨(read_written s.cache.trk s.dec.wp 0 bs hb).trans hfe, fun d hd => by cases hd⟩
  · rename_i hne
    have hv : i.val ≠ n.val := fun e => hne (Fin.ext e)
    have h1 := hl.id i (by omega)
    have h2 := h i (by omega)
    rw [read_below_writeBlock _ _ _ _ (by omega)]
    refine ⟨h2.1, fun d hd => ?_⟩
    have h3 := hl.data i d (by omega) hd
    rw [read_below_writeBlock _ _ _ _ (by omega)]
    exact h2.2 d hd

theorem AllMarked.recordData {s : State} (h : AllMarked s) (hl : Layout 0 s) {c : Fin 128} {bs : List Byte}
    (hb : 0 < bs.length) (hm : bs.getD 0 0 = 0xFB ∨ bs.getD 0 0 = 0xF8) : AllMarked (recordData s c bs s.dec.wp) := fun i hi => by
  have h1 := hl.id i hi
  have h2 := h i hi
  rw [recordData_dam]
  show (s.cache.trk.writeBlock s.dec.wp bs).read s.cache.idam[i] = _ ∧
    ∀ d, _ → (s.cache.trk.writeBlock s.dec.wp bs).read d = _ ∨ (s.cache.trk.writeBlock s.dec.wp bs).read d = _
  rw [read_below_writeBlock _ _ _ _ (by omega)]
  refine ⟨h2.1, fun d hd => ?_⟩
  split at hd
  · cases hd
    rw [show (s.cache.trk.writeBlock s.dec.wp bs).read s.dec.wp = bs.getD 0 0 from read_written s.cache.trk s.dec.wp 0 bs hb]
    exact hm
  · have h3 := hl.data i d hi hd
    rw [read_below_writeBlock _ _ _ _ (by omega)]
    exact h2.2 d hd

theorem AllMarked.drop {s : State} (h : AllMarked s) : AllMarked (dropId s) := by
  unfold dropId
  split
  · exact h
  · exact h

/-- One turn of `DEC.FMTRACK` keeps where every field lies and what it points at. -/
theorem fmTurn_fields {s0 s : State} (h : LoopInv s0 s) (hl : Layout 0 s) (hf : AllMarked s) {side : Bool} {q : Nat}
    (hq : s.dec.p ≤ q) :
    ∃ r s', fmTurn side q s = .ok (r, s') ∧ LoopInv s0 (resumeAt q r s') ∧ Layout 0 (resumeAt q r s') ∧
      AllMarked (resumeAt q r s') ∧ (0 < s.cfg.fmStride → s.dec.p < (resumeAt q r s').dec.p) := by
  obtain ⟨r, s', e, hinv, hp⟩ := fmTurn_keeps h (side := side) hq
  refine ⟨r, s', e, hinv, ?_, ?_, hp⟩ <;>
  rcases fmTurn_cases h.sizeInBuffer side q with ⟨n, hn, hr, e'⟩ | ⟨c, m, size, hm, hc, hdn, hsize, hr, e'⟩ | e' | e' <;>
  · rw [e'] at e
    simp only [Except.ok.injEq, Prod.mk.injEq] at e
    obtain ⟨rfl, rfl⟩ := e
    first
    | exact hl.resume _ _
    | exact hl.drop.resume _ _
    | exact (hl.recordId (pre := 0) hn h.low (by simp)).resume _ _
    | exact (hl.recordData (pre := 0) (h.cur c hc).1 (by simp [slotSize, hsize]; omega)).resume _ _
    | exact hf
    | exact hf.drop
    | exact hf.recordId hl hn (by simp) rfl
    | exact hf.recordData hl (by simp) hm

/-- `DEC.FMTRACK` completes with every field in place and marked (rules R132, R135). -/
theorem decodeFmTrack_fields (side : Bool) (s : State) :
    ∃ t, decodeFmTrack side s = .ok (endDecode 0 t) ∧ fmLoop side (nbits s) (startDecode side .fm s) = .ok t ∧
      LoopInv (startDecode side .fm s) t ∧ Layout 0 t ∧ AllMarked t ∧ (0 < s.cfg.fmStride → fmScan t side t.dec.p = none) := by
  obtain ⟨t, h1, ⟨h2, h3, h4⟩, h5⟩ := fmLoop_induct (side := side) (bits := nbits s) (stride := s.cfg.fmStride)
    (P := fun u => LoopInv (startDecode side .fm s) u ∧ Layout 0 u ∧ AllMarked u)
    (fun u hu => hu.1.nbits) (fun u hu => congrArg Config.fmStride hu.1.cfg)
    (fun u q hu hq => by
      obtain ⟨r, s', a, b, c, d, e⟩ := fmTurn_fields hu.1 hu.2.1 hu.2.2 (fmScan_some hq).1
      exact ⟨r, s', a, ⟨b, c, d⟩, fun h0 => e (by rw [hu.1.cfg]; exact h0)⟩)
    (nbits s) _ ⟨LoopInv.start side .fm s, Layout.start 0 side .fm s, fun _ hi => absurd hi (Nat.not_lt_zero _)⟩
  refine ⟨t, ?_, h1, h2, h3, h4, fun h0 => h5 h0 (Nat.le_add_right _ _)⟩
  simp only [decodeFmTrack, h1, bind, Except.bind]

end Sys2Proof.Machine
end

