-- ==== Sys2Proof/Laws/Scan.lean ====
section
/-! SUPPORT. The SCAN unit: what its tables hold, what a load leaves and that it completes, what the lookups and the checks answer
(rules R140 to R157). -/

namespace Sys2Proof.Machine

/-! ## Marks and tables -/

/-- The pattern test is the pattern (rule R93). -/
theorem markAtOffset_iff (m : Memory) (isMark : Byte → Bool) (j : Nat) :
    markAtOffset m isMark j = true ↔
      m.read j = 0xA1 ∧ m.read (j + 1) = 0xA1 ∧ m.read (j + 2) = 0xA1 ∧ isMark (m.read (j + 3)) = true := by
  simp [markAtOffset, and_assoc]

theorem markedAt_iff (m : Memory) (j : Nat) (b : Byte) :
    markedAt m j b ↔ m.read j = 0xA1 ∧ m.read (j + 1) = 0xA1 ∧ m.read (j + 2) = 0xA1 ∧ m.read (j + 3) = b := by
  constructor
  · intro h
    exact ⟨h 0 _ rfl, h 1 _ rfl, h 2 _ rfl, h 3 _ rfl⟩
  · rintro ⟨h0, h1, h2, h3⟩ k x hk
    match k with
    | 0 => simpa using h0.trans (by simpa using hk)
    | 1 => simpa using h1.trans (by simpa using hk)
    | 2 => simpa using h2.trans (by simpa using hk)
    | 3 => simpa using h3.trans (by simpa using hk)
    | k + 4 => simp at hk

theorem dataMark_iff (m : Memory) (j : Nat) :
    markAtOffset m isDataMark j = true ↔ markedAt m j 0xFB ∨ markedAt m j 0xF8 := by
  rw [markAtOffset_iff, markedAt_iff, markedAt_iff]
  simp only [isDataMark, Bool.or_eq_true, beq_iff_eq]
  tauto

/-- Rule R145. -/
theorem damLookup_spec (c : Cache) (o : Nat) : c.firstDataMark o (damLookup c o) := by
  unfold damLookup
  cases h : firstFrom (markAtOffset c.trk isDataMark) (c.len - 3 - o) o with
  | none =>
    intro j h1 h2
    have := firstFrom_none h j h1 (by omega)
    rw [← not_or, ← dataMark_iff, this]
    simp
  | some q =>
    obtain ⟨h1, h2, h3, h4⟩ := firstFrom_some h
    show o + 3 ≤ q + 3 ∧ q + 3 < c.len ∧ _ ∧ ∀ j, o ≤ j → j + 3 < q + 3 → _
    refine ⟨by omega, by omega, by simpa using (dataMark_iff _ _).mp h3, fun j h5 h6 => ?_⟩
    have := h4 j h5 (by omega)
    rw [← not_or, ← dataMark_iff, this]
    simp

/-- A data mark found lies after the offset it was looked for from. -/
theorem damLookup_ge {c : Cache} {o d : Nat} (h : damLookup c o = some d) : o + 3 ≤ d ∧ d < c.len := by
  have := damLookup_spec c o
  rw [h] at this
  exact ⟨this.1, this.2.1⟩

theorem pointerOffset_eq (c : Cache) (i : Fin 128) : pointerOffset c i =
    ((c.trk.read (2 * i.val)).toNat + 256 * (c.trk.read (2 * i.val + 1)).toNat &&& 0x7FFF) := by
  unfold pointerOffset le16
  rw [show 0x7FFF = 2 ^ 15 - 1 from rfl, Nat.and_two_pow_sub_one_eq_mod]

theorem tablesOf_idam (c : Cache) (i : Fin 128) :
    (tablesOf c).idam[i] = if slotValid c (pointerOffset c i) then pointerOffset c i else 0 := tableOf_get _ _

theorem tablesOf_dam (c : Cache) (i : Fin 128) :
    (tablesOf c).dam[i] = if slotValid c (pointerOffset c i) then damLookup c (pointerOffset c i) else none := tableOf_get _ _

theorem slotValid_iff (c : Cache) (off : Nat) : slotValid c off = true ↔ 256 + c.pfx ≤ off ∧ off + 6 < c.len := by
  unfold slotValid dmkTable
  rw [Bool.and_eq_true, decide_eq_true_iff, decide_eq_true_iff]

/-- Rules R143, R144. -/
theorem tablesOf_spec (c : Cache) : (tablesOf c).tablesOfPointers := fun i => by
  show if 256 + c.pfx ≤ _ ∧ _ < c.len then _ else _
  rw [show ((tablesOf c).trk.read (2 * i.val)).toNat + 256 * ((tablesOf c).trk.read (2 * i.val + 1)).toNat &&& 0x7FFF
    = pointerOffset c i from (pointerOffset_eq c i).symm, tablesOf_idam, tablesOf_dam]
  by_cases h : slotValid c (pointerOffset c i) = true
  · rw [if_pos ((slotValid_iff _ _).mp h), if_pos h, if_pos h]
    exact ⟨rfl, damLookup_spec c _⟩
  · rw [if_neg (fun h' => h ((slotValid_iff _ _).mpr h')), if_neg h, if_neg h]
    exact ⟨rfl, rfl⟩

theorem slotFits_of {c : Cache} {i : Fin 128} (h : c.idam[i] ≠ 0 → c.pfx ≤ c.idam[i] ∧ c.idam[i] + 6 < c.len ∧
    ∀ d, c.dam[i] = some d → c.idam[i] ≤ d) : c.slotFits i = true := by
  unfold Cache.slotFits
  by_cases h0 : c.idam[i] = 0
  · simp only [h0, beq_self_eq_true, Bool.true_or]
  · obtain ⟨h1, h2, h3⟩ := h h0
    cases hd : c.dam[i] with
    | none =>
      simp only [Bool.or_eq_true, beq_iff_eq, Bool.and_eq_true, decide_eq_true_eq, and_true]
      exact .inr ⟨h1, h2⟩
    | some d =>
      simp only [Bool.or_eq_true, beq_iff_eq, Bool.and_eq_true, decide_eq_true_eq]
      exact .inr ⟨⟨h1, h2⟩, h3 d hd⟩

theorem slotFits_elim {c : Cache} {i : Fin 128} (h : c.slotFits i = true) (h0 : c.idam[i] ≠ 0) :
    c.pfx ≤ c.idam[i] ∧ c.idam[i] + 6 < c.len ∧ ∀ d, c.dam[i] = some d → c.idam[i] ≤ d := by
  unfold Cache.slotFits at h
  cases hd : c.dam[i] with
  | none =>
    simp only [hd, Bool.or_eq_true, beq_iff_eq, h0, false_or, Bool.and_eq_true, decide_eq_true_eq, Bool.and_true] at h
    exact ⟨h.1, h.2, fun d e => by cases e⟩
  | some d =>
    simp only [hd, Bool.or_eq_true, beq_iff_eq, h0, false_or, Bool.and_eq_true, decide_eq_true_eq] at h
    exact ⟨h.1.1, h.1.2, fun d' e => by cases e; exact h.2⟩

theorem tablesFit_iff (c : Cache) : c.tablesFit = true ↔ ∀ i, c.slotFits i = true := by
  simp [Cache.tablesFit]

/-- Tables made from pointers fit, since their slots are valid. -/
theorem tablesOf_fit (c : Cache) : (tablesOf c).tablesFit = true := by
  rw [tablesFit_iff]
  intro i
  apply slotFits_of
  rw [tablesOf_idam, tablesOf_dam]
  split
  · rename_i h
    intro _
    have := (slotValid_iff _ _).mp h
    exact ⟨by show c.pfx ≤ _; omega, this.2, fun d hd => by have := damLookup_ge hd; omega⟩
  · exact fun h => absurd rfl h

theorem emptyTables_fit {c : Cache} (h : c.idam = emptyIdam) : c.tablesFit = true := by
  rw [tablesFit_iff]
  intro i
  apply slotFits_of
  rw [h, emptyIdam_get]
  exact fun h => absurd rfl h

/-! ## Loading -/

/-- What a load may change: the cache, the DEC unit, the flux block and the traffic. -/
def LoadFrame (s u : State) : Prop :=
  u = { s with cache := u.cache, dec := u.dec, flux := u.flux, fluxLen := u.fluxLen, events := u.events }

/-- What a load that answers leaves in the cache. -/
structure Loaded (d : Fin 4) (side : Bool) (track : Byte) (ok : Bool) (u : State) : Prop where
  named : ok = true → u.cache.id = some ⟨d, side, track⟩ ∧ u.cache.tablesFit = true
  failed : ok = false → u.cache.id = none ∧ u.cache.idam = emptyIdam ∧ u.cache.dam = emptyDam

theorem forgetTrack_frame (s : State) : LoadFrame s (forgetTrack s) := rfl

/-- The layout of a decoded track fits its tables. -/
theorem layout_fit {pre : Nat} {s0 t : State} (h : LoopInv s0 t) (hl : Layout pre t) (hp : pre ≤ 256) :
    (endDecode pre t).cache.tablesFit = true := by
  rw [tablesFit_iff]
  intro i
  apply slotFits_of
  show t.cache.idam[i] ≠ 0 → pre ≤ t.cache.idam[i] ∧ t.cache.idam[i] + 6 < t.dec.wp ∧ ∀ d, t.cache.dam[i] = some d → _ ≤ d
  intro h0
  by_cases hi : i.val < t.dec.n
  · have h1 := hl.id i hi
    exact ⟨by omega, by omega, fun d hd => by have := hl.data i d hi hd; show t.cache.idam[i] ≤ d; omega⟩
  · exact absurd (h.empty i (by omega)).1 h0

theorem decode_frame {s t : State} {side : Bool} {mode : Encoding} {pfx : Nat} (h : LoopInv (startDecode side mode s) t) :
    endDecode pfx t = { s with
      cache := { s.cache with trk := t.cache.trk, idam := t.cache.idam, dam := t.cache.dam, len := t.dec.wp, pfx := pfx }
      dec := t.dec } := by
  unfold endDecode
  conv_lhs => rw [h.frame]
  rfl

/-- Either decoding of a side completes, changes only the cache and the DEC unit, and leaves tables that fit. -/
theorem decode_spec (e : Encoding) (side : Bool) (s : State) :
    ∃ u, (if e = .mfm then decodeTrack side s else decodeFmTrack side s) = .ok u ∧
      u = { s with cache := u.cache, dec := u.dec } ∧ u.cache.id = s.cache.id ∧ u.cache.tablesFit = true := by
  cases e
  · obtain ⟨t, h1, -, h2, h3, -, -⟩ := decodeTrack_fields side s
    exact ⟨_, h1, by rw [decode_frame h2], by rw [decode_frame h2], layout_fit h2 h3 (by omega)⟩
  · obtain ⟨t, h1, -, h2, h3, -, -⟩ := decodeFmTrack_fields side s
    exact ⟨_, h1, by rw [decode_frame h2], by rw [decode_frame h2], layout_fit h2 h3 (by omega)⟩

/-- A DMK load completes (rule R141). -/
theorem loadDmk_spec (d : Fin 4) (side : Bool) (track : Byte) (s : State) (hid : s.cache.id = none)
    (ht : s.cache.idam = emptyIdam) (hm : s.cache.dam = emptyDam) :
    ∃ ok u, loadDmk d side track s = .ok (ok, u) ∧ LoadFrame s u ∧ Loaded d side track ok u := by
  unfold loadDmk
  simp only
  split
  · exact ⟨_, _, rfl, rfl, ⟨nofun, fun _ => ⟨hid, ht, hm⟩⟩⟩
  · rename_i hb
    split
    · unfold dmkTables
      simp only [bind, Except.bind]
      rw [if_pos (Nat.le_of_not_lt fun h => hb (.inr (.inr (.inr (.inl h)))))]
      exact ⟨_, _, rfl, rfl, ⟨fun _ => ⟨rfl, tablesOf_fit _⟩, nofun⟩⟩
    · exact ⟨_, _, rfl, rfl, ⟨nofun, fun _ => ⟨hid, ht, hm⟩⟩⟩

/-- An HFE load completes unless the look-up table is malformed (rules R136, R141, R252). -/
theorem loadHfe_spec (d : Fin 4) (side : Bool) (track : Byte) (s : State) (hid : s.cache.id = none)
    (ht : s.cache.idam = emptyIdam) (hm : s.cache.dam = emptyDam) (hf : s.drives[d].format = .hfe) :
    (loadable s d track = true → ∃ ok u, loadHfe d side track s = .ok (ok, u) ∧ LoadFrame s u ∧ Loaded d side track ok u) ∧
    (loadable s d track = false → loadHfe d side track s = .error .malformedLut) := by
  unfold loadHfe loadable
  simp only [hf]
  by_cases h1 : s.drives[d].tracks ≤ track.toNat
  · simp only [h1, if_true, decide_true, Bool.or_true, Bool.true_or]
    exact ⟨fun _ => ⟨_, _, rfl, rfl, ⟨nofun, fun _ => ⟨hid, ht, hm⟩⟩⟩, nofun⟩
  · simp only [h1, if_false, decide_false, bne_self_eq_false, Bool.or_false, Bool.false_or]
    cases hl : s.drives[d].lut[track.toNat]? with
    | none => exact ⟨nofun, fun _ => rfl⟩
    | some e =>
      obtain ⟨blk, len⟩ := e
      simp only
      by_cases h2 : (fileAt s s.drives[d].handle).down = true
      · simp only [h2, if_true, Bool.true_or]
        exact ⟨fun _ => ⟨_, _, rfl, rfl, ⟨nofun, fun _ => ⟨hid, ht, hm⟩⟩⟩, nofun⟩
      · simp only [h2, Bool.false_or, if_false, Bool.false_eq_true]
        by_cases h3 : imageHas s s.drives[d].handle (blk * 512) len = true
        · simp only [h3, if_true]
          refine ⟨fun _ => ?_, nofun⟩
          obtain ⟨u, e1, e2, e3, e4⟩ := decode_spec s.drives[d].encoding side
            { s with flux := Memory.copy [] 0 (fileAt s s.drives[d].handle).bytes (blk * 512) len, fluxLen := len
                     events := .imgRead s.drives[d].handle (blk * 512) len :: s.events }
          refine ⟨true, nameTrack d side track { u with flux := [], fluxLen := 0 }, ?_, ?_, ⟨fun _ => ⟨rfl, e4⟩, nofun⟩⟩
          · by_cases he : s.drives[d].encoding = .mfm
            · simp only [if_pos he] at e1 ⊢
              simp only [e1, bind, Except.bind]
            · simp only [if_neg he] at e1 ⊢
              simp only [e1, bind, Except.bind]
          · unfold LoadFrame nameTrack
            rw [e2]
        · simp only [h3, Bool.false_eq_true, if_false]
          exact ⟨nofun, fun _ => trivial⟩

/-- `SCAN.LOAD` completes exactly where the image can be read, and changes only what a load may change (rule R141). -/
theorem loadTrack_spec (d : Fin 4) (side : Bool) (track : Byte) (s : State) :
    (loadable s d track = true → ∃ ok u, loadTrack d side track s = .ok (ok, u) ∧ LoadFrame s u ∧ Loaded d side track ok u) ∧
    (loadable s d track = false → loadTrack d side track s = .error .malformedLut) := by
  unfold loadTrack
  cases hf : s.drives[d].format with
  | none =>
    refine ⟨fun _ => ⟨_, _, rfl, rfl, ⟨nofun, fun _ => ⟨rfl, rfl, rfl⟩⟩⟩, fun h => ?_⟩
    simp only [loadable, hf, show (Format.none != Format.hfe) = true from rfl, Bool.true_or] at h
    cases h
  | dmk =>
    refine ⟨fun _ => ?_, fun h => ?_⟩
    · obtain ⟨ok, u, e1, e2, e3⟩ := loadDmk_spec d side track (forgetTrack s) rfl rfl rfl
      exact ⟨ok, u, e1, e2, e3⟩
    · simp only [loadable, hf, show (Format.dmk != Format.hfe) = true from rfl, Bool.true_or] at h
      cases h
  | hfe =>
    obtain ⟨h1, h2⟩ := loadHfe_spec d side track (forgetTrack s) rfl rfl rfl hf
    exact ⟨fun h => h1 h, fun h => h2 h⟩

/-- `SCAN.ENSURE` (rule R142). -/
theorem ensureTrack_spec {d : Fin 4} {side : Bool} {track : Byte} {s : State} (h : ensureReady s d side track = true) :
    ∃ ok u, ensureTrack d side track s = .ok (ok, u) ∧ LoadFrame s u ∧
      (ok = true → u.cache.id = some ⟨d, side, track⟩) ∧ (lookupReady s d side track = true → ok = true → u.cache.tablesFit = true) := by
  unfold ensureTrack
  by_cases hid : s.cache.id = some ⟨d, side, track⟩
  · rw [if_pos hid]
    refine ⟨_, _, rfl, rfl, fun _ => hid, fun hl _ => ?_⟩
    unfold lookupReady at hl
    rwa [if_pos hid] at hl
  · rw [if_neg hid]
    have hl : loadable s d track = true := by
      unfold ensureReady at h
      simpa [hid] using h
    obtain ⟨ok, u, e1, e2, e3⟩ := (loadTrack_spec d side track s).1 hl
    exact ⟨ok, u, e1, e2, fun h => (e3.named h).1, fun _ h => (e3.named h).2⟩

/-- A state from which a sector can be looked up is one from which its track can be ensured. -/
theorem ensureReady_of_lookupReady {d : Fin 4} {side : Bool} {track : Byte} {s : State} (h : lookupReady s d side track = true) :
    ensureReady s d side track = true := by
  unfold lookupReady at h
  unfold ensureReady
  by_cases hid : s.cache.id = some ⟨d, side, track⟩
  · simp [hid]
  · rw [if_neg hid] at h
    simp [h]

end Sys2Proof.Machine
end

