-- ==== Sys2Proof/Laws/Lookup.lean ====
section
/-! SUPPORT. The SCAN unit's lookups, checks and Write Track support: what each answers and what it leaves (rules R147 to R157). -/

namespace Sys2Proof.Machine

theorem trkRead_ok {s : State} {a : Nat} (h : a < s.cache.len) : trkRead s a = .ok (s.cache.trk.read a) := if_pos h

/-! ## Finding (rules R147, R148, R150) -/

/-- A slot whose ID bytes lie in the track is compared without a refusal. -/
theorem slotMatches_ok {s : State} {track side sector : Byte} {i : Fin 128}
    (h : s.cache.idam[i] ≠ 0 → s.cache.idam[i] + 3 < s.cache.len) :
    ∃ b, slotMatches s track side sector i = .ok b ∧ (b = true ↔ s.cache.slotNames track side sector i) := by
  unfold slotMatches Cache.slotNames
  simp only
  by_cases h0 : s.cache.idam[i] = 0
  · exact ⟨false, by rw [if_pos h0], by simp only [h0, ne_eq, not_true_eq_false, false_and, Bool.false_eq_true]⟩
  · have hl := h h0
    rw [if_neg h0, trkRead_ok (by omega), trkRead_ok (by omega), trkRead_ok hl]
    simp only [bind, Except.bind]
    by_cases h1 : s.cache.trk.read (s.cache.idam[i] + 1) = track
    · by_cases h2 : s.cache.trk.read (s.cache.idam[i] + 2) = side
      · rw [if_neg (by simpa using h1), if_neg (by simpa using h2)]
        exact ⟨_, rfl, by rw [beq_iff_eq]; exact ⟨fun h3 => ⟨h0, h1, h2, h3⟩, fun h3 => h3.2.2.2⟩⟩
      · rw [if_neg (by simpa using h1), if_pos h2]
        exact ⟨_, rfl, by simp only [Bool.false_eq_true, false_iff]; exact fun h3 => h2 h3.2.2.1⟩
    · rw [if_pos h1]
      exact ⟨_, rfl, by simp only [Bool.false_eq_true, false_iff]; exact fun h3 => h1 h3.2.1⟩

/-- The first match of a list of slots. -/
theorem findIn_ok {s : State} {track side sector : Byte} (h : ∀ i : Fin 128, s.cache.idam[i] ≠ 0 → s.cache.idam[i] + 3 < s.cache.len) :
    ∀ l : List (Fin 128), l.Pairwise (· < ·) → ∃ r, findIn s track side sector l = .ok r ∧
      (∀ i, r = some i → i ∈ l ∧ s.cache.slotNames track side sector i ∧
        ∀ j ∈ l, j < i → ¬s.cache.slotNames track side sector j) ∧
      (r = none → ∀ j ∈ l, ¬s.cache.slotNames track side sector j) := by
  intro l
  induction l with
  | nil => exact fun _ => ⟨none, rfl, nofun, fun _ => nofun⟩
  | cons x xs ih =>
    intro hp
    obtain ⟨r, e1, e2, e3⟩ := ih (List.pairwise_cons.mp hp).2
    obtain ⟨b, hb, hb'⟩ := slotMatches_ok (track := track) (side := side) (sector := sector) (h x)
    unfold findIn
    rw [hb]
    simp only [bind, Except.bind]
    by_cases hx : b = true
    · rw [if_pos hx]
      refine ⟨some x, rfl, fun i hi => ?_, nofun⟩
      cases hi
      refine ⟨List.mem_cons_self, hb'.mp hx, fun j hj hlt => ?_⟩
      rcases List.mem_cons.mp hj with rfl | hj
      · exact absurd hlt (lt_irrefl _)
      · exact absurd hlt (not_lt_of_gt ((List.pairwise_cons.mp hp).1 j hj))
    · rw [if_neg hx]
      have hnx : ¬s.cache.slotNames track side sector x := fun hh => hx (hb'.mpr hh)
      refine ⟨r, e1, fun i hi => ?_, fun hr j hj => ?_⟩
      · obtain ⟨a, b', c⟩ := e2 i hi
        refine ⟨List.mem_cons_of_mem _ a, b', fun j hj hlt => ?_⟩
        rcases List.mem_cons.mp hj with rfl | hj
        · exact hnx
        · exact c j hj hlt
      · rcases List.mem_cons.mp hj with rfl | hj
        · exact hnx
        · exact e3 hr j hj

/-- Rule R147. -/
theorem findSector_ok {s : State} (track side sector : Byte)
    (h : ∀ i : Fin 128, s.cache.idam[i] ≠ 0 → s.cache.idam[i] + 3 < s.cache.len) :
    ∃ r, findSector s track side sector = .ok r ∧
      (∀ i, r = some i → s.cache.slotNames track side sector i ∧ ∀ j < i, ¬s.cache.slotNames track side sector j) ∧
      (r = none → ∀ j, ¬s.cache.slotNames track side sector j) := by
  obtain ⟨r, e1, e2, e3⟩ := findIn_ok (track := track) (side := side) (sector := sector) h (List.finRange 128)
    (List.pairwise_lt_finRange 128)
  exact ⟨r, e1, fun i hi => ⟨(e2 i hi).2.1, fun j hj => (e2 i hi).2.2 j (List.mem_finRange j) hj⟩,
    fun hr j => e3 hr j (List.mem_finRange j)⟩

/-- A track whose tables fit can be searched. -/
theorem searchable_of_fit {c : Cache} (h : c.tablesFit = true) (i : Fin 128) (h0 : c.idam[i] ≠ 0) : c.idam[i] + 3 < c.len := by
  have := (slotFits_elim ((tablesFit_iff c).mp h i) h0).2.1
  omega

/-- Rule R150, of a slot with a data mark. -/
theorem sectorView_some {s : State} {i : Fin 128} {d : Nat} (hd : s.cache.dam[i] = some d)
    (hc : s.cache.idam[i] + 4 < s.cache.len) :
    sectorView s i = .ok (if d < 256 + s.cache.pfx ∨ s.cache.len < d + 1 + slotSize s.cache i + 2 then none
      else some ⟨slotSize s.cache i, d + 1, s.cache.trk.read d⟩) := by
  unfold sectorView slotSize
  simp only [hd, trkRead_ok hc, bind, Except.bind, sectorSize_eq, dmkTable]
  split <;> rfl

theorem sectorView_none {s : State} {i : Fin 128} (hd : s.cache.dam[i] = none) : sectorView s i = .ok none := by
  unfold sectorView
  rw [hd]

/-- What a view says of its slot. -/
theorem sectorView_elim {s : State} {i : Fin 128} {v : SectorView} (h : sectorView s i = .ok (some v)) :
    ∃ d, s.cache.dam[i] = some d ∧ s.cache.idam[i] + 4 < s.cache.len ∧ 256 + s.cache.pfx ≤ d ∧
      d + 1 + slotSize s.cache i + 2 ≤ s.cache.len ∧ v = ⟨slotSize s.cache i, d + 1, s.cache.trk.read d⟩ := by
  cases hd : s.cache.dam[i] with
  | none => rw [sectorView_none hd] at h; cases h
  | some d =>
    by_cases hc : s.cache.idam[i] + 4 < s.cache.len
    · rw [sectorView_some hd hc] at h
      simp only [Except.ok.injEq] at h
      split at h
      · cases h
      · rename_i hb
        simp only [Option.some.injEq] at h
        exact ⟨d, rfl, hc, by omega, by omega, h.symm⟩
    · exfalso
      unfold sectorView trkRead at h
      simp only [hd, if_neg hc, bind, Except.bind] at h
      cases h

/-! ## Checksums (rules R151 to R153) -/

/-- A check over a field that lies in the track answers whether the two stored bytes are its checksum, and leaves it in the register. -/
theorem checkField_ok {s : State} {start len stored : Nat} (h1 : start + len ≤ s.cache.len) (h2 : stored + 1 < s.cache.len) :
    checkField start len stored s =
      .ok (decide (crcOf (s.cache.bytes start len) = s.cache.trk.read stored ++ s.cache.trk.read (stored + 1)),
        { s with crc := crcOf (s.cache.bytes start len) }) := by
  unfold checkField crcRangeOp
  rw [if_pos (show start + len ≤ spaceLen s .trk from h1)]
  simp only [bind, Except.bind]
  rw [trkRead_ok (show stored < _ by exact Nat.lt_of_succ_lt h2), trkRead_ok (show stored + 1 < _ by exact h2)]
  simp only [crcMatches, crcValue_ccitt, be16]
  rfl

/-- Rule R151. -/
theorem idCrcCheck_ok {s : State} {i : Fin 128} (h1 : s.cache.pfx ≤ s.cache.idam[i]) (h2 : s.cache.idam[i] + 6 < s.cache.len) :
    idCrcCheck i s = .ok (decide (crcOf (s.cache.bytes (s.cache.idam[i] - s.cache.pfx) (s.cache.pfx + 5)) =
        s.cache.trk.read (s.cache.idam[i] + 5) ++ s.cache.trk.read (s.cache.idam[i] + 6)),
      { s with crc := crcOf (s.cache.bytes (s.cache.idam[i] - s.cache.pfx) (s.cache.pfx + 5)) }) := by
  unfold idCrcCheck
  simp only
  rw [if_neg (by omega), checkField_ok (by omega) (by omega)]

/-- The checksum of the data field whose mark stands at `d` (rule R152). -/
def dataSum (c : Cache) (d size : Nat) : Word16 := crcOf (c.bytes (d - c.pfx) (c.pfx + 1 + size))

/-- Rule R152. -/
theorem dataCrcCheck_ok {s : State} {i : Fin 128} {d : Nat} {v : SectorView} (hv : sectorView s i = .ok (some v))
    (hd : s.cache.dam[i] = some d) :
    dataCrcCheck i s = .ok (decide (crcOf (s.cache.bytes (d - s.cache.pfx) (s.cache.pfx + 1 + v.size)) =
        s.cache.trk.read (d + 1 + v.size) ++ s.cache.trk.read (d + 2 + v.size)),
      { s with crc := crcOf (s.cache.bytes (d - s.cache.pfx) (s.cache.pfx + 1 + v.size)) }) := by
  obtain ⟨d', hd', -, h1, h2, rfl⟩ := sectorView_elim hv
  rw [hd] at hd'
  cases hd'
  unfold dataCrcCheck
  rw [hv]
  simp only [bind, Except.bind, Nat.add_sub_cancel]
  rw [checkField_ok (by omega) (by omega), show d + 1 + slotSize s.cache i + 1 = d + 2 + slotSize s.cache i by omega]

/-- Rule R153. -/
theorem dataCrcGen_ok {s : State} {i : Fin 128} {d : Nat} {v : SectorView} (hv : sectorView s i = .ok (some v))
    (hd : s.cache.dam[i] = some d) :
    dataCrcGen i s = .ok { s with
      crc := dataSum s.cache d v.size
      cache := { s.cache with
        trk := s.cache.trk.writeBlock (d + 1 + v.size) (let c := dataSum s.cache d v.size; [c.extractLsb' 8 8, c.extractLsb' 0 8]) } } := by
  obtain ⟨d', hd', -, h1, h2, rfl⟩ := sectorView_elim hv
  rw [hd] at hd'
  cases hd'
  unfold dataCrcGen crcRangeOp
  rw [hv]
  simp only [bind, Except.bind, Nat.add_sub_cancel]
  rw [if_pos (show d - s.cache.pfx + (s.cache.pfx + 1 + slotSize s.cache i) ≤ spaceLen s .trk by
    show _ ≤ s.cache.len
    omega)]
  simp only [crcBytes, crcValue_ccitt]
  rfl

/-! ## Write Track (rules R155, R156) -/

/-- The resolution never puts out more bytes than fit: the bytes out and the offset move together. -/
structure Resolve.Fits (len : Nat) (r : Resolve) : Prop where
  offset : r.o = 256 + r.out.length
  room : r.out.length = 0 ∨ r.o ≤ len

theorem Resolve.Fits.raw {len : Nat} {r : Resolve} (h : r.Fits len) (x : Byte) : (r.emitRaw len x).Fits len := by
  unfold Resolve.emitRaw
  split
  · exact ⟨by simp [h.offset]; omega, .inr (by simp only; omega)⟩
  · exact h

theorem Resolve.Fits.emit {len : Nat} {r : Resolve} (h : r.Fits len) (x : Byte) : (r.emitByte len x).Fits len := by
  unfold Resolve.emitByte
  split
  · exact ⟨by simp [h.offset]; omega, .inr (by simp only; omega)⟩
  · exact h

theorem Resolve.Fits.next {len : Nat} {r : Resolve} (h : r.Fits len) (b : Byte) : (Resolve.next len r b).Fits len := by
  unfold Resolve.next
  split
  · have h' : (if r.prevSync then r else { r with crc := CrcParams.ccitt.init }).Fits len := by
      split
      · exact h
      · exact ⟨h.offset, h.room⟩
    exact ⟨(h'.emit _).offset, (h'.emit _).room⟩
  · split
    · exact ⟨(h.emit _).offset, (h.emit _).room⟩
    · split
      · exact ⟨((h.raw _).raw _).offset, ((h.raw _).raw _).room⟩
      · exact ⟨(h.emit _).offset, (h.emit _).room⟩

theorem resolveStream_fits (len : Nat) (bs : List Byte) : (resolveStream len bs).Fits len := by
  have : ∀ (bs : List Byte) (r : Resolve), r.Fits len → (bs.foldl (Resolve.next len) r).Fits len := by
    intro bs
    induction bs with
    | nil => exact fun _ h => h
    | cons b bs ih => exact fun r h => ih _ (h.next b)
  exact this bs _ ⟨rfl, .inl rfl⟩

end Sys2Proof.Machine
end

