-- ==== Sys2Proof/Laws/Invariant.lean ====
section
/-! SUPPORT. What no update of the machine breaks: the parameters, the canonical form of the memories, the latch, the transfer cursor, the
bounds of the track. One lemma per shared operation, composed by transitivity. -/

namespace Sys2Proof.Machine

/-- From `s` to `t` the parameters stay, the latch follows the request, and what was canonical or in bounds remains so. -/
structure Keeps (s t : State) : Prop where
  cfg : t.cfg = s.cfg
  latch : (t.flags.intrq = s.flags.intrq ∧ t.nmiStatus = s.nmiStatus) ∨
    (t.flags.intrq = true ∧ t.nmiStatus = s.cfg.nmiIntrq) ∨ (t.flags.intrq = false ∧ t.nmiStatus = s.cfg.nmiIdle)
  canon : s.memoriesCanonical = true → t.memoriesCanonical = true
  cursor : s.cursorInRange = true → t.cursorInRange = true
  fits : 256 ≤ s.cfg.trkCap → s.trackFits = true → t.trackFits = true

theorem Keeps.refl (s : State) : Keeps s s := ⟨rfl, .inl ⟨rfl, rfl⟩, id, id, fun _ => id⟩

theorem Keeps.trans {s t u : State} (h : Keeps s t) (k : Keeps t u) : Keeps s u where
  cfg := k.cfg.trans h.cfg
  latch := by
    rcases k.latch with ⟨a, b⟩ | ⟨a, b⟩ | ⟨a, b⟩
    · rw [a, b]; exact h.latch
    · exact .inr (.inl ⟨a, by rw [b, h.cfg]⟩)
    · exact .inr (.inr ⟨a, by rw [b, h.cfg]⟩)
  canon := fun x => k.canon (h.canon x)
  cursor := fun x => k.cursor (h.cursor x)
  fits := fun x y => k.fits (by rw [h.cfg]; exact x) (h.fits x y)

/-- An update that touches none of what is kept. -/
theorem Keeps.of_same {s t : State} (hc : t.cfg = s.cfg) (hi : t.flags.intrq = s.flags.intrq) (hn : t.nmiStatus = s.nmiStatus)
    (hx : t.xfer = s.xfer) (hk : t.cache = s.cache) (hd : t.dec = s.dec) (hs : t.stage = s.stage) (hh : t.hxMem = s.hxMem)
    (hf : t.flux = s.flux) (he : t.env.files = s.env.files) : Keeps s t where
  cfg := hc
  latch := .inl ⟨hi, hn⟩
  canon := fun h => by simpa only [State.memoriesCanonical, hk, hs, hh, hf, he] using h
  cursor := fun h => by simpa only [State.cursorInRange, hx] using h
  fits := fun _ h => by simpa only [State.trackFits, hk, hd, hc] using h

theorem canonical_iff (s : State) : s.memoriesCanonical = true ↔
    s.cache.trk.wf = true ∧ s.stage.wf = true ∧ s.hxMem.wf = true ∧ s.flux.wf = true ∧ ∀ f ∈ s.env.files, f.bytes.wf = true := by
  simp only [State.memoriesCanonical, Bool.and_eq_true, List.all_eq_true, and_assoc]

theorem trackFits_iff (s : State) : s.trackFits = true ↔
    s.cache.len ≤ s.cfg.trkCap ∧ (s.cache.pfx = 0 ∨ s.cache.pfx = 3) ∧ s.dec.n ≤ 128 ∧ s.dec.wp ≤ s.cfg.trkCap := by
  simp only [State.trackFits, Bool.and_eq_true, Bool.or_eq_true, beq_iff_eq, decide_eq_true_eq, and_assoc]

/-- A computation that may be refused, and what follows it. -/
theorem bind_ok {α β : Type} {x : Except Refusal α} {f : α → Except Refusal β} {b : β} (h : x >>= f = .ok b) :
    ∃ a, x = .ok a ∧ f a = .ok b := by
  cases x with
  | error e => cases h
  | ok a => exact ⟨a, rfl, h⟩

theorem next_of_answer {x : Except Refusal State} {t : State} (h : answer x = .next t) : x = .ok t := by
  cases x with
  | error e => cases h
  | ok a => cases h; rfl

theorem next_of_tellWith {α : Type} {f : α → Result} {x : Except Refusal (α × State)} {t : State} (h : tellWith f x = .next t) :
    ∃ a u, x = .ok (a, u) ∧ t = u.emit (.result (f a)) := by
  cases x with
  | error e => cases h
  | ok a => cases h; exact ⟨a.1, a.2, rfl, rfl⟩

/-- Whatever `SCAN.ENSURE` answers, it changes only what a load may change (rule R142). -/
theorem ensureTrack_frame {d : Fin 4} {side : Bool} {track : Byte} {s u : State} {ok : Bool}
    (h : ensureTrack d side track s = .ok (ok, u)) : LoadFrame s u := by
  unfold ensureTrack at h
  split at h
  · cases h; rfl
  · have := loadTrack_spec d side track s
    cases hl : loadable s d track with
    | false => rw [this.2 hl] at h; cases h
    | true =>
      obtain ⟨ok', u', e, hf, -⟩ := this.1 hl
      rw [e] at h
      cases h
      exact hf

/-! ## Events, conditions, the interrupt -/

theorem Keeps.emit (s : State) (e : Event) : Keeps s (s.emit e) := .of_same rfl rfl rfl rfl rfl rfl rfl rfl rfl rfl

theorem Keeps.raise (s : State) (c : Cond) : Keeps s (s.raise c) := by
  cases c <;> exact .of_same rfl rfl rfl rfl rfl rfl rfl rfl rfl rfl

theorem Keeps.interrupt (s : State) : Keeps s (generateInterrupt s) :=
  ⟨rfl, .inr (.inl ⟨rfl, rfl⟩), id, id, fun _ => id⟩

theorem Keeps.complete (s : State) : Keeps s (complete s) :=
  Keeps.trans (t := { s with flags := { s.flags with busy := false } })
    (.of_same rfl rfl rfl rfl rfl rfl rfl rfl rfl rfl) (.interrupt _)

theorem Keeps.clearPending (s : State) : Keeps s (clearPending s) :=
  ⟨rfl, .inr (.inr ⟨rfl, rfl⟩), id, id, fun _ => id⟩

theorem Keeps.statusReset (s : State) : Keeps s (statusReset s) :=
  ⟨rfl, .inr (.inr ⟨rfl, rfl⟩), id, id, fun _ => id⟩

theorem Keeps.forceInterrupt (ien : BitVec 4) (s : State) : Keeps s (forceInterrupt ien s) :=
  ⟨rfl, .inr (.inl ⟨rfl, rfl⟩), id, id, fun _ => id⟩

theorem Keeps.notFoundExit (s : State) : Keeps s (notFoundExit s) := (Keeps.raise s _).trans (.complete _)

theorem Keeps.handOver (tag : SvcTag) (x : Xfer) (s : State) (h : x.cur ≤ x.len) : Keeps s (handOver tag x s) :=
  ⟨rfl, .inl ⟨rfl, rfl⟩, id, fun _ => decide_eq_true h, fun _ => id⟩

/-! ## Memories -/

/-- TRK, the tables and STAGE may be replaced by canonical memories; the length and the prefix stay. -/
theorem Keeps.memories {s : State} {trk stage hx : Memory} {idam : Vector Nat 128} {dam : Vector (Option Nat) 128}
    {id : Option TrackId} {crc : Word16} (h1 : s.cache.trk.wf = true → trk.wf = true) (h2 : s.stage.wf = true → stage.wf = true)
    (h3 : s.hxMem.wf = true → hx.wf = true) :
    Keeps s { s with
      crc := crc, stage := stage, hxMem := hx
      cache := { s.cache with id := id, trk := trk, idam := idam, dam := dam } } where
  cfg := rfl
  latch := .inl ⟨rfl, rfl⟩
  canon := fun h => by
    rw [canonical_iff] at h ⊢
    exact ⟨h1 h.1, h2 h.2.1, h3 h.2.2.1, h.2.2.2⟩
  cursor := fun h => h
  fits := fun _ h => h

theorem setFile_mem {fs : List Image} {h : Nat} {f g : Image} (hg : g ∈ setFile fs h f) : g ∈ fs ∨ g = f ∨ g = Image.missing := by
  induction fs generalizing h with
  | nil =>
    induction h with
    | zero => simp only [setFile, List.mem_singleton] at hg; exact .inr (.inl hg)
    | succ n ih =>
      simp only [setFile, List.mem_cons] at hg
      rcases hg with e | e
      · exact .inr (.inr e)
      · exact ih e
  | cons x r ih =>
    cases h with
    | zero =>
      simp only [setFile, List.mem_cons] at hg
      rcases hg with e | e
      · exact .inr (.inl e)
      · exact .inl (List.mem_cons_of_mem _ e)
    | succ n =>
      simp only [setFile, List.mem_cons] at hg
      rcases hg with e | e
      · exact .inl (by rw [e]; exact List.mem_cons_self)
      · rcases ih e with a | a
        · exact .inl (List.mem_cons_of_mem _ a)
        · exact .inr a

/-- A file is replaced by one with canonical bytes. -/
theorem setFile_canon {fs : List Image} {h : Nat} {f : Image} (hf : f.bytes.wf = true) (hs : ∀ g ∈ fs, g.bytes.wf = true) :
    ∀ g ∈ setFile fs h f, g.bytes.wf = true := by
  intro g hg
  rcases setFile_mem hg with e | e | e
  · exact hs g e
  · rw [e]; exact hf
  · rw [e]; rfl

theorem getD_canon {fs : List Image} {h : Nat} {d : Image} (hd : d.bytes.wf = true) (hs : ∀ g ∈ fs, g.bytes.wf = true) :
    (fs.getD h d).bytes.wf = true := by
  rw [List.getD_eq_getElem?_getD]
  cases e : fs[h]? with
  | none => exact hd
  | some g => exact hs g (List.mem_of_getElem? e)

theorem fileAt_canon {s : State} (h : ∀ g ∈ s.env.files, g.bytes.wf = true) (n : Nat) : (fileAt s n).bytes.wf = true :=
  getD_canon rfl h

/-- The files may be replaced by canonical ones. -/
theorem Keeps.files {s : State} {fs : List Image} {ev : List Event}
    (h : s.cache.trk.wf = true → (∀ g ∈ s.env.files, g.bytes.wf = true) → ∀ g ∈ fs, g.bytes.wf = true) :
    Keeps s { s with env := { s.env with files := fs }, events := ev } where
  cfg := rfl
  latch := .inl ⟨rfl, rfl⟩
  canon := fun k => by
    rw [canonical_iff] at k ⊢
    exact ⟨k.1, k.2.1, k.2.2.1, k.2.2.2.1, h k.1 k.2.2.2.2⟩
  cursor := fun h => h
  fits := fun _ h => h

/-! ## The DEC unit -/

theorem Keeps.recordId (s : State) (n : Fin 128) (bytes : List Byte) (m : Nat) (hn : s.dec.n < 128)
    (hw : s.dec.wp + bytes.length ≤ s.cfg.trkCap) : Keeps s (recordId s n bytes m) where
  cfg := rfl
  latch := .inl ⟨rfl, rfl⟩
  canon := fun h => by
    rw [canonical_iff] at h ⊢
    exact ⟨Memory.wf_writeBlock h.1 _ _, h.2⟩
  cursor := fun h => h
  fits := fun _ h => by
    rw [trackFits_iff] at h ⊢
    exact ⟨h.1, h.2.1, hn, hw⟩

theorem Keeps.recordData (s : State) (c : Fin 128) (bytes : List Byte) (m : Nat)
    (hw : s.dec.wp + bytes.length ≤ s.cfg.trkCap) : Keeps s (recordData s c bytes m) where
  cfg := rfl
  latch := .inl ⟨rfl, rfl⟩
  canon := fun h => by
    rw [canonical_iff] at h ⊢
    exact ⟨Memory.wf_writeBlock h.1 _ _, h.2⟩
  cursor := fun h => h
  fits := fun _ h => by
    rw [trackFits_iff] at h ⊢
    exact ⟨h.1, h.2.1, h.2.2.1, hw⟩

theorem Keeps.dropId (s : State) : Keeps s (dropId s) := by
  unfold Machine.dropId
  split
  · exact ⟨rfl, .inl ⟨rfl, rfl⟩, id, id, fun _ h => by rw [trackFits_iff] at h ⊢; exact h⟩
  · exact .refl s

theorem Keeps.idField (side : Bool) (q : Nat) (b1 b2 : Byte) (s : State) : Keeps s (idField side q b1 b2 s).2 := by
  rcases idField_cases side q b1 b2 s with ⟨n, e, h1, -, h2⟩ | ⟨e, -⟩
  · rw [e]
    exact .recordId _ _ _ _ (by omega) (by simpa using h2)
  · rw [e]
    exact .dropId s

theorem Keeps.dataField {side : Bool} {q : Nat} {b1 b2 b3 : Byte} {s t : State} {r : Option Nat}
    (h : dataField side q b1 b2 b3 s = .ok (r, t)) : Keeps s t := by
  unfold Machine.dataField at h
  cases hc : s.dec.cur with
  | none => simp only [hc] at h; cases h; exact .refl s
  | some c =>
    simp only [hc] at h
    split at h
    · cases h; exact .refl s
    · cases hz : dataSize s c with
      | error e => simp only [hz, bind, Except.bind] at h; cases h
      | ok size =>
        simp only [hz, bind, Except.bind] at h
        split at h
        · rename_i hw
          cases h
          exact .recordData _ _ _ _ (by simp only [List.length_append, List.length_cons, List.length_nil, decodedBytes_length]; omega)
        · cases h; exact .refl s

/-- A decoded side: the cache's bytes, tables, length and prefix, and the DEC unit. -/
theorem Keeps.decoded {s t : State} {side : Bool} {mode : Encoding} {pfx : Nat} (h : LoopInv (startDecode side mode s) t)
    (hp : pfx = 0 ∨ pfx = 3) : Keeps s (endDecode pfx t) := by
  rw [decode_frame h]
  refine ⟨rfl, .inl ⟨rfl, rfl⟩, fun k => ?_, fun k => k, fun hc k => ?_⟩
  · rw [canonical_iff] at k ⊢
    exact ⟨h.canon (Memory.wf_clear k.1 _ _), k.2⟩
  · have h1 := h.high
    have e : (startDecode side mode s).cfg = s.cfg := rfl
    rw [trackFits_iff] at k ⊢
    rw [e] at h1
    have h2 : t.dec.wp ≤ s.cfg.trkCap := by omega
    exact ⟨h2, hp, h.count, h2⟩

theorem Keeps.decodeTrack {side : Bool} {s t : State} (h : decodeTrack side s = .ok t) : Keeps s t := by
  obtain ⟨u, e, hu, -⟩ := decodeTrack_spec side s
  rw [e] at h
  cases h
  exact .decoded hu (.inr rfl)

theorem Keeps.decodeFmTrack {side : Bool} {s t : State} (h : decodeFmTrack side s = .ok t) : Keeps s t := by
  obtain ⟨u, e, hu, -⟩ := decodeFmTrack_spec side s
  rw [e] at h
  cases h
  exact .decoded hu (.inl rfl)

/-! ## The SCAN unit -/

theorem Keeps.dmkTables {s t : State} (h : dmkTables s = .ok t) : Keeps s t := by
  unfold Machine.dmkTables at h
  split at h
  · cases h
    exact .memories (trk := s.cache.trk) (stage := s.stage) (hx := s.hxMem) (crc := s.crc) id id id
  · cases h

theorem Keeps.loadDmk {d : Fin 4} {side : Bool} {track : Byte} {s t : State} {ok : Bool}
    (h : loadDmk d side track s = .ok (ok, t)) : Keeps s t := by
  unfold Machine.loadDmk at h
  simp only at h
  split at h
  · cases h; exact .refl s
  · rename_i hb
    split at h
    · unfold Machine.dmkTables at h
      simp only [bind, Except.bind] at h
      rw [if_pos (Nat.le_of_not_lt fun h => hb (.inr (.inr (.inr (.inl h)))))] at h
      cases h
      refine ⟨rfl, .inl ⟨rfl, rfl⟩, fun k => ?_, fun k => k, fun _ k => ?_⟩
      · rw [canonical_iff] at k ⊢
        exact ⟨Memory.wf_copy k.1 (fileAt_canon k.2.2.2.2 _) _ _ _, k.2⟩
      · rw [trackFits_iff] at k ⊢
        exact ⟨Nat.le_of_not_lt fun h => hb (.inr (.inr (.inr (.inr h)))), .inr rfl, k.2.2⟩
    · cases h; exact .refl s

theorem Keeps.loadHfe {d : Fin 4} {side : Bool} {track : Byte} {s t : State} {ok : Bool}
    (h : loadHfe d side track s = .ok (ok, t)) : Keeps s t := by
  unfold Machine.loadHfe at h
  simp only at h
  split at h
  · cases h; exact .refl s
  · split at h
    · cases h
    · rename_i blk len hl
      split at h
      · cases h; exact .refl s
      · split at h
        · have start : ∀ fl n ev, (s.memoriesCanonical = true → Memory.wf fl = true) →
              Keeps s { s with flux := fl, fluxLen := n, events := ev } := fun fl n ev hw =>
            ⟨rfl, .inl ⟨rfl, rfl⟩, fun k => by
              have := hw k
              rw [canonical_iff] at k ⊢
              exact ⟨k.1, k.2.1, k.2.2.1, this, k.2.2.2.2⟩, fun k => k, fun _ k => k⟩
          have k0 := start (Memory.copy [] 0 (fileAt s s.drives[d].handle).bytes (blk * 512) len) len
            (.imgRead s.drives[d].handle (blk * 512) len :: s.events)
            (fun k => Memory.wf_copy rfl (fileAt_canon ((canonical_iff s).mp k).2.2.2.2 _) _ _ _)
          have stop : ∀ u : State, Keeps u (nameTrack d side track { u with flux := [], fluxLen := 0 }) := fun u =>
            ⟨rfl, .inl ⟨rfl, rfl⟩, fun k => by
              rw [canonical_iff] at k ⊢
              exact ⟨k.1, k.2.1, k.2.2.1, rfl, k.2.2.2.2⟩, fun k => k, fun _ k => k⟩
          by_cases he : s.drives[d].encoding = .mfm
          · simp only [if_pos he] at h
            obtain ⟨u, hu, h⟩ := bind_ok h
            cases h
            exact (k0.trans (.decodeTrack hu)).trans (stop u)
          · simp only [if_neg he] at h
            obtain ⟨u, hu, h⟩ := bind_ok h
            cases h
            exact (k0.trans (.decodeFmTrack hu)).trans (stop u)
        · cases h

theorem Keeps.forgetTrack (s : State) : Keeps s (forgetTrack s) :=
  .memories (trk := s.cache.trk) (stage := s.stage) (hx := s.hxMem) (crc := s.crc) id id id

theorem Keeps.loadTrack {d : Fin 4} {side : Bool} {track : Byte} {s t : State} {ok : Bool}
    (h : loadTrack d side track s = .ok (ok, t)) : Keeps s t := by
  unfold Machine.loadTrack at h
  split at h
  · cases h; exact .forgetTrack s
  · exact (Keeps.forgetTrack s).trans (.loadDmk h)
  · exact (Keeps.forgetTrack s).trans (.loadHfe h)

theorem Keeps.ensureTrack {d : Fin 4} {side : Bool} {track : Byte} {s t : State} {ok : Bool}
    (h : ensureTrack d side track s = .ok (ok, t)) : Keeps s t := by
  unfold Machine.ensureTrack at h
  split at h
  · cases h; exact .refl s
  · exact .loadTrack h

theorem Keeps.crc (s : State) (c : Word16) : Keeps s { s with crc := c } := .of_same rfl rfl rfl rfl rfl rfl rfl rfl rfl rfl

theorem Keeps.crcRangeOp {sp : Space} {start len : Nat} {s t : State} (h : crcRangeOp sp start len s = .ok t) : Keeps s t := by
  unfold Machine.crcRangeOp at h
  split at h
  · cases h; exact .crc s _
  · cases h

theorem Keeps.checkField {start len stored : Nat} {s t : State} {ok : Bool} (h : checkField start len stored s = .ok (ok, t)) :
    Keeps s t := by
  unfold Machine.checkField at h
  obtain ⟨u, h1, h⟩ := bind_ok h
  obtain ⟨hi, -, h⟩ := bind_ok h
  obtain ⟨lo, -, h⟩ := bind_ok h
  cases h
  exact .crcRangeOp h1

theorem Keeps.idCrcCheck {i : Fin 128} {s t : State} {ok : Bool} (h : idCrcCheck i s = .ok (ok, t)) : Keeps s t := by
  unfold Machine.idCrcCheck at h
  simp only at h
  split at h
  · cases h
  · exact .checkField h

theorem Keeps.dataCrcCheck {i : Fin 128} {s t : State} {ok : Bool} (h : dataCrcCheck i s = .ok (ok, t)) : Keeps s t := by
  unfold Machine.dataCrcCheck at h
  obtain ⟨v, -, h⟩ := bind_ok h
  cases v with
  | none => cases h
  | some v => exact .checkField h

theorem Keeps.dataCrcGen {i : Fin 128} {s t : State} (h : dataCrcGen i s = .ok t) : Keeps s t := by
  unfold Machine.dataCrcGen at h
  obtain ⟨v, -, h⟩ := bind_ok h
  cases v with
  | none => cases h
  | some v =>
    obtain ⟨u, hu, h⟩ := bind_ok h
    cases h
    refine (Keeps.crcRangeOp hu).trans ?_
    exact .memories (stage := u.stage) (hx := u.hxMem) (crc := u.crc) (fun k => Memory.wf_writeBlock k _ _) id id

theorem Keeps.wtResolve {m : Nat} {s t : State} (h : wtResolve m s = .ok t) : Keeps s t := by
  unfold Machine.wtResolve at h
  split at h
  · cases h
  · split at h
    · cases h
    · cases h
      exact .memories (stage := s.stage) (hx := s.hxMem) (fun k => Memory.wf_writeBlock k _ _) id id

theorem Keeps.wtRebuild {d : Fin 4} {s t : State} (h : wtRebuild d s = .ok t) : Keeps s t := by
  unfold Machine.wtRebuild at h
  split at h
  · cases h
  · refine Keeps.trans ?_ (.dmkTables h)
    exact .memories (stage := s.stage) (hx := s.hxMem) (crc := s.crc) (fun k => Memory.wf_writeBlock (Memory.wf_clear k _ _) _ _) id id

theorem Keeps.flushTrack {s t : State} (h : flushTrack s = .ok t) : Keeps s t := by
  unfold Machine.flushTrack at h
  split at h
  · cases h
  · simp only at h
    split at h
    · cases h; exact .refl s
    · cases h
    · split at h
      · cases h; exact .refl s
      · cases h
        exact .files fun hk hf => setFile_canon (Memory.wf_copy (fileAt_canon hf _) hk _ _ _) hf

/-! ## The commands -/

theorem Keeps.finishStep {w : StepWait} {s t : State} (h : finishStep w s = .ok t) : Keeps s t := by
  unfold Machine.finishStep at h
  split at h
  · obtain ⟨⟨ok, u⟩, h1, h⟩ := bind_ok h
    cases h
    refine (Keeps.ensureTrack h1).trans (.trans ?_ (.complete _))
    exact .of_same rfl rfl rfl rfl rfl rfl rfl rfl rfl rfl
  · cases h
    refine .trans ?_ (.complete _)
    exact .of_same rfl rfl rfl rfl rfl rfl rfl rfl rfl rfl

theorem Keeps.afterDelay {us : Nat} {w : StepWait} {s t : State} (h : afterDelay us w s = .ok t) : Keeps s t := by
  unfold Machine.afterDelay at h
  simp only at h
  split at h
  · refine Keeps.trans ?_ (.finishStep h)
    exact .of_same rfl rfl rfl rfl rfl rfl rfl rfl rfl rfl
  · cases h
    exact .of_same rfl rfl rfl rfl rfl rfl rfl rfl rfl rfl

theorem Keeps.restoreBody {s t : State} (h : restoreBody s = .ok t) : Keeps s t := by
  have finish : ∀ u : State, Keeps u (Machine.complete { u with track := 0, flags := { u.flags with seekErr := false } }) := fun u =>
    Keeps.trans (t := { u with track := 0, flags := { u.flags with seekErr := false } })
      (.of_same rfl rfl rfl rfl rfl rfl rfl rfl rfl rfl) (.complete _)
  unfold Machine.restoreBody at h
  cases hm : mounted s with
  | none => simp only [hm] at h; cases h; exact finish s
  | some d =>
    simp only [hm] at h
    obtain ⟨⟨ok, v⟩, h2, h⟩ := bind_ok h
    cases h
    exact (Keeps.ensureTrack h2).trans (finish v)

theorem Keeps.seekBody {rate : BitVec 2} {s t : State} (h : seekBody rate s = .ok t) : Keeps s t := by
  unfold Machine.seekBody at h
  split at h
  · cases h; exact (Keeps.raise s _).trans (.complete _)
  · split at h
    · cases h; exact (Keeps.raise s _).trans (.complete _)
    · exact .afterDelay h

theorem Keeps.stepBody {u : Bool} {rate : BitVec 2} {s t : State} (h : stepBody u rate s = .ok t) : Keeps s t :=
  .afterDelay h

theorem Keeps.stepinBody {u : Bool} {rate : BitVec 2} {s t : State} (h : stepinBody u rate s = .ok t) : Keeps s t :=
  Keeps.trans (t := { s with dir := .plus }) (.of_same rfl rfl rfl rfl rfl rfl rfl rfl rfl rfl) (.afterDelay h)

theorem Keeps.stepoutBody {u : Bool} {rate : BitVec 2} {s t : State} (h : stepoutBody u rate s = .ok t) : Keeps s t :=
  Keeps.trans (t := { s with dir := .minus }) (.of_same rfl rfl rfl rfl rfl rfl rfl rfl rfl rfl) (.afterDelay h)

theorem Keeps.resolveSector {s t : State} {r : Option (Fin 128 × SectorView)} (h : resolveSector s = .ok (r, t)) : Keeps s t := by
  unfold Machine.resolveSector at h
  split at h
  · cases h; exact .refl s
  · obtain ⟨⟨ok, u⟩, h1, h⟩ := bind_ok h
    have hu := Keeps.ensureTrack h1
    simp only at h
    split at h
    · cases h; exact hu
    · obtain ⟨f, -, h⟩ := bind_ok h
      cases f with
      | none => cases h; exact hu
      | some i =>
        obtain ⟨v, -, h⟩ := bind_ok h
        cases v with
        | none => cases h; exact hu
        | some v => cases h; exact hu

theorem Keeps.raiseUnless (ok : Bool) (c : Cond) (s : State) : Keeps s (raiseUnless ok c s) := by
  cases ok
  · exact .raise s c
  · exact .refl s

theorem Keeps.rdsecBody {s t : State} (h : rdsecBody s = .ok t) : Keeps s t := by
  unfold Machine.rdsecBody at h
  obtain ⟨⟨f, u⟩, h1, h⟩ := bind_ok h
  have hu := Keeps.resolveSector h1
  cases f with
  | none => cases h; exact hu.trans (.notFoundExit _)
  | some iv =>
    obtain ⟨⟨b1, u1⟩, h2, h⟩ := bind_ok h
    obtain ⟨⟨b2, u2⟩, h3, h⟩ := bind_ok h
    cases h
    refine ((hu.trans (.idCrcCheck h2)).trans (.raiseUnless _ _ _)).trans ((Keeps.dataCrcCheck h3).trans ?_)
    refine (Keeps.raiseUnless b2 .crcError u2).trans (.trans ?_ (.handOver _ _ _ (Nat.zero_le _)))
    exact .of_same rfl rfl rfl rfl rfl rfl rfl rfl rfl rfl

theorem Keeps.wrsecBody {s t : State} (h : wrsecBody s = .ok t) : Keeps s t := by
  unfold Machine.wrsecBody at h
  obtain ⟨⟨f, u⟩, h1, h⟩ := bind_ok h
  have hu := Keeps.resolveSector h1
  cases f with
  | none => cases h; exact hu.trans (.notFoundExit _)
  | some iv => cases h; exact hu.trans (.handOver _ _ _ (Nat.zero_le _))

theorem Keeps.rdaddrBody {s t : State} (h : rdaddrBody s = .ok t) : Keeps s t := by
  unfold Machine.rdaddrBody at h
  split at h
  · cases h; exact .notFoundExit s
  · obtain ⟨⟨ok, u⟩, h1, h⟩ := bind_ok h
    have hu := Keeps.ensureTrack h1
    simp only at h
    split at h
    · cases h; exact hu.trans (.notFoundExit _)
    · split at h
      · cases h; exact hu.trans (.notFoundExit _)
      · obtain ⟨bs, -, h⟩ := bind_ok h
        cases h
        refine (hu.trans ?_).trans (.handOver _ _ _ (Nat.zero_le _))
        exact .memories (trk := u.cache.trk) (hx := u.hxMem) (crc := u.crc) (idam := u.cache.idam) (dam := u.cache.dam)
          (id := u.cache.id) id (fun k => Memory.wf_writeBlock k _ _) id

theorem Keeps.rdtrkBody (s : State) : Keeps s (rdtrkBody s) := .handOver _ _ _ (Nat.zero_le _)

theorem Keeps.wrtrkBody {s t : State} (h : wrtrkBody s = .ok t) : Keeps s t := by
  unfold Machine.wrtrkBody at h
  split at h
  · cases h; exact .notFoundExit s
  · split at h
    · cases h
    · obtain ⟨⟨ok, u⟩, h1, h⟩ := bind_ok h
      have hu := Keeps.ensureTrack h1
      simp only at h
      split at h
      · cases h; exact hu.trans (.notFoundExit _)
      · cases h
        refine (hu.trans ?_).trans (.handOver _ _ _ (Nat.zero_le _))
        exact .memories (stage := u.stage) (hx := u.hxMem) (crc := u.crc) (idam := u.cache.idam) (dam := u.cache.dam)
          (id := u.cache.id) (fun k => Memory.wf_clear k _ _) id id

/-! ## The bus -/

theorem Keeps.busEffect (t : BusTxn) (s : State) : Keeps s (busEffect t s) := by
  cases t with
  | rdStatus =>
    simp only [Machine.busEffect, rdStatusEffect, returnByte]
    split
    · exact (Keeps.clearPending s).trans (.emit _ _)
    · exact .emit _ _
  | rdTrack => exact .emit _ _
  | rdSector => exact .emit _ _
  | rdNmi => exact .emit _ _
  | rdData =>
    simp only [Machine.busEffect, rdDataEffect, takeDataByte, returnByte]
    split
    · split <;> exact .of_same rfl rfl rfl rfl rfl rfl rfl rfl rfl rfl
    · exact .of_same rfl rfl rfl rfl rfl rfl rfl rfl rfl rfl
  | wrCmd v =>
    simp only [Machine.busEffect, wrCmdEffect]
    split
    · exact .refl s
    · have h1 : Keeps s (Machine.statusReset { s with command := v, cmdType := classify s v }) :=
        Keeps.trans (t := { s with command := v, cmdType := classify s v }) (.of_same rfl rfl rfl rfl rfl rfl rfl rfl rfl rfl) (.statusReset _)
      split
      · exact h1.trans (.of_same rfl rfl rfl rfl rfl rfl rfl rfl rfl rfl)
      · split
        · exact (h1.trans (.of_same rfl rfl rfl rfl rfl rfl rfl rfl rfl rfl)).trans (.forceInterrupt _ _)
        · exact h1.trans (.of_same rfl rfl rfl rfl rfl rfl rfl rfl rfl rfl)
  | wrTrack v => exact .of_same rfl rfl rfl rfl rfl rfl rfl rfl rfl rfl
  | wrSector v => exact .of_same rfl rfl rfl rfl rfl rfl rfl rfl rfl rfl
  | wrData v => exact .of_same rfl rfl rfl rfl rfl rfl rfl rfl rfl rfl
  | wrNmi v => exact .of_same rfl rfl rfl rfl rfl rfl rfl rfl rfl rfl
  | wrDrvsel v => exact .of_same rfl rfl rfl rfl rfl rfl rfl rfl rfl rfl

/-! ## Reset -/

theorem Keeps.resetState (s : State) : Keeps s (resetState s) where
  cfg := rfl
  latch := .inr (.inr ⟨rfl, rfl⟩)
  canon := fun h => h
  cursor := fun _ => rfl
  fits := fun _ h => by
    rw [trackFits_iff] at h ⊢
    exact ⟨Nat.zero_le _, .inr rfl, h.2.2⟩

end Sys2Proof.Machine
end

