-- ==== Sys2Proof/Laws/PerInstr.lean ====
section
/-! SUPPORT. The statement made per instruction: decoding an instruction's own packet gives it back. -/

namespace Sys2Proof

@[simp] theorem takeByte_cons (b : Byte) (r : List Byte) : takeByte (b :: r) = .ok (b, r) := rfl

theorem take32_le32Bytes (n : Nat) (h : fits32 n = true) (r : List Byte) :
    take32 (le32Bytes n ++ r) = .ok (n, r) := by
  simp only [fits32, decide_eq_true_eq] at h
  simp only [le32Bytes, take32, le32, List.cons_append, List.nil_append, BitVec.toNat_ofNat, Except.ok.injEq,
    Prod.mk.injEq, and_true]
  omega

@[simp] theorem takeSide_sideByte (s : Bool) (r : List Byte) : takeSide (sideByte s :: r) = .ok (s, r) := by
  cases s <;> rfl

@[simp] theorem takeDrive_driveByte (d : Fin 4) (r : List Byte) : takeDrive (driveByte d :: r) = .ok (d, r) := by
  have : (driveByte d).toNat = d.val := by simp [driveByte]; omega
  simp [takeDrive, this]

@[simp] theorem takeSlot_slotByte (i : Fin 128) (r : List Byte) : takeSlot (slotByte i :: r) = .ok (i, r) := by
  have : (slotByte i).toNat = i.val := by simp [slotByte]; omega
  simp [takeSlot, this]

@[simp] theorem takeSpace_spaceByte (sp : Space) (r : List Byte) : takeSpace (spaceByte sp :: r) = .ok (sp, r) := by
  cases sp <;> rfl

@[simp] theorem done_zeros (i : Instr) (n : Nat) : done i (List.replicate n 0) = .ok i := by
  simp [done]

@[simp] theorem done_nil (i : Instr) : done i [] = .ok i := rfl

@[simp] theorem layerOf_tag (op : Byte) (l : Layer) : layerOf op l.tag = .ok l := by
  cases l <;> rfl

/-- A packet of at most nine operand bytes is read in the layer it names. -/
theorem decode_packet (l : Layer) (op : Byte) (os : List Byte) (h : os.length ≤ 9) :
    decode (packet l op os) = decodeIn l op (os ++ List.replicate (9 - os.length) 0) := by
  have hl : (packet l op os).length = packetLength := by
    simp [packet, packetLength]; omega
  unfold decode
  rw [if_pos hl]
  simp [packet]

theorem hi_lo_append (w : Word16) : w.extractLsb' 8 8 ++ w.extractLsb' 0 8 = w := by
  apply BitVec.eq_of_getLsbD_eq
  intro k hk
  simp only [BitVec.getLsbD_append, BitVec.getLsbD_extractLsb']
  by_cases h : k < 8
  · simp [h]
  · have h8 : k - 8 < 8 := by omega
    have e : 8 + (k - 8) = k := by omega
    simp [h, h8, e]

theorem bv2_cases (a : BitVec 2) : a = 0 ∨ a = 1 ∨ a = 2 ∨ a = 3 := by revert a; decide

namespace Laws.RoundTrip

/-- Rules R82 to R91: the packet of a well-formed instruction decodes to that instruction, every operand kept. -/
def Statement (i : Instr) : Prop := WellFormed i = true → decode (encode i) = .ok i

theorem rdStatus : Statement .rdStatus := fun _ => rfl
theorem rdTrack : Statement .rdTrack := fun _ => rfl
theorem rdSector : Statement .rdSector := fun _ => rfl
theorem rdData : Statement .rdData := fun _ => rfl
theorem wrCmd (v : Byte) : Statement (.wrCmd v) := fun _ => rfl
theorem wrTrack (v : Byte) : Statement (.wrTrack v) := fun _ => rfl
theorem wrSector (v : Byte) : Statement (.wrSector v) := fun _ => rfl
theorem wrData (v : Byte) : Statement (.wrData v) := fun _ => rfl
theorem rdNmi (a : BitVec 2) : Statement (.rdNmi a) := fun _ => by
  rcases bv2_cases a with rfl | rfl | rfl | rfl <;> rfl
theorem wrNmi (a : BitVec 2) (v : Byte) : Statement (.wrNmi a v) := fun _ => by
  rcases bv2_cases a with rfl | rfl | rfl | rfl <;> rfl
theorem wrDrvsel (a : BitVec 2) (v : Byte) : Statement (.wrDrvsel a v) := fun _ => by
  rcases bv2_cases a with rfl | rfl | rfl | rfl <;> rfl
theorem restore (z : BitVec 4) : Statement (.restore z) := fun _ => by revert z; decide
theorem seek (z rate : BitVec 2) : Statement (.seek z rate) := fun _ => by revert z rate; decide
theorem step (u : Bool) (z rate : BitVec 2) : Statement (.step u z rate) := fun _ => by revert u z rate; decide
theorem stepin (u : Bool) (z rate : BitVec 2) : Statement (.stepin u z rate) := fun _ => by revert u z rate; decide
theorem stepout (u : Bool) (z rate : BitVec 2) : Statement (.stepout u z rate) := fun _ => by revert u z rate; decide
theorem rdsec (z : BitVec 5) : Statement (.rdsec z) := fun _ => by revert z; decide
theorem wrsec (z : BitVec 5) : Statement (.wrsec z) := fun _ => by revert z; decide
theorem rdaddr (z : BitVec 4) : Statement (.rdaddr z) := fun _ => by revert z; decide
theorem forceint (z : BitVec 4) : Statement (.forceint z) := fun _ => by revert z; decide
theorem rdtrk (z : BitVec 4) : Statement (.rdtrk z) := fun _ => by revert z; decide
theorem wrtrk (z : BitVec 4) : Statement (.wrtrk z) := fun _ => by revert z; decide
theorem hxVersion : Statement .hxVersion := fun _ => rfl
theorem hxFindfirst : Statement .hxFindfirst := fun _ => rfl
theorem hxFindnext : Statement .hxFindnext := fun _ => rfl
theorem hxMount : Statement .hxMount := fun _ => rfl
theorem hxOpen : Statement .hxOpen := fun _ => rfl
theorem hxRead : Statement .hxRead := fun _ => rfl
theorem hxWrite : Statement .hxWrite := fun _ => rfl
theorem hxClose : Statement .hxClose := fun _ => rfl
theorem hxSettime : Statement .hxSettime := fun _ => rfl
theorem hxGettime : Statement .hxGettime := fun _ => rfl
theorem hxFindini : Statement .hxFindini := fun _ => rfl
theorem hxFinddmk : Statement .hxFinddmk := fun _ => rfl
theorem hxFindhfe : Statement .hxFindhfe := fun _ => rfl
theorem hxUnknown (b : Byte) : Statement (.hxUnknown b) := by
  revert b; unfold Statement; decide +kernel
theorem crcInit : Statement .crcInit := fun _ => rfl
theorem crcByte (b : Byte) : Statement (.crcByte b) := fun _ => rfl
theorem crcRange (sp : Space) (start len : Nat) : Statement (.crcRange sp start len) := fun h => by
  simp only [WellFormed, Bool.and_eq_true] at h
  rw [encode, decode_packet _ _ _ (by simp [le32Bytes])]
  simp [decodeIn, decodeUnitop, done, bind, Except.bind, take32_le32Bytes, h, List.append_assoc]
theorem crcRead : Statement .crcRead := fun _ => rfl
theorem crcCheck (hi lo : Byte) : Statement (.crcCheck hi lo) := fun _ => rfl
theorem decBit (s : Bool) (k : Nat) : Statement (.decBit s k) := fun h => by
  simp only [WellFormed] at h
  rw [encode, decode_packet _ _ _ (by simp [le32Bytes])]
  simp [decodeIn, decodeUnitop, done, bind, Except.bind, take32_le32Bytes, h]
theorem decWord (s : Bool) (k : Nat) : Statement (.decWord s k) := fun h => by
  simp only [WellFormed] at h
  rw [encode, decode_packet _ _ _ (by simp [le32Bytes])]
  simp [decodeIn, decodeUnitop, done, bind, Except.bind, take32_le32Bytes, h]
theorem decMfmbyte (w : Word16) : Statement (.decMfmbyte w) := fun _ => by
  rw [encode, decode_packet _ _ _ (by simp)]
  simp [decodeIn, decodeUnitop, done, bind, Except.bind, hi_lo_append]
theorem decSyncscan (s : Bool) (k : Nat) : Statement (.decSyncscan s k) := fun h => by
  simp only [WellFormed] at h
  rw [encode, decode_packet _ _ _ (by simp [le32Bytes])]
  simp [decodeIn, decodeUnitop, done, bind, Except.bind, take32_le32Bytes, h]
theorem decMark (s : Bool) (k : Nat) : Statement (.decMark s k) := fun h => by
  simp only [WellFormed] at h
  rw [encode, decode_packet _ _ _ (by simp [le32Bytes])]
  simp [decodeIn, decodeUnitop, done, bind, Except.bind, take32_le32Bytes, h]
theorem decIdfield (s : Bool) (q : Nat) (b1 b2 : Byte) : Statement (.decIdfield s q b1 b2) := fun h => by
  simp only [WellFormed] at h
  rw [encode, decode_packet _ _ _ (by simp [le32Bytes])]
  simp [decodeIn, decodeUnitop, done, bind, Except.bind, take32_le32Bytes, h]
theorem decDatafield (s : Bool) (q : Nat) (b1 b2 b3 : Byte) : Statement (.decDatafield s q b1 b2 b3) := fun h => by
  simp only [WellFormed] at h
  rw [encode, decode_packet _ _ _ (by simp [le32Bytes])]
  simp [decodeIn, decodeUnitop, done, bind, Except.bind, take32_le32Bytes, h]
theorem decTrack (s : Bool) : Statement (.decTrack s) := fun _ => by cases s <;> rfl
theorem decFmword (s : Bool) (k : Nat) : Statement (.decFmword s k) := fun h => by
  simp only [WellFormed] at h
  rw [encode, decode_packet _ _ _ (by simp [le32Bytes])]
  simp [decodeIn, decodeUnitop, done, bind, Except.bind, take32_le32Bytes, h]
theorem decFmscan (s : Bool) (k : Nat) : Statement (.decFmscan s k) := fun h => by
  simp only [WellFormed] at h
  rw [encode, decode_packet _ _ _ (by simp [le32Bytes])]
  simp [decodeIn, decodeUnitop, done, bind, Except.bind, take32_le32Bytes, h]
theorem decFmtrack (s : Bool) : Statement (.decFmtrack s) := fun _ => by cases s <;> rfl
theorem scanDmkOffset (d : Fin 4) (t : Byte) (s : Bool) : Statement (.scanDmkOffset d t s) := fun _ => by
  rw [encode, decode_packet _ _ _ (by simp)]
  simp [decodeIn, decodeUnitop, done, bind, Except.bind]
theorem scanLoad (d : Fin 4) (s : Bool) (t : Byte) : Statement (.scanLoad d s t) := fun _ => by
  rw [encode, decode_packet _ _ _ (by simp)]
  simp [decodeIn, decodeUnitop, done, bind, Except.bind]
theorem scanEnsure (d : Fin 4) (s : Bool) (t : Byte) : Statement (.scanEnsure d s t) := fun _ => by
  rw [encode, decode_packet _ _ _ (by simp)]
  simp [decodeIn, decodeUnitop, done, bind, Except.bind]
theorem scanDmkTables : Statement .scanDmkTables := fun _ => rfl
theorem scanDamlookup (o : Nat) : Statement (.scanDamlookup o) := fun h => by
  simp only [WellFormed] at h
  rw [encode, decode_packet _ _ _ (by simp [le32Bytes])]
  simp [decodeIn, decodeUnitop, done, bind, Except.bind, take32_le32Bytes, h]
theorem scanFind (t sd sec : Byte) : Statement (.scanFind t sd sec) := fun h => by
  simp only [WellFormed, Bool.or_eq_true, beq_iff_eq] at h
  rw [encode, decode_packet _ _ _ (by simp)]
  rcases h with rfl | rfl <;> simp [decodeIn, decodeUnitop, done, bind, Except.bind]
theorem scanFirstidam : Statement .scanFirstidam := fun _ => rfl
theorem scanView (i : Fin 128) : Statement (.scanView i) := fun _ => by
  rw [encode, decode_packet _ _ _ (by simp)]
  simp [decodeIn, decodeUnitop, done, bind, Except.bind]
theorem scanIdcrcCheck (i : Fin 128) : Statement (.scanIdcrcCheck i) := fun _ => by
  rw [encode, decode_packet _ _ _ (by simp)]
  simp [decodeIn, decodeUnitop, done, bind, Except.bind]
theorem scanDatacrcCheck (i : Fin 128) : Statement (.scanDatacrcCheck i) := fun _ => by
  rw [encode, decode_packet _ _ _ (by simp)]
  simp [decodeIn, decodeUnitop, done, bind, Except.bind]
theorem scanDatacrcGen (i : Fin 128) : Statement (.scanDatacrcGen i) := fun _ => by
  rw [encode, decode_packet _ _ _ (by simp)]
  simp [decodeIn, decodeUnitop, done, bind, Except.bind]
theorem scanWtResolve (m : Nat) : Statement (.scanWtResolve m) := fun h => by
  simp only [WellFormed] at h
  rw [encode, decode_packet _ _ _ (by simp [le32Bytes])]
  simp [decodeIn, decodeUnitop, done, bind, Except.bind, take32_le32Bytes, h]
theorem scanWtRebuild (d : Fin 4) : Statement (.scanWtRebuild d) := fun _ => by
  rw [encode, decode_packet _ _ _ (by simp)]
  simp [decodeIn, decodeUnitop, done, bind, Except.bind]
theorem scanFlush : Statement .scanFlush := fun _ => rfl
theorem cmdClassify (v : Byte) : Statement (.cmdClassify v) := fun _ => rfl
theorem cmdDispatch : Statement .cmdDispatch := fun _ => rfl
theorem reset : Statement .reset := fun _ => rfl

end Laws.RoundTrip

end Sys2Proof
end

