-- ==== Sys2Proof/Laws/Turns.lean ====
section
/-! SUPPORT. The loops of DEC.TRACK, DEC.FMTRACK and SCAN.WT_RESOLVE as the rules write them, turn by turn (rules R130, R135, R155). -/

namespace Sys2Proof.Machine

/-! ## DEC.TRACK -/

/-- A turn of the loop is the turn of rule R130, made of the unit operations. -/
theorem mfmTurn_turned {side : Bool} {q : Nat} {s s' : State} {r : Option Nat} (hq : syncScan s side s.dec.p = some q)
    (h : mfmTurn side q s = .ok (r, s')) : mfmTurned side s (resumeAt q r s') := by
  refine ⟨q, markAt s side q, r, s', ?_, rfl, ?_, ?_⟩
  · show tell (.position (syncScan s side s.dec.p)) s = _
    rw [hq]
    rfl
  · unfold mfmTurn at h
    cases hm : markAt s side q with
    | fail =>
      simp only [hm, Except.ok.injEq, Prod.mk.injEq] at h
      exact ⟨h.2.symm, h.1.symm⟩
    | id b1 b2 =>
      simp only [hm, Except.ok.injEq] at h
      show execDecIdfield side q b1 b2 s = _
      unfold execDecIdfield
      rw [h]
      rfl
    | data b1 b2 b3 =>
      simp only [hm] at h
      show execDecDatafield side q b1 b2 b3 s = _
      unfold execDecDatafield
      rw [h]
      rfl
  · cases r <;> rfl

/-- The loop is a run of such turns. -/
theorem mfmLoop_turned {side : Bool} : ∀ (n : Nat) (s t : State), mfmLoop side n s = .ok t →
    Relation.ReflTransGen (mfmTurned side) s t := by
  intro n
  induction n with
  | zero =>
    intro s t h
    cases h
    exact .refl
  | succ n ih =>
    intro s t h
    simp only [mfmLoop] at h
    split at h
    · cases h
      exact .refl
    · rename_i q hq
      cases hm : mfmTurn side q s with
      | error r => simp [hm, bind, Except.bind] at h
      | ok x =>
        simp only [hm, bind, Except.bind] at h
        exact .head (mfmTurn_turned hq hm) (ih _ _ h)

/-! ## DEC.FMTRACK -/

/-- A run of bytes written is stored. -/
theorem stored_writeBlock (m : Memory) (a : Nat) (bs : List Byte) : stored m (m.writeBlock a bs) a bs := by
  refine ⟨fun k b hk => ?_, fun k hk => by rw [Memory.read_writeBlock, if_neg (by omega)]⟩
  obtain ⟨hlt, e⟩ := List.getElem?_eq_some_iff.mp hk
  rw [read_written _ _ _ _ hlt, List.getD_eq_getElem?_getD, hk]
  rfl

/-- A turn of the loop is the turn of rule R135. -/
theorem fmTurn_turned {side : Bool} {q : Nat} {s s' : State} {r : Option Nat} (hs : SizeInBuffer s)
    (hq : fmScan s side s.dec.p = some q) (h : fmTurn side q s = .ok (r, s')) : fmTurned side s (resumeAt q r s') := by
  refine ⟨q, ?_, ?_⟩
  · show tell (.position (fmScan s side s.dec.p)) s = _
    rw [hq]
    rfl
  · unfold fmTurn at h
    simp only at h
    split at h
    · rename_i hm
      have hnd : ¬(fmByte s side q = 0xFB ∨ fmByte s side q = 0xF8) := by rw [hm]; decide
      split at h
      · rename_i hf
        cases h
        refine .inl ⟨⟨hm, hf⟩, ⟨s.dec.n, hf.1⟩, _, rfl, stored_writeBlock _ _ _, ?_⟩
        simp only [hm, resumeAt, recordId, decodedBytes, List.length_cons, List.length_map, List.length_range]
        rfl
      · rename_i hf
        cases h
        refine .inr (.inr ⟨fun x => hf x.2, fun c size x => hnd x.1, ?_⟩)
        unfold dropId resumeAt
        by_cases h128 : 128 ≤ s.dec.n
        · simp only [hm, h128, and_self, if_true]
          rfl
        · simp only [h128, and_false, if_false]
          rfl
    · rename_i hm
      split at h
      · rename_i hd
        rcases Option.eq_none_or_eq_some s.dec.cur with hc | ⟨c, hc⟩
        · simp only [hc] at h
          cases h
          refine .inr (.inr ⟨fun x => hm x.1, fun c size x => ?_, by simp only [hm, false_and, if_false]; rfl⟩)
          cases hc.symm.trans x.2.1
        · simp only [hc] at h
          split at h
          · rename_i hdam
            cases h
            refine .inr (.inr ⟨fun x => hm x.1, fun c' size x => ?_, by simp only [hm, false_and, if_false]; rfl⟩)
            cases hc.symm.trans x.2.1
            exact hdam x.2.2.1
          · rename_i hdam
            rw [dataSize_ok (hs c hc)] at h
            simp only [bind, Except.bind] at h
            split at h
            · rename_i hf
              cases h
              refine .inr (.inl ⟨c, _, _, ⟨hd, hc, by simpa using hdam, rfl, hf.1, hf.2⟩, stored_writeBlock _ _ _, ?_⟩)
              simp only [resumeAt, recordData, decodedBytes, List.length_cons, List.length_map, List.length_range, Option.getD_some]
              congr 2
              omega
            · rename_i hf
              cases h
              refine .inr (.inr ⟨fun x => hm x.1, fun c' size x => ?_, by simp only [hm, false_and, if_false]; rfl⟩)
              obtain ⟨-, e, -, rfl, x1, x2⟩ := x
              cases hc.symm.trans e
              exact hf ⟨x1, x2⟩
      · rename_i hd
        cases h
        exact .inr (.inr ⟨fun x => hm x.1, fun c size x => hd x.1, by simp only [hm, false_and, if_false]; rfl⟩)

/-- The loop is a run of such turns. -/
theorem fmLoop_turned {side : Bool} {s0 : State} : ∀ (n : Nat) (s t : State), LoopInv s0 s → fmLoop side n s = .ok t →
    Relation.ReflTransGen (fmTurned side) s t := by
  intro n
  induction n with
  | zero =>
    intro s t _ h
    cases h
    exact .refl
  | succ n ih =>
    intro s t hi h
    simp only [fmLoop] at h
    split at h
    · cases h
      exact .refl
    · rename_i q hq
      obtain ⟨r, s', e, hi', -⟩ := fmTurn_keeps hi (side := side) (fmScan_some hq).1
      simp only [e, bind, Except.bind] at h
      exact .head (fmTurn_turned hi.sizeInBuffer hq e) (ih _ _ hi' h)

/-! ## SCAN.WT_RESOLVE -/

theorem emitRaw_full {len : Nat} {r : Resolve} (h : len ≤ r.o) (x : Byte) : r.emitRaw len x = r := if_neg (Nat.not_lt.mpr h)

theorem emitByte_full {len : Nat} {r : Resolve} (h : len ≤ r.o) (x : Byte) : r.emitByte len x = r := if_neg (Nat.not_lt.mpr h)

/-- Once the track is full nothing more comes out. -/
theorem next_full {len : Nat} {r : Resolve} (h : len ≤ r.o) (b : Byte) :
    (Resolve.next len r b).o = r.o ∧ (Resolve.next len r b).out = r.out := by
  unfold Resolve.next
  split
  · simp only
    split
    · rw [emitByte_full h]; exact ⟨rfl, rfl⟩
    · rw [emitByte_full (r := { r with crc := CrcParams.ccitt.init }) h]; exact ⟨rfl, rfl⟩
  · split
    · rw [emitByte_full h]; exact ⟨rfl, rfl⟩
    · split
      · simp only [emitRaw_full h, and_self]
      · rw [emitByte_full h]; exact ⟨rfl, rfl⟩

theorem resolve_full {len : Nat} : ∀ (bs : List Byte) (r : Resolve), len ≤ r.o →
    (bs.foldl (Resolve.next len) r).out = r.out := by
  intro bs
  induction bs with
  | nil => exact fun _ _ => rfl
  | cons b bs ih =>
    intro r h
    obtain ⟨h1, h2⟩ := next_full h b
    rw [List.foldl_cons, ih _ (by omega), h2]

theorem crcValue_bytes (c : Word16) :
    (crcValue .ccitt c).extractLsb' 8 8 = BitVec.ofNat 8 (c.toNat / 256) ∧
    (crcValue .ccitt c).extractLsb' 0 8 = BitVec.ofNat 8 c.toNat := by
  rw [crcValue_ccitt]
  constructor <;> apply BitVec.eq_of_toNat_eq
  · simp [BitVec.extractLsb', Nat.shiftRight_eq_div_pow]
  · simp [BitVec.extractLsb']

/-- The resolution puts out what the rule says, cut at the end of the track (rule R155). -/
theorem resolve_fold {len : Nat} : ∀ (bs : List Byte) (r : Resolve),
    (bs.foldl (Resolve.next len) r).out.reverse = r.out.reverse ++ (resolved r.crc r.prevSync bs).1.take (len - r.o) ∧
    (r.o + (resolved r.crc r.prevSync bs).1.length ≤ len → (bs.foldl (Resolve.next len) r).crc = (resolved r.crc r.prevSync bs).2) := by
  intro bs
  induction bs with
  | nil => exact fun r => ⟨by simp [resolved], fun _ => rfl⟩
  | cons b bs ih =>
    intro r
    by_cases hfull : len ≤ r.o
    · rw [resolve_full _ _ hfull, Nat.sub_eq_zero_of_le hfull, List.take_zero, List.append_nil]
      refine ⟨rfl, fun h => ?_⟩
      exfalso
      have : 0 < (resolved r.crc r.prevSync (b :: bs)).1.length := by
        unfold resolved
        repeat' split
        all_goals simp
      omega
    · have hlt : r.o < len := by omega
      have one : ∀ (r' : Resolve) (x : Byte), r'.o = r.o + 1 → r'.out = x :: r.out →
          Resolve.next len r b = r' → resolved r.crc r.prevSync (b :: bs) = (x :: (resolved r'.crc r'.prevSync bs).1,
            (resolved r'.crc r'.prevSync bs).2) →
          ((b :: bs).foldl (Resolve.next len) r).out.reverse =
              r.out.reverse ++ (resolved r.crc r.prevSync (b :: bs)).1.take (len - r.o) ∧
          (r.o + (resolved r.crc r.prevSync (b :: bs)).1.length ≤ len →
            ((b :: bs).foldl (Resolve.next len) r).crc = (resolved r.crc r.prevSync (b :: bs)).2) := by
        intro r' x ho hout hn hr
        obtain ⟨h1, h2⟩ := ih r'
        rw [List.foldl_cons, hn, hr]
        refine ⟨?_, fun h => h2 (by simp only [List.length_cons] at h; omega)⟩
        rw [h1, hout, ho, show len - r.o = (len - (r.o + 1)) + 1 by omega, List.take_succ_cons]
        simp
      by_cases h5 : b = 0xF5
      · refine one _ 0xA1 ?_ ?_ rfl ?_
        · simp only [Resolve.next, h5, if_true, Resolve.emitByte]
          split <;> simp
        · simp only [Resolve.next, h5, if_true, Resolve.emitByte]
          split <;> simp
        · simp only [Resolve.next, h5, if_true, Resolve.emitByte, resolved]
          split <;> simp_all [CrcParams.ccitt]
      · by_cases h6 : b = 0xF6
        · refine one _ 0xC2 ?_ ?_ rfl ?_ <;>
            simp [Resolve.next, h6, Resolve.emitByte, hlt, resolved]
        · by_cases h7 : b = 0xF7
          · obtain ⟨e1, e2⟩ := crcValue_bytes r.crc
            by_cases hroom : r.o + 1 < len
            · have hn : Resolve.next len r b = ⟨r.o + 1 + 1, BitVec.ofNat 8 r.crc.toNat :: BitVec.ofNat 8 (r.crc.toNat / 256) :: r.out,
                  0xFFFF, false⟩ := by
                simp [Resolve.next, h7, Resolve.emitRaw, hlt, hroom, ← e1, ← e2]
                rfl
              obtain ⟨h1, h2⟩ := ih (Resolve.next len r b)
              rw [List.foldl_cons]
              rw [hn] at h1 h2 ⊢
              have hr : resolved r.crc r.prevSync (b :: bs) = (BitVec.ofNat 8 (r.crc.toNat / 256) :: BitVec.ofNat 8 r.crc.toNat ::
                  (resolved 0xFFFF false bs).1, (resolved 0xFFFF false bs).2) := by simp [resolved, h7]
              rw [hr]
              refine ⟨?_, fun h => h2 (by simp only [List.length_cons] at h ⊢; omega)⟩
              rw [h1, show len - r.o = (len - (r.o + 1 + 1)) + 1 + 1 by omega, List.take_succ_cons, List.take_succ_cons]
              simp
            · have hn : Resolve.next len r b = ⟨r.o + 1, BitVec.ofNat 8 (r.crc.toNat / 256) :: r.out, 0xFFFF, false⟩ := by
                simp [Resolve.next, h7, Resolve.emitRaw, hlt, hroom, ← e1]
                rfl
              have hr : resolved r.crc r.prevSync (b :: bs) = (BitVec.ofNat 8 (r.crc.toNat / 256) :: BitVec.ofNat 8 r.crc.toNat ::
                  (resolved 0xFFFF false bs).1, (resolved 0xFFFF false bs).2) := by simp [resolved, h7]
              rw [List.foldl_cons, hn, resolve_full _ _ (by simp only; omega), hr]
              refine ⟨?_, fun h => by exfalso; simp only [List.length_cons] at h; omega⟩
              rw [show len - r.o = 0 + 1 by omega, List.take_succ_cons, List.take_zero]
              simp
          · have hn : Resolve.next len r b = ⟨r.o + 1, b :: r.out, crcUpdate .ccitt r.crc b, false⟩ := by
              unfold Resolve.next Resolve.emitByte
              rw [if_neg h5, if_neg h6, if_neg h7, if_pos hlt]
            refine one _ b rfl rfl hn ?_
            conv_lhs => unfold resolved
            simp only [if_neg h5, if_neg h6, if_neg h7]

/-- Rule R155, from the start of a stream. -/
theorem resolveStream_eq (len : Nat) (bs : List Byte) :
    (resolveStream len bs).out.reverse = (resolved 0xFFFF false bs).1.take (len - 256) ∧
    (256 + (resolved 0xFFFF false bs).1.length ≤ len → (resolveStream len bs).crc = (resolved 0xFFFF false bs).2) := by
  have := resolve_fold (len := len) bs ⟨256, [], 0xFFFF, false⟩
  simpa [resolveStream, dmkTable, CrcParams.ccitt] using this

end Sys2Proof.Machine
end

