-- ==== Sys2Proof/Tests/Slice0.lean ====
section
/-! SUPPORT. The model's own tests: the well-formedness smoke, one packet per constructor written from the tables of
30_encoding.md, at most two small tests per instruction with the results of 95_test_vectors.md, and a witness of the hypotheses
of every statement of Certificates/Slice0/Obligations.lean that has any. -/

namespace Sys2Proof.Tests

open Sys2Proof Sys2Proof.Machine

set_option Elab.async false

/-! ## Well-formedness: an ill-formed term for each check -/

theorem smoke_hxUnknown_named : WellFormed (.hxUnknown 0x01) = false ∧ WellFormed (.hxUnknown 0x82) = false := by decide
theorem smoke_crcRange_start : WellFormed (.crcRange .trk 4294967296 0) = false := by decide
theorem smoke_crcRange_len : WellFormed (.crcRange .trk 0 4294967296) = false := by decide
theorem smoke_decBit : WellFormed (.decBit false 4294967296) = false := by decide
theorem smoke_decWord : WellFormed (.decWord false 4294967296) = false := by decide
theorem smoke_decSyncscan : WellFormed (.decSyncscan false 4294967296) = false := by decide
theorem smoke_decMark : WellFormed (.decMark false 4294967296) = false := by decide
theorem smoke_decIdfield : WellFormed (.decIdfield false 4294967296 0 0) = false := by decide
theorem smoke_decDatafield : WellFormed (.decDatafield false 4294967296 0 0 0) = false := by decide
theorem smoke_decFmword : WellFormed (.decFmword false 4294967296) = false := by decide
theorem smoke_decFmscan : WellFormed (.decFmscan false 4294967296) = false := by decide
theorem smoke_scanDamlookup : WellFormed (.scanDamlookup 4294967296) = false := by decide
theorem smoke_scanFind_side : WellFormed (.scanFind 5 2 1) = false := by decide
theorem smoke_scanWtResolve : WellFormed (.scanWtResolve 4294967296) = false := by decide

/-! ## Decoding: a packet for every constructor -/

/-- A packet written out: the code bit by bit, the layer byte, the operand bytes; zeros up to eleven bytes. -/
def word (code layer : Byte) (operands : List Byte) : List Byte :=
  code :: layer :: (operands ++ List.replicate (9 - operands.length) 0)

/-- The decoder reads this instruction. -/
def reads (bs : List Byte) (i : Instr) : Bool :=
  match decode bs with
  | .ok j => j == i
  | .error _ => false

/-- The decoder refuses, for this reason. -/
def refuses (bs : List Byte) (e : DecodeError) : Bool :=
  match decode bs with
  | .ok _ => false
  | .error e' => e' == e

/-- Rules R80 to R82: control lines in bits 6..2, register in bits 1..0. -/
theorem test_decode_bus :
    reads (word 0b01000000 1 []) .rdStatus && reads (word 0b01000001 1 []) .rdTrack &&
    reads (word 0b01000010 1 []) .rdSector && reads (word 0b01000011 1 []) .rdData &&
    reads (word 0b00100000 1 [0x80]) (.wrCmd 0x80) && reads (word 0b00100001 1 [0x27]) (.wrTrack 0x27) &&
    reads (word 0b00100010 1 [0x02]) (.wrSector 0x02) && reads (word 0b00100011 1 [0x05]) (.wrData 0x05) &&
    reads (word 0b00010001 1 []) (.rdNmi 1) && reads (word 0b00001010 1 [0x80]) (.wrNmi 2 0x80) &&
    reads (word 0b00000111 1 [0x0F]) (.wrDrvsel 3 0x0F) = true := by decide

/-- Rules R83 to R86: the eleven commands, their ignored bits, update bits and rates. -/
theorem test_decode_commands :
    reads (word 0b00001010 2 []) (.restore 10) && reads (word 0b00010111 2 []) (.seek 1 3) &&
    reads (word 0b00110010 2 []) (.step true 0 2) && reads (word 0b01001101 2 []) (.stepin false 3 1) &&
    reads (word 0b01110011 2 []) (.stepout true 0 3) && reads (word 0b10010001 2 []) (.rdsec 0x11) &&
    reads (word 0b10100010 2 []) (.wrsec 2) && reads (word 0b11000100 2 []) (.rdaddr 4) &&
    reads (word 0b11011000 2 []) (.forceint 8) && reads (word 0b11100100 2 []) (.rdtrk 4) &&
    reads (word 0b11110000 2 []) (.wrtrk 0) = true := by decide

/-- Rule R89: the host opcodes. -/
theorem test_decode_hostops :
    reads (word 0b00000001 3 []) .hxVersion && reads (word 0b00000010 3 []) .hxFindfirst &&
    reads (word 0b00000011 3 []) .hxFindnext && reads (word 0b00000100 3 []) .hxMount &&
    reads (word 0b00000101 3 []) .hxOpen && reads (word 0b00000110 3 []) .hxRead &&
    reads (word 0b00000111 3 []) .hxWrite && reads (word 0b00001000 3 []) .hxClose &&
    reads (word 0b00001001 3 []) .hxSettime && reads (word 0b00001010 3 []) .hxGettime &&
    reads (word 0b10000000 3 []) .hxFindini && reads (word 0b10000001 3 []) .hxFinddmk &&
    reads (word 0b10000010 3 []) .hxFindhfe && reads (word 0b10000011 3 []) (.hxUnknown 0x83) = true := by decide

/-- Rule R91: unit 1, the CRC unit. -/
theorem test_decode_crc :
    reads (word 0b00010000 4 []) .crcInit && reads (word 0b00010001 4 [0xA1]) (.crcByte 0xA1) &&
    reads (word 0b00010010 4 [1, 4, 1, 0, 0, 8, 0, 0, 0]) (.crcRange .stage 260 8) &&
    reads (word 0b00010011 4 []) .crcRead && reads (word 0b00010100 4 [0x20, 0x2B]) (.crcCheck 0x20 0x2B) = true := by decide

/-- Rule R91: unit 2, the DEC unit. -/
theorem test_decode_dec :
    reads (word 0b00100000 4 [1, 9, 0, 0, 0]) (.decBit true 9) && reads (word 0b00100001 4 [0, 0, 1, 0, 0]) (.decWord false 256) &&
    reads (word 0b00100010 4 [0x89, 0x44]) (.decMfmbyte 0x4489) &&
    reads (word 0b00100011 4 [0, 5, 0, 0, 0]) (.decSyncscan false 5) &&
    reads (word 0b00100100 4 [0, 64, 0, 0, 0]) (.decMark false 64) &&
    reads (word 0b00100101 4 [1, 64, 0, 0, 0, 0xA1, 0xF5]) (.decIdfield true 64 0xA1 0xF5) &&
    reads (word 0b00100110 4 [0, 32, 1, 0, 0, 0xA1, 0xF5, 0xFB]) (.decDatafield false 288 0xA1 0xF5 0xFB) &&
    reads (word 0b00100111 4 [1]) (.decTrack true) && reads (word 0b00101000 4 [0, 128, 0, 0, 0]) (.decFmword false 128) &&
    reads (word 0b00101001 4 [1, 0, 0, 0, 1]) (.decFmscan true 16777216) &&
    reads (word 0b00101010 4 [0]) (.decFmtrack false) = true := by decide

/-- Rule R91: unit 3, the SCAN unit. -/
theorem test_decode_scan :
    reads (word 0b00110000 4 [3, 17, 1]) (.scanDmkOffset 3 17 true) && reads (word 0b00110001 4 [2, 1, 17]) (.scanLoad 2 true 17) &&
    reads (word 0b00110010 4 [0, 0, 5]) (.scanEnsure 0 false 5) && reads (word 0b00110011 4 []) .scanDmkTables &&
    reads (word 0b00110100 4 [15, 1, 0, 0]) (.scanDamlookup 271) && reads (word 0b00110101 4 [5, 0, 2]) (.scanFind 5 0 2) &&
    reads (word 0b00110110 4 []) .scanFirstidam && reads (word 0b00110111 4 [127]) (.scanView 127) &&
    reads (word 0b00111000 4 [1]) (.scanIdcrcCheck 1) && reads (word 0b00111001 4 [2]) (.scanDatacrcCheck 2) &&
    reads (word 0b00111010 4 [3]) (.scanDatacrcGen 3) && reads (word 0b00111011 4 [162, 0, 0, 0]) (.scanWtResolve 162) &&
    reads (word 0b00111100 4 [3]) (.scanWtRebuild 3) && reads (word 0b00111101 4 []) .scanFlush = true := by decide

/-- Rule R91: unit 4, the internal steps. -/
theorem test_decode_internal :
    reads (word 0b01000000 4 [0x1F]) (.cmdClassify 0x1F) && reads (word 0b01000001 4 []) .cmdDispatch &&
    reads (word 0b01001111 4 []) .reset = true := by decide

/-- What is no instruction is refused by name. -/
theorem test_decode_refuses :
    refuses (word 0b00000011 1 []) .noControlLine && refuses (word 0b01100000 1 []) .severalControlLines &&
    refuses (word 0b11000000 1 []) .badSelector && refuses (word 0b00010101 4 []) .noSuchOperation &&
    refuses (word 0b00110101 4 [5, 2, 1]) .badOperand && refuses (word 0b00110111 4 [128]) .badOperand &&
    refuses (word 0b01000000 1 [1]) .unusedOperand && refuses (word 0 5 []) .badLayer && refuses [0x40] .badLength = true := by
  decide

/-- A bare code, the layer byte 0, is the word of the row log 3 names: 0x0C to 0x0F are RESTORE's alone among the command rows. -/
theorem test_decode_bare_codes :
    reads (0x0C :: List.replicate 10 0) (.restore 0xC) && reads (0x0F :: List.replicate 10 0) (.restore 0xF) &&
    reads (0x08 :: List.replicate 10 0) .hxClose && reads (0x0B :: List.replicate 10 0) (.wrNmi 3 0) = true := by decide

/-- No bare code is refused. -/
theorem bare_codes_decode (op : Byte) : (decodeTableWord 8 op.toNat).isSome = true := by
  have h : ∀ hi lo : Fin 16, (decodeTableWord 8 (16 * hi.val + lo.val)).isSome = true := by decide
  have := h ⟨op.toNat / 16, by omega⟩ ⟨op.toNat % 16, by omega⟩
  rwa [show 16 * (op.toNat / 16) + op.toNat % 16 = op.toNat by omega] at this

/-! ## Small states -/

/-- What one looks at in the next state. -/
def after {α : Type} (f : State → α) : Host.Outcome State Fault Refusal → Option α
  | .next s => some (f s)
  | .fault _ => none
  | .refused _ => none

/-- What left FCB in the step, newest first. -/
def said : Host.Outcome State Fault Refusal → Option (List Event) := after State.events

theorem exists_next {α : Type} {f : State → α} {o : Host.Outcome State Fault Refusal} {x : α} (h : after f o = some x) :
    ∃ t, o = .next t ∧ f t = x := by
  cases o with
  | next t => exact ⟨t, rfl, by simpa [after] using h⟩
  | fault r => cases h
  | refused r => cases h

/-- The drive of 95_test_vectors.md, section 6: DMK, 40 tracks, one side, double density, records of 640 bytes. -/
def dmk : DriveSlot := ⟨.dmk, 0, 40, 1, false, false, 640, [], .mfm, false⟩

/-- An HFE drive with one track of 88 bytes in its look-up table. -/
def hfe : DriveSlot := ⟨.hfe, 0, 2, 1, false, false, 0, [(1, 88)], .mfm, false⟩

/-- V30: the track record T1. -/
def t1Bytes : List Byte :=
  [0x0F, 0x81, 0xB5, 0x81] ++ List.replicate 252 0x00 ++
  List.replicate 8 0x4E ++ List.replicate 4 0x00 ++ [0xA1, 0xA1, 0xA1, 0xFE, 0x05, 0x00, 0x01, 0x00, 0x56, 0x68] ++
  List.replicate 6 0x4E ++ List.replicate 4 0x00 ++ [0xA1, 0xA1, 0xA1, 0xFB] ++ List.replicate 128 0xE5 ++ [0x62, 0xA7] ++
  List.replicate 8 0x4E ++ List.replicate 4 0x00 ++ [0xA1, 0xA1, 0xA1, 0xFE, 0x05, 0x00, 0x02, 0x00, 0x03, 0x3B] ++
  List.replicate 6 0x4E ++ List.replicate 4 0x00 ++ [0xA1, 0xA1, 0xA1, 0xF8] ++ List.replicate 128 0x6D ++ [0xAB, 0xF2] ++
  List.replicate 52 0x4E

/-- V31: the tables of T1. -/
def t1Cache : Cache :=
  ⟨some ⟨0, false, 5⟩, cellsFrom 0 t1Bytes, 640, 3, (emptyIdam.set 0 271).set 1 437, (emptyDam.set 0 (some 291)).set 1 (some 457)⟩

/-- Drive 0 selected and mounted, STORAGE failing, nothing cached. -/
def idle : State := { State.reset with drvSel := 0x01, drives := State.reset.drives.set 0 dmk }

/-- The same with T1 cached and the head on track 5. -/
def onT1 : State := { idle with track := 5, cache := t1Cache }

/-- The same, busy with a Read Sector. -/
def reading : State :=
  { onT1 with cmdType := .typeII, flags := { Flags.clear with busy := true, drq := true, crcErr := true }, svcTag := .readSector }

/-- Drive 0 selected and mounted on an image whose record of track 5 is T1. -/
def withImage : State := { idle with env := { idle.env with files := [⟨25616, cellsFrom 3216 t1Bytes, false⟩] } }

/-- The host channel: the sentinel is selected. -/
def channel : State := { State.reset with drvSel := 0x0F }

/-! ## The bus (V50, V51, V56, V57, V60) -/

theorem test_rdStatus_busy_at_track_zero :
    said (exec .rdStatus { idle with flags := { Flags.clear with busy := true } }) = some [.hostByte 0x05] := by decide
theorem test_rdStatus_clears_the_request :
    after (fun s => (s.events, s.flags.intrq, s.nmiStatus == s.cfg.nmiIdle))
      (exec .rdStatus { onT1 with cmdType := .typeIV, flags := { Flags.clear with intrq := true }, nmiStatus := 0x7F })
      = some ([.hostByte 0x00], false, true) := by decide
theorem test_rdTrack : said (exec .rdTrack { idle with track := 0x27 }) = some [.hostByte 0x27] := by decide
theorem test_rdSector : said (exec .rdSector { idle with sector := 0x02 }) = some [.hostByte 0x02] := by decide
theorem test_rdData_clears_drq :
    after (fun s => (s.events, s.flags.drq)) (exec .rdData { reading with data := 0x6D }) = some ([.hostByte 0x6D], false) := by
  decide
theorem test_rdData_of_the_host_channel :
    said (exec .rdData { channel with data := 0x11, env := { channel.env with hostxBytes := [0x22, 0x33] } })
      = some [.hostByte 0x22] := by decide
theorem test_wrCmd_dropped_while_busy :
    exec (.wrCmd 0x80) { idle with flags := { Flags.clear with busy := true } } =
      .next { idle with flags := { Flags.clear with busy := true } } := rfl
theorem test_wrCmd_of_the_host_channel :
    after (fun s => (s.cmdType, s.flags.busy, s.cmdRecv, s.command)) (exec (.wrCmd 0xD0) channel)
      = some (.typeII, false, true, 0xD0) := by decide
theorem test_wrTrack : after State.track (exec (.wrTrack 0x27) idle) = some 0x27 := by decide
theorem test_wrSector : after State.sector (exec (.wrSector 0x02) idle) = some 0x02 := by decide
theorem test_wrData_clears_drq :
    after (fun s => (s.data, s.flags.drq)) (exec (.wrData 0x05) reading) = some (0x05, false) := by decide
theorem test_rdNmi : said (exec (.rdNmi 0) { idle with nmiStatus := 0x7F }) = some [.hostByte 0x7F] := by decide
theorem test_wrNmi : after (fun s => (s.nmiMask, s.nmiStatus)) (exec (.wrNmi 0 0x80) idle) = some (0x80, 0xFF) := by decide
theorem test_wrDrvsel_takes_the_lowest_bit :
    after (fun s => (selDrive s, sideSel s)) (exec (.wrDrvsel 0 0x16) idle) = some (some 1, true) := by decide
theorem test_wrDrvsel_saves_the_selection_once :
    after State.drvSelBackup (exec (.wrDrvsel 0 0x0F) idle) = some 0x01 ∧
    after State.drvSelBackup (exec (.wrDrvsel 0 0x1F) { channel with drvSelBackup := 0x01 }) = some 0x01 := by decide

/-! ## The commands (V52 to V61, P1 to P4) -/

theorem test_restore :
    after (fun s => (s.track, s.flags.seekErr, s.flags.intrq, statusByte s))
      (exec (.restore 0) { idle with track := 0x27, flags := { Flags.clear with busy := true, seekErr := true } })
      = some (0, false, true, 0x04) := by decide
theorem test_seek_beyond_the_last_track :
    after (fun s => (s.track, s.flags.seekErr, s.flags.busy, s.flags.intrq, s.timerUs))
      (exec (.seek 0 0) { idle with track := 7, data := 0x28, flags := { Flags.clear with busy := true } })
      = some (7, true, false, true, 0) := by decide
theorem test_seek_records_the_delay :
    after (fun s => (s.track, s.timerUs, s.flags.seekErr)) (exec (.seek 0 1) { idle with track := 7, data := 0x27 })
      = some (39, 192000, false) := by decide
theorem test_step_keeps_the_direction :
    after (fun s => (s.track, s.dir, s.timerUs)) (exec (.step true 0 2) { idle with track := 4 }) = some (5, .plus, 10000) ∧
    after (fun s => (s.track, s.dir, s.timerUs)) (exec (.step true 0 0) { idle with track := 4, dir := .minus })
      = some (3, .minus, 3000) := by decide
theorem test_step_without_update :
    after State.track (exec (.step false 0 0) { idle with track := 4, dir := .minus }) = some 4 := by decide
theorem test_stepin_saturates :
    after (fun s => (s.track, s.dir, s.timerUs)) (exec (.stepin true 0 1) { idle with track := 255, dir := .minus })
      = some (255, .plus, 6000) := by decide
theorem test_stepout_saturates :
    after (fun s => (s.track, s.dir)) (exec (.stepout true 0 0) { idle with track := 0 }) = some (0, .minus) ∧
    after (fun s => (s.track, s.timerUs)) (exec (.stepout true 0 3) { idle with track := 1 }) = some (0, 15000) := by decide
theorem test_rdsec_stages_a_deleted_sector :
    after (fun s => (s.xfer, s.svcTag, s.flags.recType)) (exec (.rdsec 0) { onT1 with sector := 2 })
      = some (⟨.trk, 458, 128, 0, some 1⟩, .readSector, true) := by decide +kernel
theorem test_rdsec_not_found :
    after (fun s => (s.flags.notFound, s.flags.busy, s.flags.intrq, s.svcTag))
      (exec (.rdsec 0) { onT1 with sector := 3, flags := { Flags.clear with busy := true } })
      = some (true, false, true, .none) := by decide +kernel
theorem test_wrsec :
    after (fun s => (s.xfer, s.svcTag)) (exec (.wrsec 0) { onT1 with sector := 1 })
      = some (⟨.trk, 292, 128, 0, some 0⟩, .writeSector) := by decide +kernel
theorem test_rdaddr :
    after (fun s => (s.stage.readBlock 0 6, s.xfer, s.svcTag)) (exec (.rdaddr 0) onT1)
      = some ([0x05, 0x00, 0x01, 0x00, 0x56, 0x68], ⟨.stage, 0, 6, 0, some 0⟩, .sendData) := by decide +kernel
theorem test_forceint :
    after (fun s => (s.ien, s.flags, s.svcTag, s.nmiStatus))
      (exec (.wrCmd 0xD4) reading) = some (4, { Flags.clear with intrq := true }, .none, 0x7F) := by decide
theorem test_rdtrk :
    after State.xfer (exec (.rdtrk 0) onT1) = some ⟨.trk, 256, 384, 0, none⟩ ∧
    after (fun s => s.xfer.len) (exec (.rdtrk 0) State.reset) = some 0 := by decide +kernel
theorem test_wrtrk :
    after (fun s => (s.xfer, s.svcTag, s.cache.trk, s.cache.idam[0])) (exec (.wrtrk 0) onT1)
      = some (⟨.stage, 0, 640, 0, none⟩, .writeTrack, [(0, 0x0F), (1, 0x81), (2, 0xB5), (3, 0x81)], 271) := by decide +kernel

/-! ## The host opcodes (rules R89, R211; S11) -/

theorem test_hostops_hand_over_their_tag :
    said (exec .hxVersion channel) = some [.hostOp .version] ∧ said (exec .hxFindfirst channel) = some [.hostOp .findFirstAll] ∧
    said (exec .hxFindnext channel) = some [.hostOp .findNext] ∧ said (exec .hxMount channel) = some [.hostOp .mount] ∧
    said (exec .hxOpen channel) = some [.hostOp .openFile] ∧ said (exec .hxRead channel) = some [.hostOp .readFileBlock] ∧
    said (exec .hxWrite channel) = some [.hostOp .writeFileBlock] ∧ said (exec .hxClose channel) = some [.hostOp .closeFile] ∧
    said (exec .hxSettime channel) = some [.hostOp .setTime] ∧ said (exec .hxGettime channel) = some [.hostOp .getTime] ∧
    said (exec .hxFindini channel) = some [.hostOp .findFirstIni] ∧ said (exec .hxFinddmk channel) = some [.hostOp .findFirstDmk] ∧
    said (exec .hxFindhfe channel) = some [.hostOp .findFirstHfe] ∧
    said (exec (.hxUnknown 0xD5) channel) = some [.hostOp (.unknown 0xD5)] := by decide

/-! ## The CRC unit (V1 to V8) -/

theorem test_crcInit : after State.crc (exec .crcInit { State.reset with crc := 0x1234 }) = some 0xFFFF := by decide
theorem test_crcByte : after State.crc (exec (.crcByte 0xA1) State.reset) = some 0x443B := by decide
theorem test_crcByte_zero_remainder : after State.crc (exec (.crcByte 0x2B) { State.reset with crc := 0x2B00 }) = some 0 := by decide
theorem test_crcRange_check_value :
    said (exec (.crcRange .stage 0 9)
      { State.reset with stage := cellsFrom 0 [0x31, 0x32, 0x33, 0x34, 0x35, 0x36, 0x37, 0x38, 0x39] })
      = some [.result (.word 0x29B1)] := by decide +kernel
theorem test_crcRange_of_an_id_field : said (exec (.crcRange .trk 268 8) onT1) = some [.result (.word 0x5668)] := by decide +kernel
theorem test_crcRead : said (exec .crcRead { State.reset with crc := 0x202B }) = some [.result (.bytes 0x20 0x2B)] := by decide
theorem test_crcCheck :
    said (exec (.crcCheck 0x20 0x2B) { State.reset with crc := 0x202B }) = some [.result (.bool true)] ∧
    said (exec (.crcCheck 0x2B 0x20) { State.reset with crc := 0x202B }) = some [.result (.bool false)] := by decide
theorem test_crcOf_without_sync : crcOf [0xFE, 0x05, 0x00, 0x03, 0x00] = 0x08E4 := by decide +kernel

/-- V5: 128 bytes 0xE5 after the data mark's constant of V3, in four pieces for the kernel's sake. -/
theorem e5_sum : crcFeed .ccitt 0xE295 (List.replicate 128 0xE5) = 0x62A7 := by
  have e : List.replicate 128 (0xE5 : Byte) = List.replicate 32 0xE5 ++
      (List.replicate 32 0xE5 ++ (List.replicate 32 0xE5 ++ List.replicate 32 0xE5)) := by decide
  have h1 : crcFeed .ccitt 0xE295 (List.replicate 32 0xE5) = 0x2888 := by decide +kernel
  have h2 : crcFeed .ccitt 0x2888 (List.replicate 32 0xE5) = 0xD174 := by decide +kernel
  have h3 : crcFeed .ccitt 0xD174 (List.replicate 32 0xE5) = 0x65D7 := by decide +kernel
  have h4 : crcFeed .ccitt 0x65D7 (List.replicate 32 0xE5) = 0x62A7 := by decide +kernel
  rw [e, crcFeed_append, crcFeed_append, crcFeed_append, h1, h2, h3, h4]

theorem e5_field_sum : crcOf ([0xA1, 0xA1, 0xA1, 0xFB] ++ List.replicate 128 0xE5) = 0x62A7 := by
  have h : crcFeed .ccitt 0xFFFF [0xA1, 0xA1, 0xA1, 0xFB] = 0xE295 := by decide +kernel
  show crcFeed .ccitt 0xFFFF _ = _
  rw [crcFeed_append, h, e5_sum]

/-! ## The DEC unit (V19 to V29) -/

/-- V23: the flux of side 0 up to the data mark, 44 flux bytes, 352 flux bits. -/
def v23 : State :=
  { State.reset with
    flux := cellsFrom 0
      [0x49, 0x2A, 0x49, 0x2A, 0x55, 0x55, 0x55, 0x55, 0x22, 0x91, 0x22, 0x91, 0x22, 0x91, 0xAA, 0x2A, 0x55, 0x89, 0x54, 0x55,
        0x55, 0xA5, 0x54, 0x55, 0xA5, 0x54, 0x55, 0x22, 0x49, 0x2A, 0x49, 0x2A, 0x55, 0x55, 0x55, 0x55, 0x22, 0x91, 0x22, 0x91,
        0x22, 0x91, 0xAA, 0xA2]
    fluxLen := 88 }

/-- A stream of one side from bytes and skip masks (rules R137, R139), at the start of the block; it is shorter than 256 bytes. -/
def mfmSide : Bool → List (Byte × Byte) → List Bool
  | _, [] => []
  | prev, (b, skip) :: r => mfmEncode prev b skip ++ mfmSide (mfmPrev b) r

def fluxOf (bits : List Bool) : State :=
  { State.reset with flux := cellsFrom 0 (packFlux bits), fluxLen := 2 * (packFlux bits).length }

/-- A sync byte A1 with the missing clock. -/
def a1 : Byte × Byte := (0xA1, 0x04)

/-- A byte with every clock. -/
def plain (b : Byte) : Byte × Byte := (b, 0x00)

/-- V26: a false sync before a real field. -/
def v26 : State := fluxOf (mfmSide false
  ([plain 0x00, plain 0x00, a1, plain 0x4E, plain 0x4E, plain 0x00, plain 0x00, a1, a1, a1] ++
    [0xFE, 0x05, 0x00, 0x03, 0x00, 0x30, 0x0A, 0x4E].map plain))

/-- V29: the flux of an FM side up to the ID field's mark, its first twenty flux bytes, and zeros. -/
def v29 : State :=
  { State.reset with
    flux := cellsFrom 0 (List.replicate 8 0x55 ++ List.replicate 8 0x11 ++ [0x55, 0x44, 0x54, 0x15])
    fluxLen := 88 }

/-- DEC at a data field: the slot of the ID field of V23 is open, the field's 132 bytes are zeros. -/
def atData : State :=
  { State.reset with
    fluxLen := 1024
    dec := ⟨false, .mfm, 4096, 224, 266, 1, some 0⟩
    cache := { State.reset.cache with idam := emptyIdam.set 0 259 } }

theorem test_hfeMap :
    [hfeMap 255 false, hfeMap 256 false, hfeMap 511 false, hfeMap 0 true, hfeMap 300 true, hfeMap 6143 true]
      = [255, 512, 767, 256, 812, 12287] := by decide
theorem test_decBit : said (exec (.decBit false 1) { State.reset with flux := [(0, 0x22), (1, 0x91)], fluxLen := 4 })
    = some [.result (.bool true)] := by decide
theorem test_decWord : said (exec (.decWord false 0) { State.reset with flux := [(0, 0x22), (1, 0x91)], fluxLen := 4 })
    = some [.result (.word 0x4489)] := by decide +kernel
theorem test_decWord_of_side_one : said (exec (.decWord true 16) { State.reset with flux := [(258, 0x22), (259, 0x91)], fluxLen := 520 })
    = some [.result (.word 0x4489)] := by decide +kernel
theorem test_decMfmbyte : said (exec (.decMfmbyte 0x4489) State.reset) = some [.result (.bytes 0xA1 0x0A)] := by decide
theorem test_decMfmbyte_with_clocks : said (exec (.decMfmbyte 0x9254) State.reset) = some [.result (.bytes 0x4E 0x90)] := by decide
theorem test_decSyncscan : said (exec (.decSyncscan false 0) v23) = some [.result (.position (some 64))] := by decide +kernel
theorem test_decMark_of_an_id : said (exec (.decMark false 64) v23) = some [.result (.mark (.id 0xA1 0xA1))] := by decide +kernel
theorem test_decMark_of_data : said (exec (.decMark false 288) v23) = some [.result (.mark (.data 0xA1 0xA1 0xFB))] := by
  decide +kernel
theorem test_decIdfield :
    after (fun s => (s.events, s.cache.idam[0], s.dec.wp, s.dec.n)) (exec (.decIdfield false 64 0xA1 0xA1) v23)
      = some ([.result (.position (some 224))], 259, 266, 1) := by decide +kernel
theorem test_decIdfield_bytes :
    after (fun s => s.cache.trk.readBlock 256 10) (exec (.decIdfield false 64 0xA1 0xA1) v23)
      = some [0xA1, 0xA1, 0xA1, 0xFE, 0x05, 0x00, 0x03, 0x00, 0x30, 0x0A] := by decide +kernel
theorem test_decDatafield :
    after (fun s => (s.events, s.cache.dam[0], s.dec.wp)) (exec (.decDatafield false 288 0xA1 0xA1 0xFB) atData)
      = some ([.result (.position (some 2432))], some 269, 400) := by decide +kernel
theorem test_decTrack_after_a_false_sync :
    after (fun s => (s.dec.n, s.cache.idam[0], s.cache.len, s.cache.pfx)) (exec (.decTrack false) v26) = some (1, 259, 266, 3) := by
  decide +kernel
theorem test_decTrack_of_zeros :
    after (fun s => (s.dec.n, s.cache.len)) (exec (.decTrack false) { State.reset with fluxLen := 64 }) = some (0, 256) := by
  decide +kernel
theorem test_decFmword : said (exec (.decFmword false 128) v29) = some [.result (.word 0xF57E)] := by decide +kernel
theorem test_decFmscan : said (exec (.decFmscan false 0) v29) = some [.result (.position (some 128))] := by decide +kernel
theorem test_decFmtrack :
    after (fun s => (s.dec.n, s.cache.idam[0], s.cache.len, s.cache.pfx)) (exec (.decFmtrack false) { v29 with fluxLen := 104 })
      = some (1, 256, 263, 0) := by decide +kernel

/-! ## The SCAN unit (V30 to V42) -/

theorem test_scanDmkOffset :
    said (exec (.scanDmkOffset 0 17 true) { idle with drives := idle.drives.set 0 { dmk with sides := 2, trackLength := 6400 } })
      = some [.result (.nat 224016)] := by decide
theorem test_scanLoad_without_an_image :
    after (fun s => (s.events, s.cache.id, s.cache.idam[0])) (exec (.scanLoad 0 false 5) { onT1 with env := idle.env })
      = some ([.result (.loaded false)], none, 0) := by decide
theorem test_scanLoad_of_T1 :
    after (fun s => (s.events, s.cache.id, s.cache.len, s.cache.pfx, s.cache.trk.read 291))
      (exec (.scanLoad 0 false 5) withImage)
      = some ([.result (.loaded true), .imgRead 0 3216 640], some ⟨0, false, 5⟩, 640, 3, 0xFB) := by decide +kernel
theorem test_scanEnsure_of_the_cached_track : said (exec (.scanEnsure 0 false 5) onT1) = some [.result (.loaded true)] := by decide
theorem test_scanDmkTables_of_T1 :
    after (fun s => (s.cache.idam[0], s.cache.idam[1], s.cache.idam[2], s.cache.dam[0], s.cache.dam[1]))
      (exec .scanDmkTables { onT1 with cache := { t1Cache with idam := emptyIdam, dam := emptyDam } })
      = some (271, 437, 0, some 291, some 457) := by decide +kernel
theorem test_scanDmkTables_bounds :
    slotValid t1Cache 258 = false ∧ slotValid t1Cache 259 = true ∧ slotValid t1Cache 633 = true ∧ slotValid t1Cache 634 = false := by
  decide
theorem test_scanDamlookup :
    said (exec (.scanDamlookup 271) onT1) = some [.result (.position (some 291))] ∧
    said (exec (.scanDamlookup 633) onT1) = some [.result (.position none)] := by decide +kernel
theorem test_scanFind :
    said (exec (.scanFind 5 0 2) onT1) = some [.result (.slot (some 1))] := by decide +kernel
theorem test_scanFind_none :
    said (exec (.scanFind 5 0 3) onT1) = some [.result (.slot none)] ∧
    said (exec (.scanFind 5 1 1) onT1) = some [.result (.slot none)] := by decide +kernel
theorem test_scanFirstidam_skips_an_empty_slot :
    said (exec .scanFirstidam onT1) = some [.result (.slot (some 0))] ∧
    said (exec .scanFirstidam { onT1 with cache := { t1Cache with idam := emptyIdam.set 1 437 } })
      = some [.result (.slot (some 1))] := by decide +kernel
theorem test_scanView : said (exec (.scanView 1) onT1) = some [.result (.view (some ⟨128, 458, 0xF8⟩))] := by decide +kernel
theorem test_scanView_that_does_not_fit :
    said (exec (.scanView 1) { onT1 with cache := { t1Cache with trk := t1Cache.trk.write 441 0x01 } })
      = some [.result (.view none)] := by decide +kernel
theorem test_scanIdcrcCheck : said (exec (.scanIdcrcCheck 1) onT1) = some [.result (.bool true)] := by decide +kernel
theorem test_scanIdcrcCheck_fails :
    said (exec (.scanIdcrcCheck 0) { onT1 with cache := { t1Cache with trk := t1Cache.trk.write 275 0x04 } })
      = some [.result (.bool false)] := by decide +kernel

/-- The 132 bytes of T1's first data field. -/
theorem t1_field : t1Cache.bytes 288 132 = [0xA1, 0xA1, 0xA1, 0xFB] ++ List.replicate 128 0xE5 := by decide +kernel

theorem t1_view : sectorView onT1 0 = .ok (some ⟨128, 292, 0xFB⟩) := by
  rw [sectorView_some (d := 291) (by decide +kernel) (by decide +kernel)]
  have e : slotSize onT1.cache 0 = 128 := by decide +kernel
  have b : onT1.cache.trk.read 291 = 0xFB := by decide +kernel
  rw [e, b, if_neg (by decide)]

theorem test_scanDatacrcCheck : said (exec (.scanDatacrcCheck 0) onT1) = some [.result (.bool true)] := by
  have h : dataSum onT1.cache 291 128 = 0x62A7 := by
    show crcOf (t1Cache.bytes 288 132) = _
    rw [t1_field, e5_field_sum]
  have b : onT1.cache.trk.read 420 ++ onT1.cache.trk.read 421 = 0x62A7#16 := by decide +kernel
  show said (tellWith .bool (dataCrcCheck 0 onT1)) = _
  rw [dataCrcCheck_ok t1_view (d := 291) (by decide +kernel)]
  simp only [dataSum] at h
  simp [h, b, tellWith, Machine.tell, said, after, State.emit]
  rfl

/-- T1 with the two checksum bytes of its first data field overwritten. -/
def unsummed : State := { onT1 with cache := { t1Cache with trk := t1Cache.trk.writeBlock 420 [0x00, 0x00] } }

theorem unsummed_view : sectorView unsummed 0 = .ok (some ⟨128, 292, 0xFB⟩) := by
  rw [sectorView_some (d := 291) (by decide +kernel) (by decide +kernel)]
  have e : slotSize unsummed.cache 0 = 128 := by decide +kernel
  have b : unsummed.cache.trk.read 291 = 0xFB := by decide +kernel
  rw [e, b, if_neg (by decide)]

/-- V5 and V39: the two bytes after the payload become 62 A7, and the field passes the check of V34. -/
theorem test_scanDatacrcGen :
    after (fun s => (s.cache.trk.read 420, s.cache.trk.read 421, s.cache.trk.read 291)) (exec (.scanDatacrcGen 0) unsummed)
      = some (0x62, 0xA7, 0xFB) := by
  have f : unsummed.cache.bytes 288 132 = [0xA1, 0xA1, 0xA1, 0xFB] ++ List.replicate 128 0xE5 := by decide +kernel
  have h : dataSum unsummed.cache 291 128 = 0x62A7 := by
    show crcOf (unsummed.cache.bytes 288 132) = _
    rw [f, e5_field_sum]
  show after _ (answer (dataCrcGen 0 unsummed)) = _
  rw [dataCrcGen_ok unsummed_view (d := 291) (by decide +kernel)]
  simp only [h]
  decide +kernel

theorem test_scanWtResolve :
    after (fun s => s.cache.trk.readBlock 256 19)
      (exec (.scanWtResolve 16) { onT1 with
        cache := { t1Cache with trk := [] }
        stage := cellsFrom 0
          [0x4E, 0x4E, 0x00, 0x00, 0xF5, 0xF5, 0xF5, 0xFE, 0x01, 0x00, 0x02, 0x00, 0xF7, 0x4E, 0xF6, 0xF7] })
      = some [0x4E, 0x4E, 0x00, 0x00, 0xA1, 0xA1, 0xA1, 0xFE, 0x01, 0x00, 0x02, 0x00, 0xC9, 0xCA, 0x4E, 0xC2, 0xCA, 0xC2, 0x00] := by
  decide +kernel
theorem test_scanWtResolve_drops_what_does_not_fit :
    after (fun s => s.cache.trk.readBlock 256 7)
      (exec (.scanWtResolve 7) { onT1 with
        cache := { t1Cache with trk := [], len := 262 }
        stage := cellsFrom 0 [0x01, 0x02, 0x03, 0x04, 0x05, 0xF7, 0x09] })
      = some [0x01, 0x02, 0x03, 0x04, 0x05, 0x93, 0x00] := by decide +kernel
theorem test_scanWtRebuild :
    after (fun s => (s.cache.trk.readBlock 0 6, s.cache.idam[1], s.cache.dam[1]))
      (exec (.scanWtRebuild 0) { onT1 with cache := { t1Cache with trk := t1Cache.trk.clear 0 256, idam := emptyIdam } })
      = some ([0x0F, 0x81, 0xB5, 0x81, 0x00, 0x00], 437, some 457) := by decide +kernel
theorem test_scanFlush :
    after (fun s => (s.events, (fileAt s 0).bytes.readBlock 3216 4, (fileAt s 0).size))
      (exec .scanFlush { onT1 with env := { onT1.env with files := [⟨25616, [], false⟩] } })
      = some ([.imgWrite 0 3216 640], [0x0F, 0x81, 0xB5, 0x81], 25616) := by decide +kernel

/-! ## The internal steps and the agents (V51, V52, V60, P1 to P3) -/

theorem test_cmdClassify :
    (([0x00, 0x1F, 0x2A, 0x5B, 0x7F, 0x80, 0xBF, 0xC0, 0xE4, 0xF4, 0xD0, 0xDF].map (classify idle) : List CmdType))
      = [.typeI, .typeI, .typeI, .typeI, .typeI, .typeII, .typeII, .typeIII, .typeIII, .typeIII, .typeIV, .typeIV] := by decide
theorem test_cmdClassify_of_the_host_channel :
    said (exec (.cmdClassify 0xD0) channel) = some [.result (.cmdType .typeII)] := by decide
theorem test_cmdDispatch_of_a_command :
    after (fun s => (s.track, s.dir, s.timerUs, s.cmdRecv, s.flags.busy))
      (exec .cmdDispatch { idle with command := 0x50, cmdRecv := true, flags := { Flags.clear with busy := true } })
      = some (1, .plus, 3000, false, false) := by decide
theorem test_cmdDispatch_of_a_host_opcode :
    after (fun s => (s.events, s.cmdRecv)) (exec .cmdDispatch { channel with command := 0x04, cmdRecv := true })
      = some ([.hostOp .mount], false) := by decide
theorem test_reset :
    after (fun s => (statusByte s, s.track, s.cache.id, s.drives[0].format, s.nmiStatus))
      (exec .reset { reading with
        nmiStatus := 0x7F
        env := { reading.env with boot := reading.env.boot.set 0 dmk, resetLine := true, resetHeldUs := 1000000 } })
      = some (0x84, 0, none, .dmk, 0xFF) := by decide
theorem test_reset_held_too_shortly :
    after State.track (exec .reset { onT1 with env := { onT1.env with resetLine := true, resetHeldUs := 999999 } }) = some 5 := by
  decide
theorem test_step_runs_a_table_word :
    after (fun s => (s.drvSel, s.inputs)) (step (idle.withFetchWord 7 0x04)) = some (0x00, []) := by decide
theorem test_service_put :
    after (fun s => (s.data, s.flags.drq)) (step { onT1 with inputs := [.move (.svcPut 0x6D)] }) = some (0x6D, true) := by decide
theorem test_service_done :
    after (fun s => (s.svcTag, s.flags.busy, s.flags.intrq, s.events)) (step { reading with inputs := [.move .svcDone] })
      = some (.none, false, true, [.intrPulse]) := by decide
theorem test_hostx_restore :
    after State.drvSel (step { channel with drvSelBackup := 0x01, inputs := [.move .hostxRestore] }) = some 0x01 := by decide

/-! ## Witnesses: the hypotheses of every statement can be met -/

/-- Nobody waits in `State.reset`'s policy, so a transaction goes through. -/
theorem goes (t : BusTxn) (s : State) (h : s.stretched = none) (w : s.cfg.waitNeeded = .never) : goesThrough t s :=
  ⟨h, by simp [waitNeeded, w]⟩

/-- The reset state with one input waiting. -/
def facing (i : Input) (s : State) : State := { s with inputs := [i] }

theorem witness_DecodeOfEncodeIsTheInstruction :
    WellFormed (.crcRange .hx 4294967295 4294967295) = true ∧ WellFormed (.scanFind 255 1 255) = true := by decide

theorem witness_EncodeOfDecodeIsThePacket :
    reads (word 0b01000011 1 []) .rdData = true ∧ (word 0b01000011 1 [])[1]? ≠ some 0 := by decide

theorem witness_StepRunsTheDecodedInstruction :
    (∃ (s : State) (bs : List Byte) (rest : List Input) (i : Instr), s.inputs = .instr bs :: rest ∧ decode bs = .ok i) ∧
    (∃ (s : State) (bs : List Byte) (rest : List Input) (e : DecodeError), s.inputs = .instr bs :: rest ∧ decode bs = .error e) ∧
    (∃ s : State, s.inputs = []) ∧ (∃ n w i, decodeTableWord n w = some i) :=
  ⟨⟨facing (.instr (word 0b01000000 1 [])) idle, _, [], .rdStatus, rfl, rfl⟩,
    ⟨facing (.instr []) idle, _, [], .badLength, rfl, rfl⟩, ⟨idle, rfl⟩, ⟨7, 64, .rdStatus, rfl⟩⟩

theorem witness_StatusByteHasItsTwoShapes :
    idle.cmdType = .typeI ∧ ({ idle with cmdType := .typeIV } : State).cmdType = .typeIV ∧ reading.cmdType = .typeII ∧
    ({ idle with cmdType := .typeIII } : State).cmdType = .typeIII := ⟨rfl, rfl, rfl, rfl⟩

theorem witness_SelectionIsTheLowestDriveBit :
    hostSel channel = true ∧ selDrive { idle with drvSel := 0x0E } = some 1 ∧ selDrive { idle with drvSel := 0x08 } = some 3 ∧
    selDrive { idle with drvSel := 0xF0 } = none := by decide

theorem witness_StatusReadClearsThePendingInterrupt :
    (∃ s, goesThrough .rdStatus s ∧ s.flags.intrq = true) ∧ ∃ s, goesThrough .rdStatus s ∧ s.flags.intrq = false :=
  ⟨⟨{ idle with flags := { Flags.clear with intrq := true } }, goes _ _ rfl rfl, rfl⟩, ⟨idle, goes _ _ rfl rfl, rfl⟩⟩

theorem witness_TrackSectorAndNmiReadsChangeNothing :
    goesThrough .rdTrack idle ∧ goesThrough .rdSector idle ∧ goesThrough .rdNmi idle :=
  ⟨goes _ _ rfl rfl, goes _ _ rfl rfl, goes _ _ rfl rfl⟩

theorem witness_DataReadReturnsAByteAndClearsDrq :
    (∃ s, goesThrough .rdData s ∧ hostSel s = false) ∧
    (∃ s b r, goesThrough .rdData s ∧ hostSel s = true ∧ s.env.hostxBytes = b :: r) ∧
    ∃ s, goesThrough .rdData s ∧ hostSel s = true ∧ s.env.hostxBytes = [] :=
  ⟨⟨idle, goes _ _ rfl rfl, rfl⟩,
    ⟨{ channel with env := { channel.env with hostxBytes := [0x22] } }, 0x22, [], goes _ _ rfl rfl, rfl, rfl⟩,
    ⟨channel, goes _ _ rfl rfl, rfl, rfl⟩⟩

theorem witness_CommandWriteIsLatchedRunOrDropped :
    (∃ v s, goesThrough (.wrCmd v) s ∧ s.flags.busy = true ∧ hostSel s = false ∧ v.extractLsb' 4 4 ≠ 0xD#4) ∧
    (∃ v s, goesThrough (.wrCmd v) s ∧ hostSel s = true) ∧
    (∃ v s, goesThrough (.wrCmd v) s ∧ hostSel s = false ∧ s.flags.busy = false ∧ v.extractLsb' 4 4 ≠ 0xD#4) ∧
    ∃ v s, goesThrough (.wrCmd v) s ∧ hostSel s = false ∧ v.extractLsb' 4 4 = 0xD#4 :=
  ⟨⟨0xE0, reading, goes _ _ rfl rfl, rfl, rfl, by decide⟩, ⟨0xD0, channel, goes _ _ rfl rfl, rfl⟩,
    ⟨0xCF, idle, goes _ _ rfl rfl, rfl, rfl, by decide⟩, ⟨0xDF, reading, goes _ _ rfl rfl, rfl, by decide⟩⟩

theorem witness_RegisterAndLatchWritesStoreTheByte :
    goesThrough (.wrTrack 0xFF) idle ∧ goesThrough (.wrSector 0) idle ∧ goesThrough (.wrData 1) idle ∧
    goesThrough (.wrNmi 1) idle ∧
    (goesThrough (.wrDrvsel 0x0F) idle ∧ (0x0F : Byte).extractLsb' 0 4 = 0xF#4 ∧ hostSel idle = false) ∧
    (goesThrough (.wrDrvsel 0x0E) idle ∧ (0x0E : Byte).extractLsb' 0 4 ≠ 0xF#4) ∧
    goesThrough (.wrDrvsel 0x0F) channel ∧ hostSel channel = true :=
  ⟨goes _ _ rfl rfl, goes _ _ rfl rfl, goes _ _ rfl rfl, goes _ _ rfl rfl, ⟨goes _ _ rfl rfl, by decide, rfl⟩,
    ⟨goes _ _ rfl rfl, by decide⟩, goes _ _ rfl rfl, rfl⟩

/-- A machine whose `WaitNeeded` is the candidate of U5, in the middle of a transfer with no byte ready. -/
def starved : State :=
  { reading with cfg := { reading.cfg with waitNeeded := .dataPhase }, flags := { reading.flags with drq := false } }

/-- The same with a data read stretched on the bus. -/
def stretched : State := { starved with stretched := some .rdData, waitOut := true }

theorem witness_WaitHoldsTheTransaction :
    (busTxnOf .rdData = some .rdData ∧ starved.stretched = none ∧ waitNeeded .rdData starved = true) ∧
    (busTxnOf .rdTrack = some .rdTrack ∧ stretched.stretched = some .rdData) ∧
    (busTxnOf .rdTrack = some .rdTrack ∧ goesThrough .rdTrack starved) ∧
    ((facing (.move .hostCycleEnd) stretched).stretched = some .rdData ∧
      (facing (.move .hostCycleEnd) stretched).waitOut = true) ∧
    ((facing (.move .hostCycleEnd) { stretched with waitOut := false }).stretched = some .rdData ∧
      (facing (.move .hostCycleEnd) { stretched with waitOut := false }).waitOut = false) ∧
    (facing (.move .svcRelease) stretched).inputs = [.move .svcRelease] :=
  ⟨⟨rfl, rfl, rfl⟩, ⟨rfl, rfl⟩, ⟨rfl, rfl, rfl⟩, ⟨rfl, rfl⟩, ⟨rfl, rfl⟩, rfl⟩

theorem witness_BusNeverTouchesTheTrack :
    ∃ s', busTxnOf (.wrDrvsel 0 2) = some (.wrDrvsel 2) ∧ exec (.wrDrvsel 0 2) onT1 = .next s' ∧ s'.drvSel = 2 ∧
      ∀ v, BusTxn.wrDrvsel 2 ≠ .wrCmd v :=
  ⟨_, rfl, rfl, rfl, fun _ => nofun⟩

/-- Each of the writes that the statement allows happens. -/
theorem witness_OnlyTheirWritersChangeTheRegisters :
    (∃ s', exec (.wrCmd 0x80) idle = .next s' ∧ s'.command ≠ idle.command ∧ s'.cmdType ≠ idle.cmdType) ∧
    (∃ s', exec (.stepin true 0 0) idle = .next s' ∧ s'.track ≠ idle.track) ∧
    (∃ s', exec (.wrSector 1) idle = .next s' ∧ s'.sector ≠ idle.sector) ∧
    (∃ s', exec (.wrData 1) idle = .next s' ∧ s'.data ≠ idle.data) ∧
    (∃ s', exec (.wrDrvsel 0 0x0F) idle = .next s' ∧ s'.drvSel ≠ idle.drvSel ∧ s'.drvSelBackup ≠ idle.drvSelBackup ∧
      s'.motorUs ≠ idle.motorUs) ∧
    (∃ s', exec (.wrNmi 0 1) idle = .next s' ∧ s'.nmiMask ≠ idle.nmiMask) ∧
    (∃ s', exec (.forceint 8) idle = .next s' ∧ s'.ien ≠ idle.ien) ∧
    (∃ s', exec (.stepout false 0 0) idle = .next s' ∧ s'.dir ≠ idle.dir) ∧
    (∃ s', exec .reset { idle with env := { idle.env with resetLine := true, resetHeldUs := 1000000 } } = .next s' ∧
      s'.drives ≠ idle.drives) ∧
    ∃ s', exec .scanFlush { onT1 with env := { onT1.env with files := [⟨0, [], false⟩] } } = .next s' ∧
      s'.env.files ≠ [⟨0, [], false⟩] := by
  refine ⟨⟨_, rfl, by decide, by decide⟩, ⟨_, rfl, by decide⟩, ⟨_, rfl, by decide⟩, ⟨_, rfl, by decide⟩,
    ⟨_, rfl, by decide, by decide, by decide⟩, ⟨_, rfl, by decide⟩, ⟨_, rfl, by decide⟩, ⟨_, rfl, by decide⟩,
    ⟨_, rfl, by decide⟩, ?_⟩
  obtain ⟨u, h, e⟩ := exists_next (f := fun s => (s.env.files.getD 0 Image.missing).size)
    (o := exec .scanFlush { onT1 with env := { onT1.env with files := [⟨0, [], false⟩] } }) (x := 3856) (by decide +kernel)
  exact ⟨u, h, fun c => by rw [c] at e; exact absurd e (by decide)⟩

theorem witness_ServiceMovesFollowTheHandshake :
    (facing (.move (.svcPut 1)) idle).flags.drq = false ∧ (facing (.move (.svcPut 1)) reading).flags.drq = true ∧
    (facing (.move .svcReq) idle).flags.drq = false ∧ (facing (.move .svcReq) reading).flags.drq = true ∧
    (facing (.move .svcTake) { idle with svcReq := true }).svcReq = true ∧ (facing (.move .svcTake) idle).svcReq = false ∧
    ((facing (.move .svcLost) reading).svcTag = .readSector ∧ (facing (.move .svcLost) reading).flags.drq = true) ∧
    (facing (.move .svcLost) idle).svcTag ≠ .readSector ∧
    (facing (.move .svcLost) { reading with flags := { reading.flags with drq := false } }).flags.drq = false ∧
    (facing (.move .svcDone) reading).inputs = [.move .svcDone] ∧
    (let s := facing (.move (.svcStore 127 1)) { onT1 with xfer := ⟨.trk, 512, 128, 0, some 1⟩ };
      127 < s.xfer.len ∧ s.xfer.base + 127 < spaceLen s s.xfer.space) := by decide

theorem witness_DispatchRunsTheLatchedByte :
    (({ idle with cmdRecv := true } : State).cmdRecv = true ∧ hostSel { idle with cmdRecv := true } = false) ∧
    (({ channel with cmdRecv := true } : State).cmdRecv = true ∧ hostSel { channel with cmdRecv := true } = true) ∧
    idle.cmdRecv = false := by decide

/-- The HFE drive in slot 0, selected, with nothing in its look-up table. -/
def broken : State := { idle with drives := idle.drives.set 0 { hfe with lut := [] } }

theorem witness_RestoreGoesToTrackZero :
    mounted State.reset = none ∧ (mounted idle = some 0 ∧ ensureReady idle 0 (sideSel idle) 0 = true) ∧
    (mounted broken = some 0 ∧ exec (.scanEnsure 0 (sideSel broken) 0) broken = .refused .malformedLut) :=
  ⟨rfl, ⟨rfl, rfl⟩, ⟨rfl, rfl⟩⟩

theorem witness_SeekReachesTheTargetOrFails :
    mounted State.reset = none ∧
    (∃ d, mounted { idle with data := 40 } = some d ∧
      ({ idle with data := 40 } : State).drives[d].tracks ≤ ({ idle with data := 40 } : State).data.toNat) ∧
    (let s := { idle with data := 39, track := 7 };
      s.cfg.stepDelay = .blocking ∧ mounted s = some 0 ∧ s.data.toNat < s.drives[(0 : Fin 4)].tracks ∧
        ensureReady s 0 (sideSel s) s.data = true) ∧
    (let s := { broken with data := 1 };
      s.cfg.stepDelay = .blocking ∧ mounted s = some 0 ∧ s.data.toNat < s.drives[(0 : Fin 4)].tracks ∧
        exec (.scanEnsure 0 (sideSel s) s.data) { s with timerUs := 3000 } = .refused .malformedLut) :=
  ⟨rfl, ⟨0, rfl, by decide⟩, ⟨rfl, rfl, by decide, rfl⟩, ⟨rfl, rfl, by decide, rfl⟩⟩

theorem witness_StepsClampAndComplete : idle.cfg.stepDelay = .blocking ∧ (idle.track = 0 ∧ idle.dir = .plus) := by decide

/-- The tick-based branch of D19, with a seek whose delay is counted down. -/
def ticking (us : Nat) (w : StepWait) : State :=
  facing (.move .loopResume) { idle with cfg := { idle.cfg with stepDelay := .tickBased }, timerUs := us, stepWait := some w }

theorem witness_TickBasedDelaySplitsTheStep :
    (let s := { ticking 0 (.step none) with data := 39 };
      s.cfg.stepDelay = .tickBased ∧ mounted s = some 0 ∧ s.data.toNat < s.drives[(0 : Fin 4)].tracks) ∧
    ((ticking 1 (.step none)).inputs = [.move .loopResume] ∧ (ticking 1 (.step none)).stepWait = some (.step none) ∧
      (ticking 1 (.step none)).timerUs ≠ 0) ∧
    (ticking 0 (.step (some 3))).timerUs = 0 ∧
    ((ticking 0 (.seek 0 false 5)).timerUs = 0 ∧ ensureReady (ticking 0 (.seek 0 false 5)) 0 false 5 = true) :=
  ⟨⟨rfl, rfl, by decide⟩, ⟨rfl, rfl, by decide⟩, rfl, ⟨rfl, rfl⟩⟩

theorem onT1_tablesFit : onT1.cache.tablesFit = true := by decide +kernel

/-- T1 cached, sector `n` wanted. -/
def wanting (n : Byte) : State := { onT1 with sector := n }

theorem wanting_ready (n : Byte) : lookupReady (wanting n) 0 (sideSel (wanting n)) (wanting n).track = true := by
  have h : sideSel (wanting n) = false := by show (0x01#8).getLsbD 4 = false; decide
  rw [h]
  exact (if_pos rfl).trans onT1_tablesFit

/-- The same with a size code that does not fit (V38). -/
def oversized : State := { wanting 2 with cache := { t1Cache with trk := t1Cache.trk.write 441 0x01 } }

/-- The same with no ID field in the tables. -/
def noIdam : State := { onT1 with cache := { t1Cache with idam := emptyIdam, dam := emptyDam } }

theorem witness_SectorCommandsResolveAndStage :
    mounted State.reset = none ∧
    (mounted broken = some 0 ∧ exec (.scanEnsure 0 (sideSel broken) broken.track) broken = .refused .malformedLut) ∧
    (mounted idle = some 0 ∧ lookupReady idle 0 (sideSel idle) idle.track = true ∧
      said (exec (.scanEnsure 0 (sideSel idle) idle.track) idle) = some [.result (.loaded false)]) ∧
    (mounted (wanting 3) = some 0 ∧ lookupReady (wanting 3) 0 (sideSel (wanting 3)) (wanting 3).track = true ∧
      said (exec (.scanEnsure 0 false 5) (wanting 3)) = some [.result (.loaded true)] ∧
      said (exec (.scanFind 5 0 3) (wanting 3)) = some [.result (.slot none)]) ∧
    (mounted (wanting 2) = some 0 ∧ lookupReady (wanting 2) 0 (sideSel (wanting 2)) (wanting 2).track = true ∧
      said (exec (.scanFind 5 0 2) (wanting 2)) = some [.result (.slot (some 1))] ∧
      said (exec (.scanView 1) (wanting 2)) = some [.result (.view (some ⟨128, 458, 0xF8⟩))]) ∧
    (mounted oversized = some 0 ∧ lookupReady oversized 0 (sideSel oversized) oversized.track = true ∧
      said (exec (.scanFind 5 0 2) oversized) = some [.result (.slot (some 1))] ∧
      said (exec (.scanView 1) oversized) = some [.result (.view none)]) :=
  ⟨rfl, ⟨rfl, rfl⟩, ⟨rfl, rfl, rfl⟩, ⟨rfl, wanting_ready 3, by decide, by decide +kernel⟩,
    ⟨rfl, wanting_ready 2, by decide +kernel, by decide +kernel⟩,
    ⟨rfl, by decide +kernel, by decide +kernel, by decide +kernel⟩⟩

theorem witness_ReadAddressAndReadTrackStageTheirBytes :
    mounted State.reset = none ∧
    (mounted broken = some 0 ∧ exec (.scanEnsure 0 (sideSel broken) broken.track) broken = .refused .malformedLut) ∧
    (mounted idle = some 0 ∧ lookupReady idle 0 (sideSel idle) idle.track = true ∧
      said (exec (.scanEnsure 0 (sideSel idle) idle.track) idle) = some [.result (.loaded false)]) ∧
    (mounted onT1 = some 0 ∧ lookupReady onT1 0 (sideSel onT1) onT1.track = true ∧
      said (exec .scanFirstidam onT1) = some [.result (.slot (some 0))]) ∧
    (mounted noIdam = some 0 ∧ lookupReady noIdam 0 (sideSel noIdam) noIdam.track = true ∧
      said (exec .scanFirstidam noIdam) = some [.result (.slot none)]) :=
  ⟨rfl, ⟨rfl, rfl⟩, ⟨rfl, rfl, rfl⟩, ⟨rfl, wanting_ready 0, by decide⟩, ⟨rfl, by decide +kernel, by decide⟩⟩

theorem witness_WriteTrackClearsTheBody :
    mounted State.reset = none ∧ (mounted broken = some 0 ∧ broken.drives[(0 : Fin 4)].format = .hfe) ∧
    (mounted idle = some 0 ∧ idle.drives[(0 : Fin 4)].format = .dmk ∧
      said (exec (.scanEnsure 0 (sideSel idle) idle.track) idle) = some [.result (.loaded false)]) ∧
    (mounted onT1 = some 0 ∧ onT1.drives[(0 : Fin 4)].format = .dmk ∧
      said (exec (.scanEnsure 0 (sideSel onT1) onT1.track) onT1) = some [.result (.loaded true)]) :=
  ⟨rfl, ⟨rfl, rfl⟩, ⟨rfl, rfl, rfl⟩, ⟨rfl, rfl, by decide⟩⟩

theorem witness_CrcRangeRunsOverTheBytes :
    632 + 8 ≤ spaceLen onT1 .trk ∧ ¬632 + 9 ≤ spaceLen onT1 .trk ∧ 640 + 0 ≤ spaceLen onT1 .trk ∧
    16383 + 1 ≤ spaceLen onT1 .stage := by decide

/-- The last bit of side 0 lies in the block of V23; the first of side 1 does not, since the block is shorter than 256 bytes. -/
theorem witness_FluxBitFollowsTheInterleave :
    (351 < 8 * (v23.fluxLen / 2) ∧ hfeMap (351 / 8) false < v23.fluxLen) ∧
    (0 < 8 * (v23.fluxLen / 2) ∧ v23.fluxLen ≤ hfeMap (0 / 8) true) ∧ 8 * (v23.fluxLen / 2) ≤ 352 := by decide

theorem witness_WindowsGatherSixteenBitsAndSplit :
    336 + 16 ≤ nbits v23 ∧ nbits v23 < 337 + 16 ∧ 320 + 16 * v23.cfg.fmStride ≤ nbits v23 ∧
    nbits v23 < 321 + 16 * v23.cfg.fmStride := by decide

theorem witness_ScansFindTheFirstMark :
    said (exec (.decSyncscan false 63) v23) = some [.result (.position (some 64))] ∧
    said (exec (.decSyncscan false 321) v23) = some [.result (.position none)] ∧
    said (exec (.decFmscan false 127) v29) = some [.result (.position (some 128))] ∧
    said (exec (.decFmscan false 129) { v29 with fluxLen := 40 }) = some [.result (.position none)] := by decide +kernel

theorem witness_MarkIsClassifiedByThreeBytes :
    (64 + 64 ≤ nbits v23 ∧ mfmByte v23 false 80 = 0xA1 ∧ mfmByte v23 false 96 = 0xA1 ∧ mfmByte v23 false 112 = 0xFE) ∧
    (288 + 64 ≤ nbits v23 ∧ mfmByte v23 false 304 = 0xA1 ∧ mfmByte v23 false 320 = 0xA1 ∧ mfmByte v23 false 336 = 0xFB) ∧
    ¬289 + 64 ≤ nbits v23 ∧
    (80 + 64 ≤ nbits v23 ∧ mfmByte v23 false 96 = 0xA1 ∧ mfmByte v23 false 112 ≠ 0xA1 ∧ mfmByte v23 false 112 ≠ 0xF5) ∧
    (96 + 64 ≤ nbits v23 ∧ mfmByte v23 false 144 ≠ 0xFE ∧ mfmByte v23 false 144 ≠ 0xFB ∧ mfmByte v23 false 144 ≠ 0xF8) := by
  decide +kernel

theorem witness_IdFieldIsCaptured :
    ((0 : Fin 128).val = v23.dec.n ∧ 192 + 160 ≤ nbits v23 ∧ v23.dec.wp + 10 ≤ v23.cfg.trkCap) ∧
    (v23.dec.n < 128 ∧ ¬193 + 160 ≤ nbits v23) ∧
    ((127 : Fin 128).val = ({ v23 with dec := { v23.dec with n := 127, wp := 16374 } } : State).dec.n ∧
      16374 + 10 ≤ v23.cfg.trkCap) ∧
    128 ≤ ({ v23 with dec := { v23.dec with n := 128 } } : State).dec.n := by decide

theorem witness_DataFieldIsCapturedOnce :
    v23.dec.cur = none ∧
    (let s := { atData with cache := { atData.cache with dam := emptyDam.set 0 (some 269) } };
      s.dec.cur = some 0 ∧ s.cache.dam[(0 : Fin 128)] ≠ none) ∧
    (let s := { atData with cache := { atData.cache with idam := emptyIdam.set 0 16380 } };
      s.dec.cur = some 0 ∧ s.cache.dam[(0 : Fin 128)] = none ∧ s.cfg.trkCap ≤ s.cache.idam[(0 : Fin 128)] + 4) ∧
    (atData.dec.cur = some 0 ∧ atData.cache.dam[(0 : Fin 128)] = none ∧
      atData.cache.idam[(0 : Fin 128)] + 4 < atData.cfg.trkCap ∧
      1952 + 64 + 16 * (128 * 2 ^ ((atData.cache.trk.read 263).toNat % 4) + 2) ≤ nbits atData ∧
      ¬1953 + 64 + 16 * (128 * 2 ^ ((atData.cache.trk.read 263).toNat % 4) + 2) ≤ nbits atData ∧
      atData.dec.wp + 4 + 128 + 2 ≤ atData.cfg.trkCap) := by decide +kernel

theorem witness_DecodingATrackCompletes :
    256 ≤ v23.cfg.trkCap ∧ ∀ q, q < 17 → wordAt { State.reset with fluxLen := 8 } false q ≠ 0x4489 := by decide +kernel

/-- An MFM side with an ID field, its data field (whose bytes are blank) and a second ID field. -/
def twoFields : State :=
  { State.reset with
    flux := cellsFrom 0 (packFlux (mfmSide false
        ([a1, a1, a1] ++ [0xFE, 0x05, 0x00, 0x03, 0x00, 0x30, 0x0A].map plain ++ [a1, a1, a1, plain 0xFB]))) ++
      cellsFrom 544 (packFlux (mfmSide false ([a1, a1, a1] ++ [0xFE, 0x05, 0x00, 0x04, 0x00, 0x11, 0x22].map plain)))
    fluxLen := 616 }

theorem twoFields_decoded :
    ∃ t, exec (.decTrack false) twoFields = .next t ∧
      (t.dec.n, t.cache.idam[(0 : Fin 128)], t.cache.dam[(0 : Fin 128)], t.cache.idam[(1 : Fin 128)], t.cache.len)
        = (2, 259, some 269, 403, 410) :=
  exists_next
    (f := fun t => (t.dec.n, t.cache.idam[(0 : Fin 128)], t.cache.dam[(0 : Fin 128)], t.cache.idam[(1 : Fin 128)], t.cache.len))
    (by decide +kernel)

theorem witness_DecodedTrackIsOrdered :
    ∃ t, exec (.decTrack false) twoFields = .next t ∧ (0 : Fin 128).val < t.dec.n ∧ t.cache.dam[(0 : Fin 128)] = some 269 ∧
      (0 : Fin 128).val + 1 = (1 : Fin 128).val ∧ (1 : Fin 128).val < t.dec.n ∧ t.dec.n ≤ (2 : Fin 128).val := by
  obtain ⟨t, h, e⟩ := twoFields_decoded
  simp only [Prod.mk.injEq] at e
  exact ⟨t, h, by rw [e.1]; decide, e.2.2.1, rfl, by rw [e.1]; decide, by rw [e.1]; decide⟩

theorem witness_EveryDecodedFieldIsInTheFlux :
    (∃ t, exec (.decTrack false) twoFields = .next t ∧ (0 : Fin 128).val < t.dec.n ∧ t.cache.dam[(0 : Fin 128)] = some 269 ∧
      (0 : Fin 128) < 1 ∧ (1 : Fin 128).val < t.dec.n ∧ t.dec.n < 128 ∧ t.cache.len + 10 ≤ twoFields.cfg.trkCap) ∧
    wordAt twoFields false 0 = 0x4489 ∧ markAt twoFields false 0 = .id 0xA1 0xA1 ∧ 0 + 160 ≤ nbits twoFields := by
  obtain ⟨t, h, e⟩ := twoFields_decoded
  simp only [Prod.mk.injEq] at e
  refine ⟨⟨t, h, by rw [e.1]; decide, e.2.2.1, by decide, by rw [e.1]; decide, by rw [e.1]; decide, ?_⟩, ?_⟩
  · rw [e.2.2.2.2]; decide
  · decide +kernel

/-- An FM side with an ID field, its data field and a second ID field, all but the marks blank. -/
def twoFmFields : State :=
  { State.reset with
    flux := cellsFrom 0 [0x55, 0x44, 0x54, 0x15] ++ cellsFrom 28 [0x55, 0x44, 0x14, 0x55] ++
      cellsFrom 1064 [0x55, 0x44, 0x54, 0x15]
    fluxLen := 1160 }

theorem witness_DecodingAnFmTrackCompletesInOrder :
    256 ≤ twoFmFields.cfg.trkCap ∧ 0 < twoFmFields.cfg.fmStride ∧
    after (fun t => (t.dec.n, t.cache.idam[(0 : Fin 128)], t.cache.dam[(0 : Fin 128)], t.cache.idam[(1 : Fin 128)]))
      (exec (.decFmtrack false) twoFmFields) = some (2, 256, some 263, 394) := by decide +kernel

theorem witness_EncodedBytesReadBack : (1 : Nat) = 1 ∨ (1 : Nat) = 2 := by decide

theorem witness_DmkOffsetIsExact : idle.drives[(0 : Fin 4)].format = .dmk ∧ idle.drives[(3 : Fin 4)].format ≠ .dmk := by decide

/-- An image that ends right after the record of track 5. -/
def justHas : State := { idle with env := { idle.env with files := [⟨3856, [], false⟩] } }

/-- One byte less. -/
def justLacks : State := { idle with env := { idle.env with files := [⟨3855, [], false⟩] } }

/-- The same image as a drive that claims three sides (rule R252). -/
def threeSides : State := { justHas with drives := justHas.drives.set 0 { dmk with sides := 3, tracks := 1 } }

theorem witness_LoadCopiesTheDmkRecord :
    (justHas.recordExists 0 5 false ∧ (justHas.env.files.getD 0 Image.missing).down = false ∧
      (dmk.recordAt 5 false) + dmk.trackLength ≤ (justHas.env.files.getD 0 Image.missing).size) ∧
    (justLacks.recordExists 0 5 false ∧
      ¬(dmk.recordAt 5 false) + dmk.trackLength ≤ (justLacks.env.files.getD 0 Image.missing).size) ∧
    (threeSides.drives[(0 : Fin 4)].format ≠ .hfe ∧ ¬threeSides.recordExists 0 0 false ∧
      said (exec (.scanLoad 0 false 0) threeSides) = some [.result (.loaded false)]) :=
  ⟨⟨by simp only [State.recordExists]; decide, rfl, by decide⟩, ⟨by simp only [State.recordExists]; decide, by decide⟩,
    by decide, by simp only [State.recordExists]; decide, by decide⟩

/-- An HFE drive on an image of `size` bytes. -/
def onHfe (size : Nat) (down : Bool) : State :=
  { idle with drives := idle.drives.set 0 hfe, env := { idle.env with files := [⟨size, [], down⟩] } }

theorem witness_LoadDecodesTheHfeTrack :
    let s := onHfe 600 false
    s.drives[(0 : Fin 4)].format = .hfe ∧ s.drives[(0 : Fin 4)].tracks ≤ (2 : Byte).toNat ∧
    ((1 : Byte).toNat < s.drives[(0 : Fin 4)].tracks ∧ s.drives[(0 : Fin 4)].lut[(1 : Byte).toNat]? = none) ∧
    ((0 : Byte).toNat < s.drives[(0 : Fin 4)].tracks ∧ s.drives[(0 : Fin 4)].lut[(0 : Byte).toNat]? = some (1, 88)) ∧
    (fileAt (onHfe 600 true) 0).down = true ∧ ((fileAt (onHfe 599 false) 0).down = false ∧ ¬1 * 512 + 88 ≤ (fileAt (onHfe 599 false) 0).size) ∧
    ((fileAt s 0).down = false ∧ 1 * 512 + 88 ≤ (fileAt s 0).size) := by decide

theorem witness_EnsureLoadsOnlyOnMismatch :
    onT1.cache.id = some ⟨0, false, 5⟩ ∧ onT1.cache.id ≠ some ⟨0, true, 5⟩ ∧ loadable justHas 0 5 = true ∧
    loadable (onHfe 600 false) 0 0 = true ∧ loadable (onHfe 599 false) 0 0 = false ∧ loadable broken 0 1 = false := by decide

theorem witness_DmkTablesFollowThePointers :
    256 ≤ ({ t1Cache with len := 256 } : Cache).len ∧ ({ t1Cache with len := 255 } : Cache).len < 256 := by decide

/-- T1 cut off at `n` bytes. -/
def cut (n : Nat) : State := { onT1 with cache := { t1Cache with len := n } }

theorem witness_LookupsAndViewOfASector :
    (∀ i : Fin 128, onT1.cache.idam[i] ≠ 0 → onT1.cache.idam[i] + 3 < onT1.cache.len) ∧
    onT1.cache.dam[(2 : Fin 128)] = none ∧
    (let size := 128 * 2 ^ ((onT1.cache.trk.read 275).toNat % 4);
      onT1.cache.dam[(0 : Fin 128)] = some 291 ∧ (cut 421).cache.idam[(0 : Fin 128)] + 4 < (cut 421).cache.len ∧
      (cut 421).cache.len < 291 + 1 + size + 2 ∧ 256 + (cut 422).cache.pfx ≤ 291 ∧ 291 + 1 + size + 2 ≤ (cut 422).cache.len) ∧
    (cut 275).cache.len ≤ (cut 275).cache.idam[(0 : Fin 128)] + 4 := by decide +kernel

theorem witness_FieldChecksCompareTheStoredBytes :
    ((cut 278).cache.pfx ≤ (cut 278).cache.idam[(0 : Fin 128)] ∧ (cut 278).cache.idam[(0 : Fin 128)] + 6 < (cut 278).cache.len) ∧
    onT1.cache.dam[(2 : Fin 128)] = none ∧
    (let size := 128 * 2 ^ ((onT1.cache.trk.read 275).toNat % 4);
      onT1.cache.dam[(0 : Fin 128)] = some 291 ∧ onT1.cache.idam[(0 : Fin 128)] + 4 < (cut 421).cache.len ∧
      (cut 421).cache.len < 291 + 1 + size + 2 ∧ 256 + onT1.cache.pfx ≤ 291 ∧ 291 + 1 + size + 2 ≤ (cut 422).cache.len) := by
  decide +kernel

theorem witness_GeneratedChecksumPassesTheCheck :
    onT1.cache.dam[(0 : Fin 128)] = some 291 ∧ onT1.cache.idam[(0 : Fin 128)] ≤ 291 ∧
    onT1.cache.idam[(0 : Fin 128)] + 4 < onT1.cache.len ∧ 256 + onT1.cache.pfx ≤ 291 ∧
    291 + 1 + 128 * 2 ^ ((onT1.cache.trk.read 275).toNat % 4) + 2 ≤ onT1.cache.len := by decide +kernel

/-- A raw stream of one field with a payload of two bytes, for a track that just holds what comes out. -/
def oneField : State :=
  { onT1 with
    cache := { t1Cache with len := 264 }
    stage := cellsFrom 0 [0xF5, 0xF5, 0xF5, 0xFE, 0x01, 0x02, 0xF7] }

/-- V41: the streams resolve as listed, the last one before the cut at TRKLEN. -/
theorem test_resolved_streams :
    (resolved 0xFFFF false [0x4E, 0x4E, 0x00, 0x00, 0xF5, 0xF5, 0xF5, 0xFE, 0x01, 0x00, 0x02, 0x00, 0xF7, 0x4E, 0xF6, 0xF7]).1 =
      [0x4E, 0x4E, 0x00, 0x00, 0xA1, 0xA1, 0xA1, 0xFE, 0x01, 0x00, 0x02, 0x00, 0xC9, 0xCA, 0x4E, 0xC2, 0xCA, 0xC2] ∧
    (resolved 0xFFFF false [0xF5, 0x4E, 0xF5, 0xF7]).1 = [0xA1, 0x4E, 0xA1, 0x44, 0x3B] ∧
    (resolved 0xFFFF false [0x31, 0x32, 0x33, 0x34, 0x35, 0x36, 0x37, 0x38, 0x39, 0xF7, 0xF7]).1 =
      [0x31, 0x32, 0x33, 0x34, 0x35, 0x36, 0x37, 0x38, 0x39, 0x29, 0xB1, 0xFF, 0xFF] ∧
    ((resolved 0xFFFF false [0x01, 0x02, 0x03, 0x04, 0x05, 0xF7, 0x09]).1.take 6) = [0x01, 0x02, 0x03, 0x04, 0x05, 0x93] := by
  decide +kernel

theorem oneField_stream : readsAs oneField.stage 0 ([0xF5, 0xF5, 0xF5, 0xFE] ++ [0x01, 0x02] ++ [0xF7]) := by
  intro k b h
  match k with
  | 0 | 1 | 2 | 3 | 4 | 5 | 6 => simpa [oneField, cellsFrom, Memory.read] using h
  | _ + 7 => simp at h

theorem witness_ResolvedFieldsCarryTheirChecksum :
    (¬∃ t, idle.cache.id = some t ∧ idle.drives[t.drive].format = .dmk ∧ idle.drives[t.drive].singleDensity = false) ∧
    oneField.cache.id = some ⟨0, false, 5⟩ ∧ oneField.drives[(0 : Fin 4)].format = .dmk ∧
    oneField.drives[(0 : Fin 4)].singleDensity = false ∧ 7 ≤ oneField.cache.len ∧ 7 ≤ oneField.cfg.trkCap ∧
    256 + (resolved 0xFFFF false [0xF5, 0xF5, 0xF5, 0xFE, 0x01, 0x02, 0xF7]).1.length ≤ oneField.cache.len ∧
    (∀ b ∈ [(0xFE : Byte), 0x01, 0x02], b ≠ 0xF5 ∧ b ≠ 0xF6 ∧ b ≠ 0xF7) ∧ 7 = [(0x01 : Byte), 0x02].length + 5 ∧
    readsAs oneField.stage 0 ([0xF5, 0xF5, 0xF5, 0xFE] ++ [0x01, 0x02] ++ [0xF7]) ∧
    256 + [(0x01 : Byte), 0x02].length + 6 ≤ oneField.cache.len :=
  ⟨(fun ⟨_, h, _⟩ => nomatch h), rfl, rfl, rfl, by decide, by decide, by decide +kernel, by decide, rfl, oneField_stream,
    by decide⟩

theorem witness_RebuiltTableNamesTheIdMarks : 256 ≤ (cut 256).cache.len ∧ (cut 255).cache.len < 256 := by decide

theorem witness_FlushWritesTheWholeRecord :
    idle.cache.id = none ∧
    (let s := { onT1 with drives := broken.drives }; s.cache.id = some ⟨0, false, 5⟩ ∧ s.drives[(0 : Fin 4)].format = .hfe) ∧
    (let s := { onT1 with drives := State.reset.drives }; s.drives[(0 : Fin 4)].format = .none) ∧
    (onT1.drives[(0 : Fin 4)].format = .dmk ∧ (onT1.env.files.getD 0 Image.missing).down = true) ∧
    (let s := { onT1 with env := justLacks.env };
      s.drives[(0 : Fin 4)].format = .dmk ∧ (s.env.files.getD 0 Image.missing).down = false) := by decide

theorem witness_FlushedTrackLoadsBack :
    let s := { onT1 with env := justHas.env }
    s.cache.id = some ⟨0, false, 5⟩ ∧ s.recordExists 0 5 false ∧ s.cache.len = s.drives[(0 : Fin 4)].trackLength ∧
    (s.env.files.getD 0 Image.missing).down = false ∧ s.recordExists 0 39 false ∧ (39 : Byte) ≠ 5 :=
  ⟨rfl, by simp only [State.recordExists]; decide, rfl, rfl, by simp only [State.recordExists]; decide, by decide⟩

theorem witness_LookupsReadOnlyTheCache :
    let s := { onT1 with drives := State.reset.drives, track := 9 }
    onT1.cache = s.cache ∧ (∃ t, exec .scanFirstidam onT1 = .next t) ∧ (∃ t, exec .scanFirstidam s = .next t) ∧
    exec (.scanDatacrcCheck 2) onT1 = .refused .noSectorView :=
  ⟨rfl, ⟨_, rfl⟩, ⟨_, rfl⟩, rfl⟩

theorem witness_ResetReinitialisesTheState :
    (let s := { reading with env := { reading.env with resetLine := true, resetHeldUs := 1000000 } };
      s.env.resetLine = true ∧ s.cfg.resetHoldUs ≤ s.env.resetHeldUs) ∧
    reading.env.resetLine = false ∧
    (let s := { reading with env := { reading.env with resetLine := true, resetHeldUs := 999999 } };
      s.env.resetHeldUs < s.cfg.resetHoldUs) ∧ State.reset.cfg.resetHoldUs ≤ 1000000 := by decide

theorem witness_StepKeepsMemoriesCanonical :
    ∃ t, (facing (.move (.fluxBlock [0, 1])) State.reset).memoriesCanonical = true ∧
      step (facing (.move (.fluxBlock [0, 1])) State.reset) = .next t ∧ t.flux = [(1, 1)] :=
  ⟨_, rfl, rfl, rfl⟩

theorem witness_StepKeepsTheLatchShowingTheRequest :
    ∃ t, (facing (.move .svcDone) idle).latchShowsRequest = true ∧ step (facing (.move .svcDone) idle) = .next t ∧
      t.flags.intrq = true := ⟨_, rfl, rfl, rfl⟩

theorem witness_StepKeepsTransferAndTrackInBounds :
    let s := facing (.move (.svcCur 128)) { State.reset with xfer := ⟨.trk, 512, 128, 0, some 1⟩ }
    ∃ t, s.cfg.wf = true ∧ s.cursorInRange = true ∧ s.trackFits = true ∧ step s = .next t ∧ t.xfer.cur = 128 :=
  ⟨_, rfl, rfl, rfl, rfl, rfl⟩

end Sys2Proof.Tests
end

section
/-! Every step of every agent keeps what `Keeps` says: one lemma per way an operation answers, one per layer of the instructions,
one per move. -/

namespace Sys2Proof.Machine

/-! ## How an operation answers -/

theorem Keeps.of_tell {r : Result} {s t : State} (h : tell r s = .next t) : Keeps s t := by
  cases h
  exact .emit s _

theorem Keeps.of_tellWith {α : Type} {f : α → Result} {x : Except Refusal (α × State)} {s t : State}
    (hx : ∀ a u, x = .ok (a, u) → Keeps s u) (h : tellWith f x = .next t) : Keeps s t := by
  obtain ⟨a, u, e, rfl⟩ := next_of_tellWith h
  exact (hx a u e).trans (.emit u _)

theorem Keeps.of_answer {x : Except Refusal State} {s t : State} (hx : ∀ {u}, x = .ok u → Keeps s u)
    (h : answer x = .next t) : Keeps s t := hx (next_of_answer h)

/-! ## The layers -/

/-- WAIT holds a transaction, or it has its effect (rule R181). -/
theorem transact_cases {b : BusTxn} {s t : State} (h : transact b s = .next t) :
    t = { s with waitOut := true, stretched := some b } ∨ t = busEffect b s := by
  unfold transact at h
  split at h
  · cases h
  · split at h <;> cases h
    · exact .inl rfl
    · exact .inr rfl

theorem Keeps.transact {b : BusTxn} {s t : State} (h : transact b s = .next t) : Keeps s t := by
  rcases transact_cases h with rfl | rfl
  · exact .of_same rfl rfl rfl rfl rfl rfl rfl rfl rfl rfl
  · exact .busEffect b s

theorem Keeps.handTag {g : HostTag} {s t : State} (h : handTag g s = .next t) : Keeps s t := by
  cases h
  exact .emit s _

/-- The latched byte runs the command it decodes to (rules R83, R187). -/
theorem runCommand_eq_exec (v : Byte) (s : State) : runCommand v s = exec (decodeCommand v) s := by
  have hn : (v.extractLsb' 4 4).toNat < 16 := BitVec.isLt _
  unfold runCommand decodeCommand
  simp only
  generalize (v.extractLsb' 4 4).toNat = n at hn ⊢
  interval_cases n <;> rfl

/-- The instructions of the command layer (rule R83). -/
inductive IsCommand : Instr → Prop
  | restore (z) : IsCommand (.restore z)
  | seek (z r) : IsCommand (.seek z r)
  | step (u z r) : IsCommand (.step u z r)
  | stepin (u z r) : IsCommand (.stepin u z r)
  | stepout (u z r) : IsCommand (.stepout u z r)
  | rdsec (z) : IsCommand (.rdsec z)
  | wrsec (z) : IsCommand (.wrsec z)
  | rdaddr (z) : IsCommand (.rdaddr z)
  | forceint (n) : IsCommand (.forceint n)
  | rdtrk (z) : IsCommand (.rdtrk z)
  | wrtrk (z) : IsCommand (.wrtrk z)

theorem decodeCommand_isCommand (v : Byte) : IsCommand (decodeCommand v) := by
  unfold decodeCommand
  simp only
  split <;> constructor

theorem Keeps.command {i : Instr} (hi : IsCommand i) {s t : State} (h : exec i s = .next t) : Keeps s t := by
  cases hi with
  | restore => exact .of_answer .restoreBody h
  | seek => exact .of_answer .seekBody h
  | step => exact .of_answer .stepBody h
  | stepin => exact .of_answer .stepinBody h
  | stepout => exact .of_answer .stepoutBody h
  | rdsec => exact .of_answer .rdsecBody h
  | wrsec => exact .of_answer .wrsecBody h
  | rdaddr => exact .of_answer .rdaddrBody h
  | wrtrk => exact .of_answer .wrtrkBody h
  | forceint n => cases h; exact .forceInterrupt n s
  | rdtrk => cases h; exact .rdtrkBody s

/-- `CMD.DISPATCH` hands a tag over, runs a command, or does nothing (rule R188). -/
theorem execCmdDispatch_cases {s t : State} (h : execCmdDispatch s = .next t) :
    t = s ∨ t = State.emit { s with cmdRecv := false } (.hostOp (hostTag s.command)) ∨
      exec (decodeCommand s.command) { s with cmdRecv := false } = .next t := by
  unfold execCmdDispatch at h
  split at h
  · simp only at h
    split at h
    · cases h
      exact .inr (.inl rfl)
    · rw [runCommand_eq_exec] at h
      exact .inr (.inr h)
  · cases h
    exact .inl rfl

theorem Keeps.dispatch {s t : State} (h : execCmdDispatch s = .next t) : Keeps s t := by
  have received : Keeps s { s with cmdRecv := false } := .of_same rfl rfl rfl rfl rfl rfl rfl rfl rfl rfl
  rcases execCmdDispatch_cases h with rfl | rfl | h
  · exact .refl t
  · exact received.trans (.emit _ _)
  · exact received.trans (.command (decodeCommand_isCommand _) h)

/-! ## What the operations that answer leave -/

theorem execCrcRange_answers {sp : Space} {start len : Nat} {s t : State} (h : execCrcRange sp start len s = .next t) :
    ∃ u v, crcRangeOp sp start len s = .ok u ∧ t = u.emit (.result (.word v)) := by
  unfold execCrcRange at h
  split at h <;> cases h
  exact ⟨_, _, ‹_›, rfl⟩

theorem execScanDmkOffset_answers {d : Fin 4} {track : Byte} {side : Bool} {s t : State}
    (h : execScanDmkOffset d track side s = .next t) :
    ∃ n draws, t = State.emit { s with draws := draws } (.result (.nat n)) := by
  unfold execScanDmkOffset at h
  split at h <;> cases h
  · exact ⟨_, s.draws, rfl⟩
  · exact ⟨_, s.draws + 1, rfl⟩

theorem execScanFind_answers {track side sector : Byte} {s t : State} (h : execScanFind track side sector s = .next t) :
    ∃ i, t = s.emit (.result (.slot i)) := by
  unfold execScanFind at h
  split at h <;> cases h
  exact ⟨_, rfl⟩

theorem execScanView_answers {i : Fin 128} {s t : State} (h : execScanView i s = .next t) :
    ∃ v, t = s.emit (.result (.view v)) := by
  unfold execScanView at h
  split at h <;> cases h
  exact ⟨_, rfl⟩

theorem Keeps.execReset {s t : State} (h : execReset s = .next t) : Keeps s t := by
  unfold Machine.execReset at h
  split at h <;> cases h
  · exact .resetState s
  · exact .refl s

/-- An operation that is refused outside its bounds. -/
theorem next_of_guarded {c : Prop} [Decidable c] {x : Host.Outcome State Fault Refusal} {e : Refusal} {t : State}
    (h : (if c then x else .refused e) = .next t) : c ∧ x = .next t := by
  split at h
  · exact ⟨‹c›, h⟩
  · cases h

/-- Every instruction keeps it. -/
theorem Keeps.exec {i : Instr} {s t : State} (h : exec i s = .next t) : Keeps s t := by
  cases i with
  | rdStatus | rdTrack | rdSector | rdData | rdNmi | wrCmd | wrTrack | wrSector | wrData | wrNmi | wrDrvsel =>
    exact .transact h
  | restore | seek | step | stepin | stepout | rdsec | wrsec | rdaddr | forceint | rdtrk | wrtrk =>
    exact .command (by constructor) h
  | hxVersion | hxFindfirst | hxFindnext | hxMount | hxOpen | hxRead | hxWrite | hxClose | hxSettime | hxGettime | hxFindini
  | hxFinddmk | hxFindhfe | hxUnknown => exact .handTag h
  | crcRead | crcCheck | decMfmbyte | decSyncscan | decMark | decFmscan | scanDamlookup | scanFirstidam | cmdClassify =>
    exact .of_tell h
  | crcInit => cases h; exact .crc s _
  | crcByte => cases h; exact .crc s _
  | crcRange =>
    obtain ⟨u, _, hu, rfl⟩ := execCrcRange_answers h
    exact (Keeps.crcRangeOp hu).trans (.emit u _)
  | decBit | decWord | decFmword =>
    obtain ⟨-, h⟩ := next_of_guarded h
    exact .of_tell h
  | decIdfield side q b1 b2 => exact (Keeps.idField side q b1 b2 s).trans (.of_tell h)
  | decDatafield => exact .of_tellWith (fun _ _ e => .dataField e) h
  | decTrack => exact .of_answer .decodeTrack h
  | decFmtrack => exact .of_answer .decodeFmTrack h
  | scanDmkOffset =>
    obtain ⟨_, _, rfl⟩ := execScanDmkOffset_answers h
    exact .of_same rfl rfl rfl rfl rfl rfl rfl rfl rfl rfl
  | scanLoad => exact .of_tellWith (fun _ _ e => .loadTrack e) h
  | scanEnsure => exact .of_tellWith (fun _ _ e => .ensureTrack e) h
  | scanDmkTables => exact .of_answer .dmkTables h
  | scanFind =>
    obtain ⟨_, rfl⟩ := execScanFind_answers h
    exact .emit s _
  | scanView =>
    obtain ⟨_, rfl⟩ := execScanView_answers h
    exact .emit s _
  | scanIdcrcCheck => exact .of_tellWith (fun _ _ e => .idCrcCheck e) h
  | scanDatacrcCheck => exact .of_tellWith (fun _ _ e => .dataCrcCheck e) h
  | scanDatacrcGen => exact .of_answer .dataCrcGen h
  | scanWtResolve => exact .of_answer .wtResolve h
  | scanWtRebuild => exact .of_answer .wtRebuild h
  | scanFlush => exact .of_answer .flushTrack h
  | cmdDispatch => exact .dispatch h
  | reset => exact .execReset h

/-! ## The moves of the agents (rule R38) -/

theorem enabledIf_eq_ok {c : Bool} {s t : State} : enabledIf c s = .ok t ↔ c = true ∧ t = s := by
  cases c <;> simp [enabledIf, eq_comm]

theorem forgetDrive_eq (d : Fin 4) (c : Cache) : forgetDrive d c = { c with id := (forgetDrive d c).id } := by
  unfold forgetDrive
  split
  · rfl
  · split <;> rfl

theorem Keeps.storeByte (s : State) (sp : Space) (a : Nat) (b : Byte) : Keeps s (storeByte s sp a b) := by
  cases sp with
  | trk => exact .memories (stage := s.stage) (hx := s.hxMem) (crc := s.crc) (fun k => Memory.wf_write k _ _) id id
  | stage =>
    exact .memories (trk := s.cache.trk) (hx := s.hxMem) (crc := s.crc) (idam := s.cache.idam) (dam := s.cache.dam)
      (id := s.cache.id) id (fun k => Memory.wf_write k _ _) id
  | hx =>
    exact .memories (trk := s.cache.trk) (stage := s.stage) (crc := s.crc) (idam := s.cache.idam) (dam := s.cache.dam)
      (id := s.cache.id) id id (fun k => Memory.wf_write k _ _)

theorem Keeps.storeTransfer {k : Nat} {b : Byte} {s t : State} (h : storeTransfer k b s = .ok t) : Keeps s t := by
  unfold Machine.storeTransfer at h
  split at h
  · cases h
  · split at h <;> cases h
    exact .storeByte s _ _ b

/-- A block of bytes arrives in HOSTX's memory and becomes the transfer (rule R38). -/
theorem Keeps.staged (s : State) (bytes : List Byte) :
    Keeps s { s with hxMem := Memory.writeBlock [] 0 bytes, xfer := ⟨.hx, 0, bytes.length, 0, none⟩ } where
  cfg := rfl
  latch := .inl ⟨rfl, rfl⟩
  canon := fun k => by
    obtain ⟨htrk, hstage, -, hrest⟩ := (canonical_iff s).mp k
    exact (canonical_iff _).mpr ⟨htrk, hstage, Memory.wf_writeBlock rfl _ _, hrest⟩
  cursor := fun _ => decide_eq_true (Nat.zero_le _)
  fits := fun _ k => k

theorem Keeps.fluxBlock (s : State) (bytes : List Byte) :
    Keeps s { s with flux := Memory.writeBlock [] 0 bytes, fluxLen := bytes.length } where
  cfg := rfl
  latch := .inl ⟨rfl, rfl⟩
  canon := fun k => by
    obtain ⟨htrk, hstage, hhx, -, hfiles⟩ := (canonical_iff s).mp k
    exact (canonical_iff _).mpr ⟨htrk, hstage, hhx, Memory.wf_writeBlock rfl _ _, hfiles⟩
  cursor := fun k => k
  fits := fun _ k => k

/-- The mount layer replaces the drive slots and at most takes the cache's identity (rule R68, U13). -/
theorem Keeps.mounted (s : State) (d : Fin 4) (drives : Vector DriveSlot 4) :
    Keeps s { s with drives := drives, cache := forgetDrive d s.cache } := by
  rw [forgetDrive_eq]
  exact ⟨rfl, .inl ⟨rfl, rfl⟩, fun k => k, fun k => k, fun _ k => k⟩

theorem Keeps.cursorMoved (s : State) {k : Nat} (h : k ≤ s.xfer.len) : Keeps s { s with xfer := { s.xfer with cur := k } } :=
  ⟨rfl, .inl ⟨rfl, rfl⟩, id, fun _ => decide_eq_true h, fun _ => id⟩

theorem fileOrNew_canon {s : State} (hs : ∀ g ∈ s.env.files, g.bytes.wf = true) (h : Nat) : (fileOrNew s h).bytes.wf = true :=
  getD_canon rfl hs

/-- Every move keeps it. -/
theorem Keeps.runMove {m : Move} {s t : State} (h : runMove m s = .ok t) : Keeps s t := by
  cases m with
  | svcPut | svcReq | svcTake =>
    obtain ⟨-, rfl⟩ := enabledIf_eq_ok.mp h
    exact .of_same rfl rfl rfl rfl rfl rfl rfl rfl rfl rfl
  | svcLost =>
    obtain ⟨-, rfl⟩ := enabledIf_eq_ok.mp h
    exact .raise s _
  | svcCur =>
    obtain ⟨hk, rfl⟩ := enabledIf_eq_ok.mp h
    exact .cursorMoved s (of_decide_eq_true hk)
  | svcTimer | svcSub | svcRelease | svcTag | hostxByte | hostxRestore | driveDown | clockTick | clockIndex | resetLine
  | bootSlot =>
    cases h
    exact .of_same rfl rfl rfl rfl rfl rfl rfl rfl rfl rfl
  | svcDone =>
    cases h
    have idled : Keeps s { s with svcTag := .none, svcReq := false } := .of_same rfl rfl rfl rfl rfl rfl rfl rfl rfl rfl
    exact idled.trans (.complete _)
  | svcStore => exact .storeTransfer h
  | hostxStage => cases h; exact .staged s _
  | mount => cases h; exact .mounted s _ _
  | fluxBlock => cases h; exact .fluxBlock s _
  | storageDown =>
    cases h
    exact .files (ev := s.events) fun _ hf => setFile_canon (fileOrNew_canon hf _) hf
  | storageWrite =>
    cases h
    exact .files (ev := s.events) fun _ hf =>
      setFile_canon (Memory.wf_copy (fileOrNew_canon hf _) (Memory.wf_writeBlock rfl _ _) _ _ _) hf
  | hostCycleEnd =>
    unfold Machine.runMove at h
    simp only at h
    split at h
    · cases h
    · split at h <;> cases h
      have ended : Keeps s { s with stretched := none } := .of_same rfl rfl rfl rfl rfl rfl rfl rfl rfl rfl
      exact ended.trans (.busEffect _ _)
  | loopResume =>
    unfold Machine.runMove at h
    simp only at h
    split at h
    · cases h
    · split at h
      · have taken : Keeps s { s with stepWait := none } := .of_same rfl rfl rfl rfl rfl rfl rfl rfl rfl rfl
        exact taken.trans (.finishStep h)
      · cases h

/-! ## The step -/

/-- Every step of every agent keeps it. -/
theorem Keeps.step {s t : State} (h : step s = .next t) : Keeps s t := by
  have taken : ∀ rest, Keeps s { s with inputs := rest } := fun _ => .of_same rfl rfl rfl rfl rfl rfl rfl rfl rfl rfl
  unfold Machine.step at h
  split at h
  · cases h
    exact .refl s
  · split at h
    · exact (taken _).trans (.exec h)
    · cases h
  · exact (taken _).trans (.of_answer .runMove h)

/-- Rule R6: a buffer that meets the requirement holds the pointer table. -/
theorem trkCap_ge_of_wf {c : Config} (h : c.wf = true) : 256 ≤ c.trkCap := by
  simp only [Config.wf, Bool.and_eq_true, decide_eq_true_eq] at h
  exact h.1.1

theorem Keeps.latchShows {s t : State} (h : Keeps s t) (hs : s.latchShowsRequest = true) : t.latchShowsRequest = true := by
  simp only [State.latchShowsRequest, beq_iff_eq, h.cfg] at hs ⊢
  rcases h.latch with ⟨hi, hn⟩ | ⟨hi, hn⟩ | ⟨hi, hn⟩
  · rw [hi, hn, hs]
  · rw [hi, hn, if_pos rfl]
  · rw [hi, hn]
    rfl

/-- Settles O60: every step of every agent has an answer that keeps the bounds. -/
theorem stepKeepsTransferAndTrackInBounds : Obligations.StepKeepsTransferAndTrackInBounds := by
  intro s t hwf hcur hfit h
  have k := Keeps.step h
  exact ⟨k.cfg, k.cursor hcur, k.fits (trkCap_ge_of_wf hwf) hfit⟩

/-- Settles O59: the same lemma about the step, its part about the latch. -/
theorem stepKeepsTheLatchShowingTheRequest : Obligations.StepKeepsTheLatchShowingTheRequest :=
  fun _ _ hs h => (Keeps.step h).latchShows hs

end Sys2Proof.Machine
end

section
/-! The step by the kind of its input, the drive selection and the status byte, and the moves of SVC. -/

namespace Sys2Proof.Machine

/-! ## The step (log 13) -/

theorem step_of_packet {s : State} {bs : List Byte} {rest : List Input} {i : Instr} (hin : s.inputs = .instr bs :: rest)
    (hd : decode bs = .ok i) : step s = exec i { s with inputs := rest } := by
  unfold step
  simp only [hin, hd]

theorem step_of_bad_packet {s : State} {bs : List Byte} {rest : List Input} {e : DecodeError}
    (hin : s.inputs = .instr bs :: rest) (hd : decode bs = .error e) : step s = .refused (.undecodable e) := by
  unfold step
  simp only [hin, hd]

theorem step_of_no_input {s : State} (hin : s.inputs = []) : step s = .next s := by
  unfold step
  simp only [hin]

theorem step_of_move {s : State} {m : Move} {rest : List Input} (hin : s.inputs = .move m :: rest) :
    step s = answer (runMove m { s with inputs := rest }) := by
  unfold step
  simp only [hin]

theorem decode_of_decodeTableWord {n w : Nat} {i : Instr} (h : decodeTableWord n w = some i) :
    decode (tablePacket n w) = .ok i := by
  unfold decodeTableWord at h
  split at h <;> cases h
  assumption

/-- Settles O3, an equation of the step for each kind of input. -/
theorem stepRunsTheDecodedInstruction : Obligations.StepRunsTheDecodedInstruction := fun _ =>
  ⟨fun _ _ _ => step_of_packet, fun _ _ _ => step_of_bad_packet, step_of_no_input,
    fun _ _ _ hw => step_of_packet rfl (decode_of_decodeTableWord hw)⟩

/-! ## The selection (rule R24) -/

theorem hostSel_iff (s : State) : hostSel s = true ↔ ∀ j : Nat, j < 4 → s.drvSel.getLsbD j = true := by
  have bit : ∀ j, j < 4 → (s.drvSel.extractLsb' 0 4).getLsbD j = s.drvSel.getLsbD j := fun j hj => by
    rw [BitVec.getLsbD_extractLsb', decide_eq_true hj, Bool.true_and, Nat.zero_add]
  have ones : ∀ j, j < 4 → (0xF#4).getLsbD j = true := by decide
  rw [hostSel, beq_iff_eq]
  constructor
  · intro h j hj
    rw [← bit j hj, h, ones j hj]
  · intro h
    apply BitVec.eq_of_getLsbD_eq
    intro j hj
    rw [bit j hj, h j hj, ones j hj]

/-- `d` is the lowest drive whose bit is set. -/
def State.lowestDrive (s : State) (d : Fin 4) : Prop :=
  s.drvSel.getLsbD d.val = true ∧ ∀ j : Nat, j < d.val → s.drvSel.getLsbD j = false

theorem State.lowestDrive_unique {s : State} {d e : Fin 4} (hd : s.lowestDrive d) (he : s.lowestDrive e) : d = e := by
  obtain ⟨hd1, hd2⟩ := hd
  obtain ⟨he1, he2⟩ := he
  rcases Nat.lt_trichotomy d.val e.val with h | h | h
  · cases hd1.symm.trans (he2 _ h)
  · exact Fin.ext h
  · cases he1.symm.trans (hd2 _ h)

/-- The three ways a selection can go: the sentinel, the lowest drive, no drive bit at all. -/
theorem selDrive_cases (s : State) :
    (hostSel s = true ∧ selDrive s = none) ∨
    (hostSel s = false ∧ ∃ d, selDrive s = some d ∧ s.lowestDrive d) ∨
    (hostSel s = false ∧ selDrive s = none ∧ ∀ j : Nat, j < 4 → s.drvSel.getLsbD j = false) := by
  have zero : ∀ {j : Nat}, ¬s.drvSel.getLsbD j = true → s.drvSel.getLsbD j = false := Bool.eq_false_of_not_eq_true
  unfold selDrive
  split
  · exact .inl ⟨‹_›, rfl⟩
  · rename_i hh
    refine .inr ?_
    simp only [Bool.eq_false_of_not_eq_true hh, true_and]
    split
    · exact .inl ⟨0, rfl, ‹_›, fun j hj => absurd hj (Nat.not_lt_zero j)⟩
    · rename_i h0
      split
      · refine .inl ⟨1, rfl, ‹_›, fun j (hj : j < 1) => ?_⟩
        interval_cases j
        exact zero h0
      · rename_i h1
        split
        · refine .inl ⟨2, rfl, ‹_›, fun j (hj : j < 2) => ?_⟩
          interval_cases j
          exacts [zero h0, zero h1]
        · rename_i h2
          split
          · refine .inl ⟨3, rfl, ‹_›, fun j (hj : j < 3) => ?_⟩
            interval_cases j
            exacts [zero h0, zero h1, zero h2]
          · rename_i h3
            refine .inr ⟨rfl, fun j hj => ?_⟩
            interval_cases j
            exacts [zero h0, zero h1, zero h2, zero h3]

theorem selDrive_eq_some_iff {s : State} {d : Fin 4} : selDrive s = some d ↔ hostSel s = false ∧ s.lowestDrive d := by
  rcases selDrive_cases s with ⟨hh, hs⟩ | ⟨hh, e, hs, he⟩ | ⟨hh, hs, hz⟩
  · simp [hh, hs]
  · simp only [hh, hs, Option.some.injEq, true_and]
    exact ⟨fun h => h ▸ he, fun h => State.lowestDrive_unique he h⟩
  · simp only [hh, hs, reduceCtorEq, true_and, false_iff]
    rintro ⟨h, -⟩
    cases h.symm.trans (hz d.val d.isLt)

theorem selDrive_eq_none_iff {s : State} :
    selDrive s = none ↔ hostSel s = true ∨ ∀ j : Nat, j < 4 → s.drvSel.getLsbD j = false := by
  rcases selDrive_cases s with ⟨hh, hs⟩ | ⟨hh, e, hs, he, -⟩ | ⟨hh, hs, hz⟩
  · simp only [hh, hs, true_or]
  · simp only [hh, hs, reduceCtorEq, Bool.false_eq_true, false_or, false_iff]
    intro h
    cases he.symm.trans (h e.val e.isLt)
  · exact ⟨fun _ => .inr hz, fun _ => hs⟩

theorem selDrive_of_hostSel {s : State} (h : hostSel s = true) : selDrive s = none := if_pos h

/-! ## The status byte (rules R16, R18, R19) -/

theorem mounted_eq_some_iff {s : State} {d : Fin 4} :
    mounted s = some d ↔ selDrive s = some d ∧ s.drives[d].format ≠ .none := by
  unfold mounted
  cases hs : selDrive s with
  | none => simp
  | some e =>
    simp only [Option.some.injEq]
    constructor
    · intro h
      split at h <;> cases h
      exact ⟨rfl, ‹_›⟩
    · rintro ⟨rfl, h⟩
      exact if_neg h

theorem notReady_iff (s : State) : notReady s = true ↔ ¬∃ d, selDrive s = some d ∧ s.drives[d].format ≠ .none := by
  simp only [notReady, Option.isNone_iff_eq_none, ← mounted_eq_some_iff, Option.eq_none_iff_forall_ne_some, not_exists, ne_eq]

theorem isProtected_iff (s : State) :
    isProtected s = true ↔ ∃ d, selDrive s = some d ∧ s.drives[d].writeProtect = true := by
  unfold isProtected
  cases selDrive s <;> simp

theorem byteOf_bits (b7 b6 b5 b4 b3 b2 b1 b0 : Bool) : let b := byteOf b7 b6 b5 b4 b3 b2 b1 b0
    b.getLsbD 7 = b7 ∧ b.getLsbD 6 = b6 ∧ b.getLsbD 5 = b5 ∧ b.getLsbD 4 = b4 ∧ b.getLsbD 3 = b3 ∧ b.getLsbD 2 = b2 ∧
      b.getLsbD 1 = b1 ∧ b.getLsbD 0 = b0 := by
  revert b7 b6 b5 b4 b3 b2 b1 b0
  decide

theorem statusByte_of_I {s : State} (h : s.cmdType = .typeI ∨ s.cmdType = .typeIV) : statusByte s = statusByteI s := by
  unfold statusByte
  rcases h with h | h <;> simp only [h]

theorem statusByte_of_II {s : State} (h : s.cmdType = .typeII ∨ s.cmdType = .typeIII) : statusByte s = statusByteII s := by
  unfold statusByte
  rcases h with h | h <;> simp only [h]

theorem statusByteI_bits (s : State) : let b := statusByteI s
    b.getLsbD 7 = notReady s ∧ b.getLsbD 6 = isProtected s ∧ b.getLsbD 5 = s.cfg.hldStatus ∧ b.getLsbD 4 = s.flags.seekErr ∧
      b.getLsbD 3 = s.flags.crcErr ∧ b.getLsbD 2 = trackZero s ∧ b.getLsbD 1 = s.env.indexIn ∧ b.getLsbD 0 = s.flags.busy :=
  byteOf_bits _ _ _ _ _ _ _ _

theorem statusByteII_bits (s : State) : let b := statusByteII s
    b.getLsbD 7 = notReady s ∧ b.getLsbD 6 = isProtected s ∧ b.getLsbD 5 = s.flags.recType ∧ b.getLsbD 4 = s.flags.notFound ∧
      b.getLsbD 3 = s.flags.crcErr ∧ b.getLsbD 2 = s.flags.lostData ∧ b.getLsbD 1 = s.flags.drq ∧ b.getLsbD 0 = s.flags.busy :=
  byteOf_bits _ _ _ _ _ _ _ _

theorem cmdType_shapes (c : CmdType) : (c = .typeI ∨ c = .typeIV) ∨ (c = .typeII ∨ c = .typeIII) := by
  cases c <;> simp

/-- The four bits both shapes have in common. -/
theorem statusByte_common_bits (s : State) : let b := statusByte s
    b.getLsbD 7 = notReady s ∧ b.getLsbD 6 = isProtected s ∧ b.getLsbD 3 = s.flags.crcErr ∧ b.getLsbD 0 = s.flags.busy := by
  rcases cmdType_shapes s.cmdType with h | h
  · obtain ⟨h7, h6, -, -, h3, -, -, h0⟩ := statusByteI_bits s
    rw [statusByte_of_I h]
    exact ⟨h7, h6, h3, h0⟩
  · obtain ⟨h7, h6, -, -, h3, -, -, h0⟩ := statusByteII_bits s
    rw [statusByte_of_II h]
    exact ⟨h7, h6, h3, h0⟩

/-- Settles O5, from the bits of either shape. -/
theorem statusByteHasItsTwoShapes : Obligations.StatusByteHasItsTwoShapes := by
  intro s
  obtain ⟨h7, h6, h3, h0⟩ := statusByte_common_bits s
  refine ⟨by rw [h7]; exact notReady_iff s, by rw [h6]; exact isProtected_iff s, h3, h0, fun hc => ?_, fun hc => ?_⟩
  · obtain ⟨-, -, h5, h4, -, h2, h1, -⟩ := statusByteI_bits s
    rw [statusByte_of_I hc]
    exact ⟨h5, h4, by rw [h2]; exact beq_iff_eq, h1⟩
  · obtain ⟨-, -, h5, h4, -, h2, h1, -⟩ := statusByteII_bits s
    rw [statusByte_of_II hc]
    exact ⟨h5, h4, h2, h1⟩

/-- Settles O6: a lowest drive bit is unique, and without a drive the status byte shows not ready. -/
theorem selectionIsTheLowestDriveBit : Obligations.SelectionIsTheLowestDriveBit := by
  intro s
  refine ⟨hostSel_iff s, fun _ => selDrive_eq_some_iff, selDrive_eq_none_iff, rfl, fun h => ?_⟩
  have hs := selDrive_of_hostSel h
  obtain ⟨h7, -⟩ := statusByte_common_bits s
  refine ⟨hs, h7.trans ((notReady_iff s).mpr ?_)⟩
  rintro ⟨d, hd, -⟩
  cases hs.symm.trans hd

/-! ## The moves of SVC (rule R38) -/

/-- A store reads back at its address in its space, and nowhere else. -/
theorem storeByte_read (s : State) (sp sp' : Space) (a k : Nat) (b : Byte) :
    (spaceMem (storeByte s sp a b) sp').read k = if sp' = sp ∧ k = a then b else (spaceMem s sp').read k := by
  cases sp <;> cases sp' <;> simp [storeByte, spaceMem, Memory.read_write]

/-- A store changes the three byte spaces only. -/
theorem storeByte_frame (s : State) (sp : Space) (a : Nat) (b : Byte) : storeByte s sp a b =
    { s with
      cache := { s.cache with trk := (storeByte s sp a b).cache.trk }
      stage := (storeByte s sp a b).stage
      hxMem := (storeByte s sp a b).hxMem } := by
  cases sp <;> rfl

theorem storeTransfer_ok {k : Nat} {s : State} (b : Byte) (hk : k < s.xfer.len)
    (hroom : s.xfer.base + k < spaceLen s s.xfer.space) :
    storeTransfer k b s = .ok (storeByte s s.xfer.space (s.xfer.base + k) b) := by
  rw [storeTransfer, if_neg (not_not.mpr hk), if_pos hroom]

theorem answer_enabledIf_true {c : Bool} (h : c = true) (s : State) : answer (enabledIf c s) = .next s := by
  rw [h]
  rfl

theorem answer_enabledIf_false {c : Bool} (h : c = false) (s : State) :
    answer (enabledIf c s) = .refused .moveNotEnabled := by
  rw [h]
  rfl

/-- Settles O16: each move's step is its effect under its precondition. -/
theorem serviceMovesFollowTheHandshake : Obligations.ServiceMovesFollowTheHandshake := by
  intro rest s
  refine ⟨fun b hin => ?put, fun hin => ?req, fun hin => ?take, fun hin => ?lost, fun hin => ?done,
    fun k b hin hk hroom => ?store⟩ <;>
    rw [step_of_move hin]
  case put =>
    exact ⟨fun h => answer_enabledIf_true (by simp [h]) _, fun h => answer_enabledIf_false (by simp [h]) _⟩
  case req =>
    exact ⟨fun h => answer_enabledIf_true (by simp [h]) _, fun h => answer_enabledIf_false (by simp [h]) _⟩
  case take =>
    exact ⟨fun ⟨hd, hr⟩ => answer_enabledIf_true (by simp [hd, hr]) _,
      fun h => answer_enabledIf_false (by rcases h with h | h <;> simp [h]) _⟩
  case lost =>
    exact ⟨fun ⟨ht, hd⟩ => answer_enabledIf_true (by simp [ht, hd]) _,
      fun h => answer_enabledIf_false (by rcases h with h | h <;> simp [h]) _⟩
  case done => rfl
  case store =>
    have stored := storeTransfer_ok (s := { s with inputs := rest }) b hk hroom
    exact ⟨_, congrArg answer stored, fun sp a => storeByte_read _ _ sp _ a b, storeByte_frame _ _ _ _⟩

end Sys2Proof.Machine
end

section
/-! Who may write which register (rules R11 to R14, R22 to R26, R33, R36, R41): a table of what each instruction may change,
and that no instruction changes more. -/

namespace Sys2Proof.Machine

/-- The registers and tables that have an owner of their own. -/
structure Regs where
  command : Byte
  cmdType : CmdType
  track : Byte
  sector : Byte
  data : Byte
  drvSel : Byte
  drvSelBackup : Byte
  motorUs : Nat
  nmiMask : Byte
  ien : BitVec 4
  dir : Dir
  drives : Vector DriveSlot 4
  files : List Image

def State.regs (s : State) : Regs where
  command := s.command
  cmdType := s.cmdType
  track := s.track
  sector := s.sector
  data := s.data
  drvSel := s.drvSel
  drvSelBackup := s.drvSelBackup
  motorUs := s.motorUs
  nmiMask := s.nmiMask
  ien := s.ien
  dir := s.dir
  drives := s.drives
  files := s.env.files

/-- The table: `old` with the registers an instruction may write as they are in `new`. -/
def mayWrite (i : Instr) (old new : Regs) : Regs :=
  match i with
  | .wrCmd _ => { old with command := new.command, cmdType := new.cmdType, ien := new.ien }
  | .wrTrack _ | .restore _ | .seek _ _ | .step _ _ _ => { old with track := new.track }
  | .stepin _ _ _ | .stepout _ _ _ => { old with track := new.track, dir := new.dir }
  | .wrSector _ => { old with sector := new.sector }
  | .wrData _ => { old with data := new.data }
  | .wrDrvsel _ _ => { old with drvSel := new.drvSel, drvSelBackup := new.drvSelBackup, motorUs := new.motorUs }
  | .wrNmi _ _ => { old with nmiMask := new.nmiMask }
  | .forceint _ => { old with ien := new.ien }
  | .cmdDispatch => { old with track := new.track, ien := new.ien, dir := new.dir }
  | .scanFlush => { old with files := new.files }
  | .reset => { new with files := old.files }
  | _ => old

/-! ## The operations that write none of them -/

theorem LoadFrame.regs {s u : State} (h : LoadFrame s u) : u.regs = s.regs :=
  (congrArg State.regs h).trans rfl

theorem ensureTrack_regs {d : Fin 4} {side : Bool} {track : Byte} {s u : State} {ok : Bool}
    (h : ensureTrack d side track s = .ok (ok, u)) : u.regs = s.regs := (ensureTrack_frame h).regs

theorem loadTrack_regs {d : Fin 4} {side : Bool} {track : Byte} {s u : State} {ok : Bool}
    (h : loadTrack d side track s = .ok (ok, u)) : u.regs = s.regs := by
  obtain ⟨hload, hbad⟩ := loadTrack_spec d side track s
  cases hl : loadable s d track with
  | false => rw [hbad hl] at h; cases h
  | true =>
    obtain ⟨ok', u', e, hf, -⟩ := hload hl
    rw [e] at h
    cases h
    exact hf.regs

theorem emit_regs (s : State) (e : Event) : (s.emit e).regs = s.regs := rfl

theorem raise_regs (s : State) (c : Cond) : (s.raise c).regs = s.regs := by cases c <;> rfl

theorem raiseUnless_regs (ok : Bool) (c : Cond) (s : State) : (raiseUnless ok c s).regs = s.regs := by
  cases ok
  · exact raise_regs s c
  · rfl

theorem tell_regs {r : Result} {s t : State} (h : tell r s = .next t) : t.regs = s.regs := by
  cases h
  rfl

theorem tellWith_regs {α : Type} {f : α → Result} {x : Except Refusal (α × State)} {s t : State}
    (hx : ∀ {a u}, x = .ok (a, u) → u.regs = s.regs) (h : tellWith f x = .next t) : t.regs = s.regs := by
  obtain ⟨a, u, e, rfl⟩ := next_of_tellWith h
  exact (emit_regs u _).trans (hx e)

theorem handTag_regs {g : HostTag} {s t : State} (h : handTag g s = .next t) : t.regs = s.regs := by
  cases h
  rfl

theorem crcRangeOp_regs {sp : Space} {start len : Nat} {s t : State} (h : crcRangeOp sp start len s = .ok t) :
    t.regs = s.regs := by
  unfold crcRangeOp at h
  split at h <;> cases h
  rfl

theorem checkField_regs {start len stored : Nat} {s t : State} {ok : Bool} (h : checkField start len stored s = .ok (ok, t)) :
    t.regs = s.regs := by
  unfold checkField at h
  obtain ⟨u, hu, h⟩ := bind_ok h
  obtain ⟨hi, -, h⟩ := bind_ok h
  obtain ⟨lo, -, h⟩ := bind_ok h
  cases h
  exact crcRangeOp_regs hu

theorem idCrcCheck_regs {i : Fin 128} {s t : State} {ok : Bool} (h : idCrcCheck i s = .ok (ok, t)) : t.regs = s.regs := by
  unfold idCrcCheck at h
  simp only at h
  split at h
  · cases h
  · exact checkField_regs h

theorem dataCrcCheck_regs {i : Fin 128} {s t : State} {ok : Bool} (h : dataCrcCheck i s = .ok (ok, t)) :
    t.regs = s.regs := by
  unfold dataCrcCheck at h
  obtain ⟨_ | v, -, h⟩ := bind_ok h
  · cases h
  · exact checkField_regs h

theorem dataCrcGen_regs {i : Fin 128} {s t : State} (h : dataCrcGen i s = .ok t) : t.regs = s.regs := by
  unfold dataCrcGen at h
  obtain ⟨_ | v, -, h⟩ := bind_ok h
  · cases h
  · obtain ⟨u, hu, h⟩ := bind_ok h
    cases h
    exact crcRangeOp_regs (t := u) hu

theorem dmkTables_regs {s t : State} (h : dmkTables s = .ok t) : t.regs = s.regs := by
  unfold dmkTables at h
  split at h <;> cases h
  rfl

theorem wtResolve_regs {m : Nat} {s t : State} (h : wtResolve m s = .ok t) : t.regs = s.regs := by
  unfold wtResolve at h
  split at h
  · cases h
  · split at h <;> cases h
    rfl

theorem wtRebuild_regs {d : Fin 4} {s t : State} (h : wtRebuild d s = .ok t) : t.regs = s.regs := by
  unfold wtRebuild at h
  split at h
  · cases h
  · exact (dmkTables_regs h).trans rfl

theorem idField_regs (side : Bool) (q : Nat) (b1 b2 : Byte) (s : State) : (idField side q b1 b2 s).2.regs = s.regs := by
  rcases idField_cases side q b1 b2 s with ⟨n, e, -⟩ | ⟨e, -⟩ <;> rw [e]
  · rfl
  · unfold dropId
    split <;> rfl

/-- Either DEC.DATAFIELD captures a field or it changes nothing, wherever the size code lies (rule R129). -/
theorem dataField_regs {side : Bool} {q : Nat} {b1 b2 b3 : Byte} {s t : State} {r : Option Nat}
    (h : dataField side q b1 b2 b3 s = .ok (r, t)) : t.regs = s.regs := by
  unfold dataField at h
  split at h
  · cases h; rfl
  · split at h
    · cases h; rfl
    · obtain ⟨size, -, h⟩ := bind_ok h
      simp only at h
      split at h <;> cases h <;> rfl

theorem decoding_regs {e : Encoding} {side : Bool} {s t : State}
    (h : (if e = .mfm then decodeTrack side s else decodeFmTrack side s) = .ok t) : t.regs = s.regs := by
  obtain ⟨u, hu, hframe, -⟩ := decode_spec e side s
  cases hu.symm.trans h
  exact (congrArg State.regs hframe).trans rfl

theorem resolveSector_regs {s t : State} {r : Option (Fin 128 × SectorView)} (h : resolveSector s = .ok (r, t)) :
    t.regs = s.regs := by
  unfold resolveSector at h
  split at h
  · cases h; rfl
  · obtain ⟨⟨ok, u⟩, hu, h⟩ := bind_ok h
    have hregs := ensureTrack_regs hu
    simp only at h
    split at h
    · cases h; exact hregs
    · obtain ⟨_ | i, -, h⟩ := bind_ok h
      · cases h; exact hregs
      · obtain ⟨_ | v, -, h⟩ := bind_ok h <;> cases h <;> exact hregs

theorem rdsecBody_regs {s t : State} (h : rdsecBody s = .ok t) : t.regs = s.regs := by
  unfold rdsecBody at h
  obtain ⟨⟨_ | iv, u⟩, hu, h⟩ := bind_ok h
  · cases h
    exact resolveSector_regs (t := u) hu
  · obtain ⟨⟨idOk, u1⟩, h1, h⟩ := bind_ok h
    obtain ⟨⟨dataOk, u2⟩, h2, h⟩ := bind_ok h
    cases h
    calc State.regs _ = (raiseUnless dataOk .crcError u2).regs := rfl
      _ = (raiseUnless idOk .crcError u1).regs := (raiseUnless_regs ..).trans (dataCrcCheck_regs h2)
      _ = u.regs := (raiseUnless_regs ..).trans (idCrcCheck_regs h1)
      _ = s.regs := resolveSector_regs hu

theorem wrsecBody_regs {s t : State} (h : wrsecBody s = .ok t) : t.regs = s.regs := by
  unfold wrsecBody at h
  obtain ⟨⟨_ | iv, u⟩, hu, h⟩ := bind_ok h <;> cases h <;> exact resolveSector_regs (t := u) hu

theorem rdaddrBody_regs {s t : State} (h : rdaddrBody s = .ok t) : t.regs = s.regs := by
  unfold rdaddrBody at h
  split at h
  · cases h; rfl
  · obtain ⟨⟨ok, u⟩, hu, h⟩ := bind_ok h
    have hregs := ensureTrack_regs hu
    simp only at h
    split at h
    · cases h; exact hregs
    · split at h
      · cases h; exact hregs
      · obtain ⟨id, -, h⟩ := bind_ok h
        cases h
        exact hregs

theorem wrtrkBody_regs {s t : State} (h : wrtrkBody s = .ok t) : t.regs = s.regs := by
  unfold wrtrkBody at h
  split at h
  · cases h; rfl
  · split at h
    · cases h
    · obtain ⟨⟨ok, u⟩, hu, h⟩ := bind_ok h
      have hregs := ensureTrack_regs hu
      simp only at h
      split at h <;> cases h <;> exact hregs

/-! ## The operations that write one of them -/

/-- `t` differs from `s` in `TRACK` at most. -/
def OnlyTrack (s t : State) : Prop := t.regs = { s.regs with track := t.track }

theorem finishStep_onlyTrack {w : StepWait} {s t : State} (h : finishStep w s = .ok t) : OnlyTrack s t := by
  cases w with
  | seek d side target =>
    obtain ⟨⟨ok, u⟩, hu, h⟩ := bind_ok h
    cases h
    exact congrArg (fun r => { r with track := target }) (ensureTrack_regs hu)
  | step new =>
    cases h
    rfl

theorem afterDelay_onlyTrack {us : Nat} {w : StepWait} {s t : State} (h : afterDelay us w s = .ok t) : OnlyTrack s t := by
  unfold afterDelay at h
  simp only at h
  split at h
  · exact finishStep_onlyTrack (s := { s with timerUs := us }) h
  · cases h
    rfl

theorem restoreBody_onlyTrack {s t : State} (h : restoreBody s = .ok t) : OnlyTrack s t := by
  unfold restoreBody at h
  cases hm : mounted s with
  | none =>
    simp only [hm] at h
    cases h
    rfl
  | some d =>
    simp only [hm] at h
    obtain ⟨⟨ok, u⟩, hu, h⟩ := bind_ok h
    cases h
    exact congrArg (fun r => { r with track := 0 }) (ensureTrack_regs hu)

theorem seekBody_onlyTrack {rate : BitVec 2} {s t : State} (h : seekBody rate s = .ok t) : OnlyTrack s t := by
  unfold seekBody at h
  split at h
  · cases h; rfl
  · split at h
    · cases h; rfl
    · exact afterDelay_onlyTrack h

theorem flushTrack_regs {s t : State} (h : flushTrack s = .ok t) : t.regs = { s.regs with files := t.env.files } := by
  unfold flushTrack at h
  split at h
  · cases h
  · simp only at h
    split at h
    · cases h; rfl
    · cases h
    · split at h <;> cases h <;> rfl

theorem execReset_regs {s t : State} (h : execReset s = .next t) : t.regs = { t.regs with files := s.env.files } := by
  unfold execReset at h
  split at h <;> cases h <;> rfl

/-! ## The bus -/

theorem rdStatusEffect_regs (s : State) : (rdStatusEffect s).regs = s.regs := by
  unfold rdStatusEffect
  split <;> rfl

theorem takeDataByte_regs (s : State) : (takeDataByte s).2.regs = s.regs := by
  unfold takeDataByte
  split
  · split <;> rfl
  · rfl

theorem rdDataEffect_regs (s : State) : (rdDataEffect s).regs = s.regs := takeDataByte_regs s

theorem wrCmdEffect_regs (v : Byte) (s : State) : (wrCmdEffect v s).regs = mayWrite (.wrCmd v) s.regs (wrCmdEffect v s).regs := by
  unfold wrCmdEffect
  split
  · rfl
  · simp only
    split
    · rfl
    · split <;> rfl

theorem mayWrite_self (i : Instr) (r : Regs) : mayWrite i r r = r := by
  cases i <;> rfl

/-- A transaction writes what its effect writes; when WAIT holds it, nothing. -/
theorem transact_regs {i : Instr} {b : BusTxn} {s t : State}
    (he : (busEffect b s).regs = mayWrite i s.regs (busEffect b s).regs) (h : transact b s = .next t) :
    t.regs = mayWrite i s.regs t.regs := by
  rcases transact_cases h with rfl | rfl
  · exact (mayWrite_self i s.regs).symm
  · exact he

/-! ## The commands -/

theorem command_regs {i : Instr} (hi : IsCommand i) {s t : State} (h : exec i s = .next t) :
    t.regs = mayWrite i s.regs t.regs := by
  cases hi with
  | restore => exact restoreBody_onlyTrack (next_of_answer h)
  | seek => exact seekBody_onlyTrack (next_of_answer h)
  | step => exact afterDelay_onlyTrack (next_of_answer h)
  | stepin =>
    have k := afterDelay_onlyTrack (s := { s with dir := .plus }) (next_of_answer h)
    rw [k]; rfl
  | stepout =>
    have k := afterDelay_onlyTrack (s := { s with dir := .minus }) (next_of_answer h)
    rw [k]; rfl
  | rdsec => exact rdsecBody_regs (next_of_answer h)
  | wrsec => exact wrsecBody_regs (next_of_answer h)
  | rdaddr => exact rdaddrBody_regs (next_of_answer h)
  | wrtrk => exact wrtrkBody_regs (next_of_answer h)
  | forceint => cases h; rfl
  | rdtrk => cases h; rfl

/-- What a command may write, `CMD.DISPATCH` may. -/
theorem mayWrite_dispatch_of_command {i : Instr} (hi : IsCommand i) {old new : Regs} (h : new = mayWrite i old new) :
    new = mayWrite .cmdDispatch old new := by
  cases hi <;> (rw [h]; rfl)

theorem dispatch_regs {s t : State} (h : execCmdDispatch s = .next t) : t.regs = mayWrite .cmdDispatch s.regs t.regs := by
  rcases execCmdDispatch_cases h with rfl | rfl | h
  · rfl
  · rfl
  · have hc := decodeCommand_isCommand s.command
    exact mayWrite_dispatch_of_command hc (command_regs (s := { s with cmdRecv := false }) hc h)

/-! ## All instructions -/

/-- No instruction writes a register that the table does not give it. -/
theorem exec_regs {i : Instr} {s t : State} (h : exec i s = .next t) : t.regs = mayWrite i s.regs t.regs := by
  cases i with
  | rdStatus => exact transact_regs (b := .rdStatus) (rdStatusEffect_regs s) h
  | rdData => exact transact_regs (b := .rdData) (rdDataEffect_regs s) h
  | wrCmd v => exact transact_regs (b := .wrCmd v) (wrCmdEffect_regs v s) h
  | rdTrack | rdSector | rdNmi | wrTrack | wrSector | wrData | wrNmi | wrDrvsel => exact transact_regs rfl h
  | restore | seek | step | stepin | stepout | rdsec | wrsec | rdaddr | forceint | rdtrk | wrtrk =>
    exact command_regs (by constructor) h
  | hxVersion | hxFindfirst | hxFindnext | hxMount | hxOpen | hxRead | hxWrite | hxClose | hxSettime | hxGettime | hxFindini
  | hxFinddmk | hxFindhfe | hxUnknown => exact handTag_regs h
  | crcRead | crcCheck | decMfmbyte | decSyncscan | decMark | decFmscan | scanDamlookup | scanFirstidam | cmdClassify =>
    exact tell_regs h
  | crcInit | crcByte => cases h; rfl
  | crcRange =>
    obtain ⟨u, _, hu, rfl⟩ := execCrcRange_answers h
    exact crcRangeOp_regs (t := u) hu
  | decBit | decWord | decFmword =>
    obtain ⟨-, h⟩ := next_of_guarded h
    exact tell_regs h
  | decIdfield => exact (tell_regs h).trans (idField_regs ..)
  | decDatafield => exact tellWith_regs dataField_regs h
  | decTrack => exact decoding_regs (e := .mfm) (next_of_answer h)
  | decFmtrack => exact decoding_regs (e := .fm) (next_of_answer h)
  | scanDmkOffset =>
    obtain ⟨_, _, rfl⟩ := execScanDmkOffset_answers h
    rfl
  | scanLoad => exact tellWith_regs loadTrack_regs h
  | scanEnsure => exact tellWith_regs ensureTrack_regs h
  | scanDmkTables => exact dmkTables_regs (next_of_answer h)
  | scanFind =>
    obtain ⟨_, rfl⟩ := execScanFind_answers h
    rfl
  | scanView =>
    obtain ⟨_, rfl⟩ := execScanView_answers h
    rfl
  | scanIdcrcCheck => exact tellWith_regs idCrcCheck_regs h
  | scanDatacrcCheck => exact tellWith_regs dataCrcCheck_regs h
  | scanDatacrcGen => exact dataCrcGen_regs (next_of_answer h)
  | scanWtResolve => exact wtResolve_regs (next_of_answer h)
  | scanWtRebuild => exact wtRebuild_regs (next_of_answer h)
  | scanFlush => exact flushTrack_regs (next_of_answer h)
  | cmdDispatch => exact dispatch_regs h
  | reset => exact execReset_regs h

/-- The table read by register: the writers of each. -/
theorem writers_of_mayWrite {i : Instr} {old new : Regs} (h : new = mayWrite i old new) :
    (new.command ≠ old.command ∨ new.cmdType ≠ old.cmdType → (∃ v, i = .wrCmd v) ∨ i = .reset) ∧
    (new.track ≠ old.track → (∃ v, i = .wrTrack v) ∨ (∃ z, i = .restore z) ∨ (∃ z r, i = .seek z r) ∨
      (∃ u z r, i = .step u z r) ∨ (∃ u z r, i = .stepin u z r) ∨ (∃ u z r, i = .stepout u z r) ∨ i = .cmdDispatch ∨
      i = .reset) ∧
    (new.sector ≠ old.sector → (∃ v, i = .wrSector v) ∨ i = .reset) ∧
    (new.data ≠ old.data → (∃ v, i = .wrData v) ∨ i = .reset) ∧
    (new.drvSel ≠ old.drvSel ∨ new.drvSelBackup ≠ old.drvSelBackup ∨ new.motorUs ≠ old.motorUs →
      (∃ a v, i = .wrDrvsel a v) ∨ i = .reset) ∧
    (new.nmiMask ≠ old.nmiMask → (∃ a v, i = .wrNmi a v) ∨ i = .reset) ∧
    (new.ien ≠ old.ien → (∃ v, i = .wrCmd v) ∨ (∃ n, i = .forceint n) ∨ i = .cmdDispatch ∨ i = .reset) ∧
    (new.dir ≠ old.dir → (∃ u z r, i = .stepin u z r) ∨ (∃ u z r, i = .stepout u z r) ∨ i = .cmdDispatch ∨ i = .reset) ∧
    (new.drives ≠ old.drives → i = .reset) ∧
    (new.files ≠ old.files → i = .scanFlush) := by
  cases i <;> rw [h] <;> simp [mayWrite]

/-- Settles O15: what an instruction leaves is within its row of the table. -/
theorem onlyTheirWritersChangeTheRegisters : Obligations.OnlyTheirWritersChangeTheRegisters :=
  fun _ _ _ h => ⟨(Keeps.exec h).cfg, writers_of_mayWrite (exec_regs h)⟩

end Sys2Proof.Machine
end

section
/-! DEC.TRACK as a whole (rules R130, R131) and SCAN.LOAD from a DMK and from an HFE image (rules R136, R141, R252). -/

namespace Sys2Proof.Machine

/-! ## DEC.TRACK -/

/-- With no sync word left the loop is over. -/
theorem mfmLoop_of_no_sync {side : Bool} {s : State} (h : syncScan s side s.dec.p = none) (n : Nat) :
    mfmLoop side n s = .ok s := by
  cases n with
  | zero => rfl
  | succ n => simp only [mfmLoop, h]

/-- A stream without a sync word (rule R125). -/
theorem syncScan_eq_none {s : State} {side : Bool} (p : Nat) (h : ∀ q, q + 16 ≤ nbits s → wordAt s side q ≠ mfmSync) :
    syncScan s side p = none := by
  cases hq : syncScan s side p with
  | none => rfl
  | some q =>
    obtain ⟨-, hin, hsync, -⟩ := syncScan_some hq
    exact absurd hsync (h q hin)

/-- Decoding a side leaves the bytes from the write cursor on as they were. -/
theorem LoopInv.beyond_start {side : Bool} {mode : Encoding} {s t : State} (h : LoopInv (startDecode side mode s) t) {a : Nat}
    (ha : t.dec.wp ≤ a) : t.cache.trk.read a = s.cache.trk.read a := by
  have hlow := h.low
  rw [h.beyond a ha]
  show (s.cache.trk.clear 0 256).read a = _
  rw [Memory.read_clear, if_neg (by omega)]

/-- The cursor of a decoded side is within the buffer. -/
theorem LoopInv.wp_le_trkCap {side : Bool} {mode : Encoding} {s t : State} (h : LoopInv (startDecode side mode s) t)
    (hcap : 256 ≤ s.cfg.trkCap) : t.dec.wp ≤ s.cfg.trkCap :=
  h.high.trans (Nat.max_le.mpr ⟨hcap, Nat.le_refl _⟩)

/-- Settles O38: the loop's invariant at its end, and the loop as a run of turns. -/
theorem decodingATrackCompletes : Obligations.DecodingATrackCompletes := by
  intro side s hcap
  obtain ⟨t, hdec, hloop, hinv, -, -, hend⟩ := decodeTrack_fields side s
  have hword : ∀ q, wordAt t side q = wordAt s side q := wordAt_congr hinv.flux hinv.fluxLen side
  refine ⟨(endDecode 3 t).cache, t.dec, ?run, ⟨s.cache.trk.clear 0 256, t, ?cleared, mfmLoop_turned _ _ _ hloop, ?last, rfl, rfl⟩,
    ?ident, hinv.low, hinv.wp_le_trkCap hcap, hinv.count, hinv.zero, fun a => hinv.beyond_start, ?scanned, ?blank⟩
  case run =>
    show answer (decodeTrack side s) = _
    rw [hdec, answer_ok, decode_frame hinv]
  case cleared =>
    intro a
    rw [Memory.read_clear]
    simp only [Nat.zero_le, true_and, Nat.zero_add]
  case last =>
    show tell (.position (syncScan t side t.dec.p)) t = _
    rw [hend]
    rfl
  case ident => rw [decode_frame hinv]
  case scanned =>
    intro q hp hin
    rw [← hword]
    exact syncScan_none hend q hp (by rw [hinv.nbits]; exact hin)
  case blank =>
    intro hno
    have hnone : syncScan (startDecode side .mfm s) side 0 = none := syncScan_eq_none 0 hno
    cases hloop.symm.trans (mfmLoop_of_no_sync hnone _)
    exact ⟨rfl, rfl, fun i => ⟨emptyIdam_get i, emptyDam_get i⟩⟩

/-! ## The image behind a load (rule R56) -/

theorem imageHas_iff {s : State} {h off len : Nat} :
    imageHas s h off len = true ↔ (fileAt s h).down = false ∧ off + len ≤ (fileAt s h).size := by
  simp only [imageHas, Bool.and_eq_true, Bool.not_eq_true', decide_eq_true_eq]

theorem dmkOffset_eq_recordAt (v : DriveSlot) (track : Byte) (side : Bool) :
    dmkOffset v track.toNat side.toNat = v.recordAt track side := by
  cases side <;> rfl

/-- STORAGE answers for the record of this side of this track (rule R56, log 9). -/
def State.recordStored (s : State) (d : Fin 4) (track : Byte) (side : Bool) : Prop :=
  (fileAt s s.drives[d].handle).down = false ∧
    s.drives[d].recordAt track side + s.drives[d].trackLength ≤ (fileAt s s.drives[d].handle).size

/-- The tests of a DMK load pass exactly for a record that exists. -/
theorem recordExists_iff {s : State} {d : Fin 4} {track : Byte} {side : Bool} (hf : s.drives[d].format = .dmk) :
    s.recordExists d track side ↔ ¬(s.drives[d].tracks ≤ track.toNat ∨ s.drives[d].sides ≤ side.toNat ∨ 2 < s.drives[d].sides ∨
      s.drives[d].trackLength < dmkTable ∨ s.cfg.trkCap < s.drives[d].trackLength) := by
  have hside : side.toNat = if side then 1 else 0 := by cases side <;> rfl
  simp only [State.recordExists, hf, hside, dmkTable, not_or, Nat.not_le, Nat.not_lt, true_and]

/-- The record, copied into the cache; the tables are not made yet. -/
def State.recordCopied (s : State) (d : Fin 4) (track : Byte) (side : Bool) : State :=
  let v := s.drives[d]
  { s with
    cache := { s.cache with
      trk := s.cache.trk.copy 0 (fileAt s v.handle).bytes (v.recordAt track side) v.trackLength
      len := v.trackLength
      pfx := 3 }
    events := .imgRead v.handle (v.recordAt track side) v.trackLength :: s.events }

theorem dmkTables_ok {s : State} (h : 256 ≤ s.cache.len) : dmkTables s = .ok { s with cache := tablesOf s.cache } := if_pos h

theorem loadDmk_fails {s : State} {d : Fin 4} {track : Byte} {side : Bool} (hf : s.drives[d].format = .dmk)
    (h : ¬(s.recordExists d track side ∧ s.recordStored d track side)) : loadDmk d side track s = .ok (false, s) := by
  unfold loadDmk
  simp only
  split
  · rfl
  · rename_i hb
    rw [dmkOffset_eq_recordAt, if_neg]
    exact fun hi => h ⟨(recordExists_iff hf).mpr hb, imageHas_iff.mp hi⟩

theorem loadDmk_succeeds {s : State} {d : Fin 4} {track : Byte} {side : Bool} (he : s.recordExists d track side)
    (hs : s.recordStored d track side) : loadDmk d side track s =
      .ok (true, nameTrack d side track
        { s.recordCopied d track side with cache := tablesOf (s.recordCopied d track side).cache }) := by
  have ⟨hf, _, _, _, hlen, _⟩ := he
  unfold loadDmk
  simp only
  rw [if_neg ((recordExists_iff hf).mp he), dmkOffset_eq_recordAt, if_pos (imageHas_iff.mpr hs)]
  exact except_bind_ok.mpr ⟨_, dmkTables_ok (s := s.recordCopied d track side) hlen, rfl⟩

/-- Settles O44: a DMK load fails or succeeds with the copied record and its tables. -/
theorem loadCopiesTheDmkRecord : Obligations.LoadCopiesTheDmkRecord := by
  intro d side track s hne
  refine ⟨fun hbad => ?bad, fun hgood => ?good⟩
  case bad =>
    show tellWith .loaded (loadTrack d side track s) = _
    unfold loadTrack
    cases hf : s.drives[d].format with
    | none => rfl
    | hfe => exact absurd hf hne
    | dmk =>
      have := loadDmk_fails (s := forgetTrack s) hf hbad
      simp only [this]
      rfl
  case good =>
    obtain ⟨he, hs⟩ := hgood
    have ⟨hf, _⟩ := he
    have hload := loadDmk_succeeds (s := forgetTrack s) he hs
    refine ⟨{ tablesOf ((forgetTrack s).recordCopied d track side).cache with id := some ⟨d, side, track⟩ }, ?_, rfl, rfl, rfl,
      tablesOf_spec _, fun a => ?_⟩
    · show tellWith .loaded (loadTrack d side track s) = _
      simp only [loadTrack, hf, hload]
      rfl
    · show (s.cache.trk.copy 0 (fileAt s s.drives[d].handle).bytes (s.drives[d].recordAt track side) s.drives[d].trackLength).read a
        = _
      rw [Memory.read_copy]
      simp only [Nat.zero_le, true_and, Nat.zero_add, Nat.sub_zero, Nat.add_comm a]
      rfl

/-! ## HFE -/

/-- The unit operation that decodes a side in the drive's mode. -/
theorem exec_decode (e : Encoding) (side : Bool) (s : State) :
    exec (if e = .mfm then .decTrack side else .decFmtrack side) s =
      answer (if e = .mfm then decodeTrack side s else decodeFmTrack side s) := by
  cases e <;> rfl

/-- FLUXBLK holds a track block of an image. -/
def State.blockRead (s : State) (handle off len : Nat) : State :=
  { s with
    flux := Memory.copy [] 0 (fileAt s handle).bytes off len
    fluxLen := len
    events := .imgRead handle off len :: s.events }

theorem loadHfe_track_beyond {s : State} {d : Fin 4} {track : Byte} (side : Bool) (h : s.drives[d].tracks ≤ track.toNat) :
    loadHfe d side track s = .ok (false, s) := if_pos h

section Entry
variable {s : State} {d : Fin 4} {track : Byte} (side : Bool) (hin : track.toNat < s.drives[d].tracks)
include hin

theorem loadHfe_no_entry (hl : s.drives[d].lut[track.toNat]? = none) :
    loadHfe d side track s = .error .malformedLut := by
  unfold loadHfe
  simp only [if_neg (Nat.not_le.mpr hin), hl]

variable {blk len : Nat} (hl : s.drives[d].lut[track.toNat]? = some (blk, len))
include hl

theorem loadHfe_storage_down (hd : (fileAt s s.drives[d].handle).down = true) : loadHfe d side track s = .ok (false, s) := by
  unfold loadHfe
  simp only [if_neg (Nat.not_le.mpr hin), hl, hd, if_true]

theorem loadHfe_entry_outside (hd : (fileAt s s.drives[d].handle).down = false)
    (hout : ¬blk * 512 + len ≤ (fileAt s s.drives[d].handle).size) : loadHfe d side track s = .error .malformedLut := by
  have hno : ¬imageHas s s.drives[d].handle (blk * 512) len = true := fun h => hout (imageHas_iff.mp h).2
  unfold loadHfe
  simp only [if_neg (Nat.not_le.mpr hin), hl, hd, Bool.false_eq_true, if_false, if_neg hno]

theorem loadHfe_decodes (hd : (fileAt s s.drives[d].handle).down = false)
    (hsize : blk * 512 + len ≤ (fileAt s s.drives[d].handle).size) {u : State}
    (hu : (if s.drives[d].encoding = .mfm then decodeTrack side (s.blockRead s.drives[d].handle (blk * 512) len)
      else decodeFmTrack side (s.blockRead s.drives[d].handle (blk * 512) len)) = .ok u) :
    loadHfe d side track s = .ok (true, nameTrack d side track { u with flux := [], fluxLen := 0 }) := by
  have hhas : imageHas s s.drives[d].handle (blk * 512) len = true := imageHas_iff.mpr ⟨hd, hsize⟩
  unfold loadHfe
  simp only [if_neg (Nat.not_le.mpr hin), hl, hd, Bool.false_eq_true, if_false, if_pos hhas]
  by_cases he : s.drives[d].encoding = .mfm
  · simp only [if_pos he] at hu ⊢
    exact except_bind_ok.mpr ⟨u, hu, rfl⟩
  · simp only [if_neg he] at hu ⊢
    exact except_bind_ok.mpr ⟨u, hu, rfl⟩

end Entry

/-- On an HFE drive `SCAN.LOAD` is the HFE case of rule R141. -/
theorem exec_scanLoad_hfe {s : State} {d : Fin 4} (side : Bool) (track : Byte) (hf : s.drives[d].format = .hfe) :
    exec (.scanLoad d side track) s = tellWith .loaded (loadHfe d side track (forgetTrack s)) := by
  show tellWith .loaded (loadTrack d side track s) = _
  simp only [loadTrack, hf]

/-- Settles O45: one lemma for each way an HFE load can go. -/
theorem loadDecodesTheHfeTrack : Obligations.LoadDecodesTheHfeTrack := by
  intro d side track s hf
  simp only [exec_scanLoad_hfe side track hf]
  refine ⟨fun hb => ?_, fun hin hl => ?_, fun blk len hin hl => ⟨fun hd => ?_, fun hd hout => ?_, fun hd hsize => ?_⟩⟩
  · rw [loadHfe_track_beyond (s := forgetTrack s) side hb]
    rfl
  · rw [loadHfe_no_entry (s := forgetTrack s) side hin hl]
    rfl
  · rw [loadHfe_storage_down (s := forgetTrack s) side hin hl hd]
    rfl
  · rw [loadHfe_entry_outside (s := forgetTrack s) side hin hl hd hout]
    rfl
  · obtain ⟨u, hu, -⟩ := decode_spec s.drives[d].encoding side ((forgetTrack s).blockRead s.drives[d].handle (blk * 512) len)
    refine ⟨_, u, fun a => ?_, (exec_decode _ _ _).trans (congrArg answer hu), ?_⟩
    · show (Memory.copy [] 0 _ (blk * 512) len).read a = _
      rw [Memory.read_copy]
      simp only [Nat.zero_le, true_and, Nat.zero_add, Nat.sub_zero, Nat.add_comm a]
      rfl
    · rw [loadHfe_decodes (s := forgetTrack s) side hin hl hd hsize hu]
      rfl

end Sys2Proof.Machine
end

section
/-! The bus layer (rules R66, R71, R181, R183): which transaction an instruction is, what WAIT does with it, and what no transaction
touches. -/

namespace Sys2Proof.Machine

/-- An instruction of the bus layer is one transaction (rules R82, R165). -/
theorem exec_of_busTxnOf {i : Instr} {b : BusTxn} (h : busTxnOf i = some b) (s : State) : exec i s = transact b s := by
  cases i with
  | rdStatus | rdTrack | rdSector | rdData | rdNmi | wrCmd | wrTrack | wrSector | wrData | wrNmi | wrDrvsel =>
    cases h
    rfl
  | _ => cases h

/-! ## WAIT -/

theorem transact_of_open_cycle {b u : BusTxn} {s : State} (h : s.stretched = some u) :
    transact b s = .refused .busCycleOpen := by
  unfold transact
  rw [h]

theorem transact_of_wait {b : BusTxn} {s : State} (hfree : s.stretched = none) (hw : waitNeeded b s = true) :
    transact b s = .next { s with waitOut := true, stretched := some b } := by
  unfold transact
  simp only [hfree, hw, if_true]

theorem transact_of_goesThrough {b : BusTxn} {s : State} (h : goesThrough b s) : transact b s = .next (busEffect b s) := by
  obtain ⟨hfree, hw⟩ := h
  unfold transact
  simp only [hfree, hw, Bool.false_eq_true, if_false]

/-- The stretched cycle ends only after the release of WAIT (rule R181). -/
theorem runMove_hostCycleEnd {b : BusTxn} {s : State} (h : s.stretched = some b) :
    runMove .hostCycleEnd s =
      if s.waitOut then .error .moveNotEnabled else .ok (busEffect b { s with stretched := none }) := by
  unfold runMove
  simp only [h]

/-- Settles O13: the three ways of a transaction, and the moves that release it and end its cycle. -/
theorem waitHoldsTheTransaction : Obligations.WaitHoldsTheTransaction := by
  refine ⟨fun i t s hi hfree hw => ?held, fun i t u s hi hopen => ?refused, fun i t s hi hgo => ?through,
    fun t rest s hin hst => ⟨fun hw => ?ends, fun hw => ?early⟩, fun rest s hin => step_of_move hin⟩
  case held => rw [exec_of_busTxnOf hi, transact_of_wait hfree hw]
  case refused => rw [exec_of_busTxnOf hi, transact_of_open_cycle hopen]
  case through => rw [exec_of_busTxnOf hi, transact_of_goesThrough hgo]
  case ends =>
    rw [step_of_move hin, runMove_hostCycleEnd (s := { s with inputs := rest }) hst, if_neg (by simp [hw]), answer_ok]
  case early =>
    rw [step_of_move hin, runMove_hostCycleEnd (s := { s with inputs := rest }) hst, if_pos hw, answer_error]

/-! ## What no transaction touches -/

/-- What lies beyond the bus layer (rules R71, R183): the track, the images, the units, the transfer and the step. -/
structure BeyondBus where
  cache : Cache
  stage : Memory
  hxMem : Memory
  flux : Memory
  fluxLen : Nat
  files : List Image
  crc : Word16
  dec : DecUnit
  drives : Vector DriveSlot 4
  xfer : Xfer
  dir : Dir
  timerUs : Nat

def State.beyondBus (s : State) : BeyondBus where
  cache := s.cache
  stage := s.stage
  hxMem := s.hxMem
  flux := s.flux
  fluxLen := s.fluxLen
  files := s.env.files
  crc := s.crc
  dec := s.dec
  drives := s.drives
  xfer := s.xfer
  dir := s.dir
  timerUs := s.timerUs

/-- What only a `WR_CMD` may change among the transactions (rule R41): the command and the service state. -/
structure CommandSide where
  svcTag : SvcTag
  svcSub : Nat
  ien : BitVec 4
  cmdRecv : Bool
  command : Byte
  cmdType : CmdType

def State.commandSide (s : State) : CommandSide where
  svcTag := s.svcTag
  svcSub := s.svcSub
  ien := s.ien
  cmdRecv := s.cmdRecv
  command := s.command
  cmdType := s.cmdType

/-- Reading the status clears the pending interrupt at most (rule R168). -/
theorem rdStatusEffect_cases (s : State) :
    rdStatusEffect s = returnByte (statusByte s) s ∨ rdStatusEffect s = returnByte (statusByte s) (clearPending s) := by
  unfold rdStatusEffect
  split
  · exact .inr rfl
  · exact .inl rfl

/-- Reading the data takes the byte from HOSTX, from the free values or from `DATA` (rule R171). -/
theorem takeDataByte_state (s : State) :
    ∃ bytes draws, (takeDataByte s).2 = { s with env := { s.env with hostxBytes := bytes }, draws := draws } := by
  unfold takeDataByte
  split
  · split
    · exact ⟨_, s.draws, rfl⟩
    · exact ⟨s.env.hostxBytes, _, rfl⟩
  · exact ⟨s.env.hostxBytes, s.draws, rfl⟩

theorem rdDataEffect_eq (s : State) : rdDataEffect s =
    returnByte (takeDataByte s).1 { (takeDataByte s).2 with flags := { (takeDataByte s).2.flags with drq := false } } := rfl

theorem wrCmdEffect_beyondBus (v : Byte) (s : State) : (wrCmdEffect v s).beyondBus = s.beyondBus := by
  unfold wrCmdEffect
  split
  · rfl
  · simp only
    split
    · rfl
    · split <;> rfl

theorem busEffect_beyondBus (b : BusTxn) (s : State) : (busEffect b s).beyondBus = s.beyondBus := by
  cases b with
  | rdStatus => rcases rdStatusEffect_cases s with h | h <;> exact (congrArg State.beyondBus h).trans rfl
  | rdData =>
    obtain ⟨bytes, draws, h⟩ := takeDataByte_state s
    show (rdDataEffect s).beyondBus = _
    rw [rdDataEffect_eq, h]
    rfl
  | wrCmd v => exact wrCmdEffect_beyondBus v s
  | rdTrack | rdSector | rdNmi | wrTrack | wrSector | wrData | wrNmi | wrDrvsel => rfl

theorem busEffect_commandSide {b : BusTxn} (hb : ∀ v, b ≠ .wrCmd v) (s : State) :
    (busEffect b s).commandSide = s.commandSide := by
  cases b with
  | rdStatus => rcases rdStatusEffect_cases s with h | h <;> exact (congrArg State.commandSide h).trans rfl
  | rdData =>
    obtain ⟨bytes, draws, h⟩ := takeDataByte_state s
    show (rdDataEffect s).commandSide = _
    rw [rdDataEffect_eq, h]
    rfl
  | wrCmd v => exact absurd rfl (hb v)
  | rdTrack | rdSector | rdNmi | wrTrack | wrSector | wrData | wrNmi | wrDrvsel => rfl

theorem transact_beyondBus {b : BusTxn} {s t : State} (h : transact b s = .next t) : t.beyondBus = s.beyondBus := by
  rcases transact_cases h with rfl | rfl
  · rfl
  · exact busEffect_beyondBus b s

theorem transact_commandSide {b : BusTxn} (hb : ∀ v, b ≠ .wrCmd v) {s t : State} (h : transact b s = .next t) :
    t.commandSide = s.commandSide := by
  rcases transact_cases h with rfl | rfl
  · rfl
  · exact busEffect_commandSide hb s

/-- Settles O14: the two groups of fields, held or through. -/
theorem busNeverTouchesTheTrack : Obligations.BusNeverTouchesTheTrack := by
  intro i b s t hi h
  rw [exec_of_busTxnOf hi] at h
  obtain ⟨cache, stage, hxMem, flux, fluxLen, files, crc, dec, drives, xfer, dir, timerUs⟩ :=
    (BeyondBus.mk.injEq ..).mp (transact_beyondBus h)
  exact ⟨cache, stage, hxMem, flux, fluxLen, files, crc, dec, drives, xfer, dir, timerUs,
    fun hb => (CommandSide.mk.injEq ..).mp (transact_commandSide hb h)⟩

end Sys2Proof.Machine
end

section
/-! The checksum over a range (rule R113), a flux bit (rules R53, R54, R121) and the offset of a DMK record (rule R140). -/

namespace Sys2Proof.Machine

/-! ## CRC.RANGE -/

theorem Memory.readBlock_succ (m : Memory) (a n : Nat) : m.readBlock a (n + 1) = m.readBlock a n ++ [m.read (a + n)] := by
  simp only [Memory.readBlock, List.range_succ, List.map_append, List.map_cons, List.map_nil]

/-- One byte more is one `CRC.BYTE` more (rule R112). -/
theorem crcOf_concat (bs : List Byte) (b : Byte) : crcOf (bs ++ [b]) = crcUpdate .ccitt (crcOf bs) b :=
  crcFeed_append _ _ _ _

theorem exec_crcRange_inside {sp : Space} {start len : Nat} {s : State} (h : start + len ≤ spaceLen s sp) :
    exec (.crcRange sp start len) s = .next (State.answered { s with crc := crcOf ((spaceMem s sp).readBlock start len) }
      (.word (crcOf ((spaceMem s sp).readBlock start len)))) := by
  show execCrcRange sp start len s = _
  unfold execCrcRange crcRangeOp
  simp only [if_pos h, crcValue_ccitt]
  rfl

theorem exec_crcRange_outside {sp : Space} {start len : Nat} {s : State} (h : ¬start + len ≤ spaceLen s sp) :
    exec (.crcRange sp start len) s = .refused .outOfBounds := by
  show execCrcRange sp start len s = _
  unfold execCrcRange crcRangeOp
  simp only [if_neg h]

/-- Settles O29: the checksum of the range, by its last byte. -/
theorem crcRangeRunsOverTheBytes : Obligations.CrcRangeRunsOverTheBytes := by
  intro sp start len s
  refine ⟨fun h => ⟨_, exec_crcRange_inside h, ?empty, ?last⟩, exec_crcRange_outside⟩
  case empty =>
    rintro rfl
    rfl
  case last =>
    rintro n rfl
    refine ⟨_, exec_crcRange_inside (by omega), ?_⟩
    rw [Memory.readBlock_succ, crcOf_concat]
    rfl

/-! ## DEC.BIT -/

/-- The side interleave in blocks of 256 bytes (rule R53). -/
theorem hfeMap_eq (p : Nat) (side : Bool) :
    hfeMap p side = (p / 256 * 256) * 2 + p % 256 + (if side = true then 256 else 0) := by
  unfold hfeMap
  omega

theorem fluxByte_inside {s : State} {side : Bool} {p : Nat} (h : hfeMap p side < s.fluxLen) :
    fluxByte s side p = s.flux.read (hfeMap p side) := if_pos h

theorem exec_decBit_inside {side : Bool} {k : Nat} {s : State} (h : k < nbits s) :
    exec (.decBit side k) s = .next (s.answered (.bool (fluxBit s side k))) := if_pos h

/-- Settles O32: the bit of the flux byte, where the place lies in the block. -/
theorem fluxBitFollowsTheInterleave : Obligations.FluxBitFollowsTheInterleave := by
  intro side k s
  simp only [← hfeMap_eq]
  refine ⟨fun hk hplace => ?_, fun hk _ => ⟨_, exec_decBit_inside hk⟩, fun hk => if_neg (Nat.not_lt.mpr hk)⟩
  rw [exec_decBit_inside hk, fluxBit, fluxByte_inside hplace]

/-! ## SCAN.DMK_OFFSET -/

/-- Settles O43: the record's place on a DMK drive, a free value elsewhere. -/
theorem dmkOffsetIsExact : Obligations.DmkOffsetIsExact := by
  intro d track side s
  refine ⟨fun hf => ?dmk, fun hf => ⟨_, if_neg hf⟩⟩
  case dmk =>
    rw [← dmkOffset_eq_recordAt]
    exact if_pos hf

end Sys2Proof.Machine
end

section
/-! The sector tables, the lookups (rules R143 to R150) and the rebuilt pointer table (rule R156). -/

namespace Sys2Proof.Machine

/-! ## SCAN.DMK_TABLES -/

theorem dmkTables_short {s : State} (h : s.cache.len < 256) : dmkTables s = .error .outOfBounds := if_neg (Nat.not_le.mpr h)

/-- Settles O47: the tables of the pointer table, and the data mark found. -/
theorem dmkTablesFollowThePointers : Obligations.DmkTablesFollowThePointers :=
  ⟨fun s h => ⟨_, _, congrArg answer (dmkTables_ok h), tablesOf_spec s.cache⟩,
    fun _ h => congrArg answer (dmkTables_short h),
    fun o s => ⟨_, rfl, damLookup_spec s.cache o⟩⟩

/-! ## Finding and viewing a sector -/

theorem exec_scanFind_ok {track side sector : Byte} {s : State} {r : Option (Fin 128)}
    (h : findSector s track side sector = .ok r) :
    exec (.scanFind track side sector) s = .next (s.answered (.slot r)) := by
  show execScanFind track side sector s = _
  unfold execScanFind
  rw [h]
  rfl

theorem firstIdam_eq_find (s : State) : firstIdam s = Fin.find? fun i => s.cache.idam[i] != 0 :=
  Fin.find?_eq_find?_finRange.symm

theorem firstIdam_some {s : State} {i : Fin 128} (h : firstIdam s = some i) :
    s.cache.idam[i] ≠ 0 ∧ ∀ j < i, s.cache.idam[j] = 0 := by
  rw [firstIdam_eq_find] at h
  obtain ⟨hused, hbefore⟩ := Fin.find?_eq_some_iff.mp h
  exact ⟨bne_iff_ne.mp hused, fun j hj => bne_eq_false_iff_eq.mp (hbefore j hj)⟩

theorem firstIdam_none {s : State} (h : firstIdam s = none) (j : Fin 128) : s.cache.idam[j] = 0 := by
  rw [firstIdam_eq_find] at h
  exact bne_eq_false_iff_eq.mp (Fin.find?_eq_none_iff.mp h j)

theorem sectorView_code_outside {s : State} {i : Fin 128} {d : Nat} (hd : s.cache.dam[i] = some d)
    (hc : s.cache.len ≤ s.cache.idam[i] + 4) : sectorView s i = .error .outOfBounds := by
  unfold sectorView trkRead
  simp only [hd, if_neg (Nat.not_lt.mpr hc)]
  rfl

theorem exec_scanView_ok {i : Fin 128} {s : State} {v : Option SectorView} (h : sectorView s i = .ok v) :
    exec (.scanView i) s = .next (s.answered (.view v)) := by
  show execScanView i s = _
  unfold execScanView
  rw [h]
  rfl

theorem exec_scanView_error {i : Fin 128} {s : State} {r : Refusal} (h : sectorView s i = .error r) :
    exec (.scanView i) s = .refused r := by
  show execScanView i s = _
  unfold execScanView
  rw [h]

/-- Settles O48: the lowest match, the lowest used slot, and the ways a view can go. -/
theorem lookupsAndViewOfASector : Obligations.LookupsAndViewOfASector := by
  refine ⟨fun track side sector s hin => ?find, fun s => ⟨_, rfl, fun _ => firstIdam_some, firstIdam_none⟩,
    fun i s => ⟨fun hd => exec_scanView_ok (sectorView_none hd), fun d hd hc => ?view,
      fun d hd hc => exec_scanView_error (sectorView_code_outside hd hc)⟩⟩
  case find =>
    obtain ⟨r, hr, hsome, hnone⟩ := findSector_ok track side sector hin
    exact ⟨r, exec_scanFind_ok hr, hsome, hnone⟩
  case view =>
    have hview := sectorView_some hd hc
    unfold slotSize at hview
    refine ⟨fun hout => ?_, fun ⟨hlow, hhigh⟩ => ?_⟩
    · rw [if_pos hout] at hview
      exact exec_scanView_ok hview
    · rw [if_neg (by omega)] at hview
      exact exec_scanView_ok hview

/-! ## SCAN.WT_REBUILD -/

/-- The mark byte of an ID mark stands at `o`. -/
def idMarkEndsAt (m : Memory) (o : Nat) : Bool :=
  m.read (o - 3) == 0xA1 && m.read (o - 2) == 0xA1 && m.read (o - 1) == 0xA1 && m.read o == 0xFE

theorem markAtOffset_idMark (m : Memory) : markAtOffset m isIdMark = idMarkEndsAt m ∘ (· + 3) := rfl

theorem filter_range_ge (a n : Nat) : (List.range n).filter (fun o => decide (a ≤ o)) = List.range' a (n - a) := by
  induction n with
  | zero => simp
  | succ n ih =>
    rw [List.range_succ, List.filter_append, ih]
    by_cases h : a ≤ n
    · rw [Nat.succ_sub h, List.range'_1_concat, Nat.add_sub_cancel' h]
      simp [h]
    · rw [Nat.sub_eq_zero_of_le (by omega), Nat.sub_eq_zero_of_le (by omega)]
      simp [h]

theorem idFieldOffsets_eq (c : Cache) :
    c.idFieldOffsets = (List.range' 259 (c.len - 259)).filter (idMarkEndsAt c.trk) := by
  rw [← filter_range_ge, List.filter_filter]
  unfold Cache.idFieldOffsets idMarkEndsAt
  congr 1
  funext o
  rw [Bool.and_comm (_ && _ && _ && _) (decide _)]
  simp only [Bool.and_assoc]

/-- `SCAN.WT_REBUILD` takes the first 128 of the ID marks (rule R156). -/
theorem idMarks_eq (c : Cache) : idMarks c = c.idFieldOffsets.take 128 := by
  have hshift : List.range' 259 (c.len - 259) = (List.range' dmkTable (c.len - 3 - dmkTable)).map (· + 3) := by
    rw [show c.len - 3 - dmkTable = c.len - 259 by unfold dmkTable; omega]
    simp only [Nat.add_comm _ 3, List.map_add_range', dmkTable]
  rw [idMarks, idFieldOffsets_eq, hshift, List.filter_map, ← markAtOffset_idMark, List.map_take]

/-- A pointer with its density tag, as a number (rule R96). -/
def pointerWord (singleDensity : Bool) (o : Nat) : Nat := (if singleDensity = true then o else o ||| 0x8000) % 65536

/-- The pointers of a list of offsets, one after the other. -/
def pointerTable (singleDensity : Bool) (offs : List Nat) : List Byte := offs.flatMap (pointerBytes singleDensity)

theorem pointerBytes_word (sd : Bool) (o : Nat) :
    ∃ lo hi : Byte, pointerBytes sd o = [lo, hi] ∧ lo.toNat + 256 * hi.toNat = pointerWord sd o := by
  refine ⟨_, _, rfl, ?_⟩
  simp only [BitVec.toNat_ofNat, pointerWord]
  omega

theorem pointerTable_length (sd : Bool) (offs : List Nat) : (pointerTable sd offs).length = 2 * offs.length := by
  induction offs with
  | nil => rfl
  | cons o offs ih =>
    rw [pointerTable, List.flatMap_cons, List.length_append, ← pointerTable, ih, List.length_cons]
    show 2 + _ = _
    omega

/-- Word `k` of the table is the pointer of the `k`-th offset, or 0. -/
theorem pointerTable_word (sd : Bool) (offs : List Nat) (k : Nat) :
    ((pointerTable sd offs).getD (2 * k) 0).toNat + 256 * ((pointerTable sd offs).getD (2 * k + 1) 0).toNat =
      (offs[k]?).elim 0 (pointerWord sd) := by
  induction offs generalizing k with
  | nil => rfl
  | cons o offs ih =>
    obtain ⟨lo, hi, hbytes, hword⟩ := pointerBytes_word sd o
    have hcons : pointerTable sd (o :: offs) = lo :: hi :: pointerTable sd offs := by
      rw [pointerTable, List.flatMap_cons, hbytes]
      rfl
    rw [hcons]
    cases k with
    | zero => exact hword
    | succ k => exact ih k

/-- A table written over the cleared header reads from its start, and as zero after its end. -/
theorem read_clear_writeBlock (m : Memory) {bs : List Byte} {n : Nat} (h : bs.length ≤ n) (a : Nat) :
    ((m.clear 0 n).writeBlock 0 bs).read a = if a < n then bs.getD a 0 else m.read a := by
  rw [Memory.read_writeBlock, Memory.read_clear]
  simp only [Nat.zero_le, true_and, Nat.zero_add, Nat.sub_zero]
  by_cases hb : a < bs.length
  · rw [if_pos hb, if_pos (by omega)]
  · rw [if_neg hb, List.getD_eq_default _ _ (Nat.not_lt.mp hb)]

/-- The cache under its new pointer table; the two tables are not made yet. -/
def Cache.repointed (c : Cache) (singleDensity : Bool) : Cache :=
  { c with trk := (c.trk.clear 0 256).writeBlock 0 (pointerTable singleDensity (c.idFieldOffsets.take 128)) }

theorem Cache.repointed_read (c : Cache) (sd : Bool) (a : Nat) : (c.repointed sd).trk.read a =
    if a < 256 then (pointerTable sd (c.idFieldOffsets.take 128)).getD a 0 else c.trk.read a := by
  refine read_clear_writeBlock c.trk ?_ a
  rw [pointerTable_length, List.length_take]
  omega

theorem Cache.repointed_word (c : Cache) (sd : Bool) (k : Fin 128) :
    ((c.repointed sd).trk.read (2 * k.val)).toNat + 256 * ((c.repointed sd).trk.read (2 * k.val + 1)).toNat =
      (c.idFieldOffsets[k.val]?).elim 0 (pointerWord sd) := by
  rw [c.repointed_read, c.repointed_read, if_pos (by omega), if_pos (by omega), pointerTable_word,
    List.getElem?_take_of_lt k.isLt]

theorem wtRebuild_ok (d : Fin 4) {s : State} (h : 256 ≤ s.cache.len) :
    wtRebuild d s = .ok { s with cache := tablesOf (s.cache.repointed s.drives[d].singleDensity) } := by
  have hlong : ¬s.cache.len < dmkTable := Nat.not_lt.mpr h
  unfold wtRebuild
  rw [if_neg hlong, idMarks_eq]
  exact dmkTables_ok (s := { s with cache := s.cache.repointed s.drives[d].singleDensity }) h

theorem wtRebuild_short (d : Fin 4) {s : State} (h : s.cache.len < 256) : wtRebuild d s = .error .outOfBounds := if_pos h

/-- Settles O52: the new pointer table word by word, and the tables made from it. -/
theorem rebuiltTableNamesTheIdMarks : Obligations.RebuiltTableNamesTheIdMarks := by
  intro d s
  refine ⟨fun h => ⟨_, congrArg answer (wtRebuild_ok d h), rfl, rfl, rfl, tablesOf_spec _, fun a ha => ?body, fun k => ?word⟩,
    fun h => congrArg answer (wtRebuild_short d h)⟩
  case body => exact (s.cache.repointed_read _ a).trans (if_neg (Nat.not_lt.mpr ha))
  case word =>
    refine (s.cache.repointed_word _ k).trans ?_
    cases s.cache.idFieldOffsets[k.val]? <;> rfl

end Sys2Proof.Machine
end

section
/-! Writing the cached record back and loading it again (rules R56, R140, R141, R157). -/

namespace Sys2Proof.Machine

/-! ## The file list -/

theorem setFile_eq_set {files : List Image} {h : Nat} (hlt : h < files.length) (f : Image) :
    setFile files h f = files.set h f := by
  induction files generalizing h with
  | nil => exact absurd hlt (Nat.not_lt_zero h)
  | cons g files ih =>
    cases h with
    | zero => rfl
    | succ h => exact congrArg (g :: ·) (ih (Nat.lt_of_succ_lt_succ hlt))

/-- A handle whose file answers names a file of the list: the missing file always fails. -/
theorem handle_lt_of_up {s : State} {h : Nat} (hup : (fileAt s h).down = false) : h < s.env.files.length := by
  by_contra hge
  rw [fileAt, List.getD_eq_default _ _ (Nat.not_lt.mp hge)] at hup
  cases hup

/-! ## The image with a record written into it -/

theorem Image.put_read (f : Image) (off : Nat) (src : Memory) (n a : Nat) :
    (f.put off src 0 n).bytes.read a = if off ≤ a ∧ a < off + n then src.read (a - off) else f.bytes.read a :=
  Memory.read_copy ..

/-! ## SCAN.FLUSH -/

theorem flushTrack_nothing {s : State} (h : s.cache.id = none) : flushTrack s = .error .nothingCached := by
  unfold flushTrack
  rw [h]

/-- The cached record `t` written into its place in its image. -/
def State.recordFlushed (s : State) (t : TrackId) : State :=
  let v := s.drives[t.drive]
  let off := v.recordAt t.track t.side
  { s with
    env := { s.env with files := s.env.files.set v.handle ((fileAt s v.handle).put off s.cache.trk 0 s.cache.len) }
    events := .imgWrite v.handle off s.cache.len :: s.events }

section Named
variable {s : State} {t : TrackId} (hid : s.cache.id = some t)
include hid

theorem flushTrack_unmounted (hf : s.drives[t.drive].format = .none) : flushTrack s = .ok s := by
  unfold flushTrack
  simp only [hid, hf]

theorem flushTrack_hfe (hf : s.drives[t.drive].format = .hfe) : flushTrack s = .error .needsFluxEncoder := by
  unfold flushTrack
  simp only [hid, hf]

theorem flushTrack_storage_down (hf : s.drives[t.drive].format = .dmk)
    (hd : (fileAt s s.drives[t.drive].handle).down = true) : flushTrack s = .ok s := by
  unfold flushTrack
  simp only [hid, hf, hd, if_true]

theorem flushTrack_writes (hf : s.drives[t.drive].format = .dmk)
    (hup : (fileAt s s.drives[t.drive].handle).down = false) : flushTrack s = .ok (s.recordFlushed t) := by
  unfold flushTrack
  simp only [hid, hf, hup, Bool.false_eq_true, if_false, dmkOffset_eq_recordAt, setFile_eq_set (handle_lt_of_up hup)]
  rfl

end Named

/-- Settles O53: one lemma for each way a flush can go, and what the written file reads. -/
theorem flushWritesTheWholeRecord : Obligations.FlushWritesTheWholeRecord := by
  refine ⟨fun s h => congrArg answer (flushTrack_nothing h), fun s t hid =>
    ⟨fun hf => congrArg answer (flushTrack_hfe hid hf), fun hidle => ?idle, fun hf hup => ?written⟩⟩
  case idle =>
    rcases hidle with hf | ⟨hf, hd⟩
    · exact congrArg answer (flushTrack_unmounted hid hf)
    · exact congrArg answer (flushTrack_storage_down hid hf hd)
  case written =>
    exact ⟨_, _, congrArg answer (flushTrack_writes hid hf hup), List.getElem?_set_self (handle_lt_of_up hup), hup, rfl,
      Image.put_read _ _ _ _, fun h hne => List.getElem?_set_ne hne.symm⟩

/-! ## Records apart -/

/-- The number of a side in an image, `track * sides + side`, names the track and the side. -/
theorem sideNumber_inj {sides t t' d d' : Nat} (hd : d < sides) (hd' : d' < sides) (h : t * sides + d = t' * sides + d') :
    t = t' ∧ d = d' := by
  have hdd : d = d' := by
    simpa only [Nat.mul_add_mod_self_right, Nat.mod_eq_of_lt, hd, hd'] using congrArg (· % sides) h
  subst hdd
  exact ⟨Nat.eq_of_mul_eq_mul_right (Nat.zero_lt_of_lt hd) (Nat.add_right_cancel h), rfl⟩

/-- Blocks of one length at two of its multiples do not meet. -/
theorem block_multiples_apart {i j len a : Nat} (hne : i ≠ j) (ha : a < len) : j * len + a < i * len ∨ i * len + len ≤ j * len + a := by
  rcases Nat.lt_or_gt_of_ne hne with hlt | hgt
  · have := Nat.mul_le_mul_right len (Nat.succ_le_of_lt hlt)
    rw [Nat.succ_mul] at this
    omega
  · have := Nat.mul_le_mul_right len (Nat.succ_le_of_lt hgt)
    rw [Nat.succ_mul] at this
    omega

/-- The records of two sides of an image do not meet (rule R140). -/
theorem recordAt_apart {s : State} {d : Fin 4} {track track' : Byte} {side side' : Bool} (he : s.recordExists d track side)
    (he' : s.recordExists d track' side') (hne : track' ≠ track ∨ side' ≠ side) {a : Nat} (ha : a < s.drives[d].trackLength) :
    ¬(s.drives[d].recordAt track side ≤ s.drives[d].recordAt track' side' + a ∧
      s.drives[d].recordAt track' side' + a < s.drives[d].recordAt track side + s.drives[d].trackLength) := by
  obtain ⟨-, -, hside, -⟩ := he
  obtain ⟨-, -, hside', -⟩ := he'
  have hnumber : track.toNat * s.drives[d].sides + (if side then 1 else 0) ≠
      track'.toNat * s.drives[d].sides + (if side' then 1 else 0) := by
    intro h
    obtain ⟨htrack, hbit⟩ := sideNumber_inj hside hside' h
    rcases hne with h | h
    · exact h (BitVec.eq_of_toNat_eq htrack.symm)
    · revert hbit h
      cases side <;> cases side' <;> simp
  have := block_multiples_apart hnumber ha
  unfold DriveSlot.recordAt
  omega

/-! ## The round trip -/

theorem recordFlushed_fileAt {s : State} {t : TrackId} (hup : (fileAt s s.drives[t.drive].handle).down = false) :
    fileAt (s.recordFlushed t) s.drives[t.drive].handle = (fileAt s s.drives[t.drive].handle).put
      (s.drives[t.drive].recordAt t.track t.side) s.cache.trk 0 s.cache.len := by
  show (s.env.files.set _ _).getD _ _ = _
  rw [List.getD_eq_getElem?_getD, List.getElem?_set_self (handle_lt_of_up hup)]
  rfl

/-- Settles O54: the flushed file has the record, a load copies it, and other records lie apart. -/
theorem flushedTrackLoadsBack : Obligations.FlushedTrackLoadsBack := by
  intro s d side track hid hexists v f hlen hup
  have ⟨hf, _⟩ := hexists
  let t := s.recordFlushed ⟨d, side, track⟩
  have hfile : fileAt t v.handle = f.put (v.recordAt track side) s.cache.trk 0 s.cache.len := recordFlushed_fileAt hup
  have hroom : v.recordAt track side + v.trackLength ≤ (fileAt t v.handle).size := by
    rw [hfile, ← hlen]
    exact Nat.le_max_right ..
  obtain ⟨-, hload⟩ := loadCopiesTheDmkRecord d side track t (fun h => nomatch hf.symm.trans h)
  obtain ⟨c, hrun, hname, hclen, -, -, hread⟩ := hload ⟨hexists, (congrArg Image.down hfile).trans hup, hroom⟩
  refine ⟨t, _, congrArg answer (flushTrack_writes hid hf hup), hrun, hname.trans hid.symm, hclen.trans hlen.symm,
    fun a ha => ?same, fun track' side' hexists' hne a ha => ?others⟩
  case same =>
    have hin : a < v.trackLength := hlen ▸ ha
    calc c.trk.read a = (fileAt t v.handle).bytes.read (v.recordAt track side + a) := (hread a).trans (if_pos hin)
      _ = s.cache.trk.read a := by
        rw [hfile, Image.put_read, if_pos (by omega), Nat.add_sub_cancel_left]
  case others =>
    show (fileAt t v.handle).bytes.read _ = _
    rw [hfile, Image.put_read, if_neg]
    rw [hlen]
    exact recordAt_apart hexists hexists' hne ha

end Sys2Proof.Machine
end

section
/-! The packet and the instruction name each other (rules R80 to R91): the decoder read backwards, one rule per operand reader,
and the packets of the tables. -/

namespace Sys2Proof

open Laws

/-- Settles O1: the round trip of each instruction. -/
theorem decodeOfEncodeIsTheInstruction : Obligations.DecodeOfEncodeIsTheInstruction := by
  intro i
  cases i with
  | rdStatus => exact RoundTrip.rdStatus
  | rdTrack => exact RoundTrip.rdTrack
  | rdSector => exact RoundTrip.rdSector
  | rdData => exact RoundTrip.rdData
  | wrCmd v => exact RoundTrip.wrCmd v
  | wrTrack v => exact RoundTrip.wrTrack v
  | wrSector v => exact RoundTrip.wrSector v
  | wrData v => exact RoundTrip.wrData v
  | rdNmi a => exact RoundTrip.rdNmi a
  | wrNmi a v => exact RoundTrip.wrNmi a v
  | wrDrvsel a v => exact RoundTrip.wrDrvsel a v
  | restore z => exact RoundTrip.restore z
  | seek z rate => exact RoundTrip.seek z rate
  | step u z rate => exact RoundTrip.step u z rate
  | stepin u z rate => exact RoundTrip.stepin u z rate
  | stepout u z rate => exact RoundTrip.stepout u z rate
  | rdsec z => exact RoundTrip.rdsec z
  | wrsec z => exact RoundTrip.wrsec z
  | rdaddr z => exact RoundTrip.rdaddr z
  | forceint ien => exact RoundTrip.forceint ien
  | rdtrk z => exact RoundTrip.rdtrk z
  | wrtrk z => exact RoundTrip.wrtrk z
  | hxVersion => exact RoundTrip.hxVersion
  | hxFindfirst => exact RoundTrip.hxFindfirst
  | hxFindnext => exact RoundTrip.hxFindnext
  | hxMount => exact RoundTrip.hxMount
  | hxOpen => exact RoundTrip.hxOpen
  | hxRead => exact RoundTrip.hxRead
  | hxWrite => exact RoundTrip.hxWrite
  | hxClose => exact RoundTrip.hxClose
  | hxSettime => exact RoundTrip.hxSettime
  | hxGettime => exact RoundTrip.hxGettime
  | hxFindini => exact RoundTrip.hxFindini
  | hxFinddmk => exact RoundTrip.hxFinddmk
  | hxFindhfe => exact RoundTrip.hxFindhfe
  | hxUnknown b => exact RoundTrip.hxUnknown b
  | crcInit => exact RoundTrip.crcInit
  | crcByte b => exact RoundTrip.crcByte b
  | crcRange sp start len => exact RoundTrip.crcRange sp start len
  | crcRead => exact RoundTrip.crcRead
  | crcCheck hi lo => exact RoundTrip.crcCheck hi lo
  | decBit side k => exact RoundTrip.decBit side k
  | decWord side p => exact RoundTrip.decWord side p
  | decMfmbyte w => exact RoundTrip.decMfmbyte w
  | decSyncscan side p => exact RoundTrip.decSyncscan side p
  | decMark side q => exact RoundTrip.decMark side q
  | decIdfield side q b1 b2 => exact RoundTrip.decIdfield side q b1 b2
  | decDatafield side q b1 b2 b3 => exact RoundTrip.decDatafield side q b1 b2 b3
  | decTrack side => exact RoundTrip.decTrack side
  | decFmword side p => exact RoundTrip.decFmword side p
  | decFmscan side p => exact RoundTrip.decFmscan side p
  | decFmtrack side => exact RoundTrip.decFmtrack side
  | scanDmkOffset d track side => exact RoundTrip.scanDmkOffset d track side
  | scanLoad d side track => exact RoundTrip.scanLoad d side track
  | scanEnsure d side track => exact RoundTrip.scanEnsure d side track
  | scanDmkTables => exact RoundTrip.scanDmkTables
  | scanDamlookup origin => exact RoundTrip.scanDamlookup origin
  | scanFind track side sector => exact RoundTrip.scanFind track side sector
  | scanFirstidam => exact RoundTrip.scanFirstidam
  | scanView n => exact RoundTrip.scanView n
  | scanIdcrcCheck n => exact RoundTrip.scanIdcrcCheck n
  | scanDatacrcCheck n => exact RoundTrip.scanDatacrcCheck n
  | scanDatacrcGen n => exact RoundTrip.scanDatacrcGen n
  | scanWtResolve m => exact RoundTrip.scanWtResolve m
  | scanWtRebuild d => exact RoundTrip.scanWtRebuild d
  | scanFlush => exact RoundTrip.scanFlush
  | cmdClassify v => exact RoundTrip.cmdClassify v
  | cmdDispatch => exact RoundTrip.cmdDispatch
  | reset => exact RoundTrip.reset

/-! ## The operand readers, read backwards (log 2) -/

theorem takeByte_eq_ok {b : Byte} {os r : List Byte} (h : takeByte os = .ok (b, r)) : os = b :: r := by
  cases os <;> cases h
  rfl

theorem le32Bytes_le32 (b0 b1 b2 b3 : Byte) : le32Bytes (le32 b0 b1 b2 b3) = [b0, b1, b2, b3] := by
  simp only [le32Bytes, le32, List.cons.injEq, and_true]
  refine ⟨?_, ?_, ?_, ?_⟩ <;> apply BitVec.eq_of_toNat_eq <;> rw [BitVec.toNat_ofNat] <;> omega

theorem fits32_le32 (b0 b1 b2 b3 : Byte) : fits32 (le32 b0 b1 b2 b3) = true :=
  decide_eq_true (by unfold le32; omega)

theorem take32_eq_ok {n : Nat} {os r : List Byte} (h : take32 os = .ok (n, r)) :
    fits32 n = true ∧ os = le32Bytes n ++ r := by
  unfold take32 at h
  split at h <;> cases h
  exact ⟨fits32_le32 .., by rw [le32Bytes_le32]; rfl⟩

theorem takeSide_eq_ok {s : Bool} {os r : List Byte} (h : takeSide os = .ok (s, r)) : os = sideByte s :: r := by
  cases os with
  | nil => cases h
  | cons b os =>
    unfold takeSide at h
    simp only at h
    split at h
    · subst b; cases h; rfl
    · split at h <;> cases h
      subst b; rfl

theorem takeDrive_eq_ok {d : Fin 4} {os r : List Byte} (h : takeDrive os = .ok (d, r)) : os = driveByte d :: r := by
  cases os with
  | nil => cases h
  | cons b os =>
    unfold takeDrive at h
    simp only at h
    split at h <;> cases h
    simp [driveByte]

theorem takeSlot_eq_ok {i : Fin 128} {os r : List Byte} (h : takeSlot os = .ok (i, r)) : os = slotByte i :: r := by
  cases os with
  | nil => cases h
  | cons b os =>
    unfold takeSlot at h
    simp only at h
    split at h <;> cases h
    simp [slotByte]

theorem takeSpace_eq_ok {sp : Space} {os r : List Byte} (h : takeSpace os = .ok (sp, r)) : os = spaceByte sp :: r := by
  cases os with
  | nil => cases h
  | cons b os =>
    unfold takeSpace at h
    simp only at h
    split at h
    · subst b; cases h; rfl
    · split at h
      · subst b; cases h; rfl
      · split at h <;> cases h
        subst b; rfl

theorem done_eq_ok {i j : Instr} {rest : List Byte} (h : done i rest = .ok j) :
    j = i ∧ rest = List.replicate rest.length 0 := by
  unfold done at h
  split at h <;> cases h
  rename_i hz
  exact ⟨rfl, List.eq_replicate_iff.mpr ⟨rfl, by simpa using hz⟩⟩

/-! ## What a decoder makes of a packet -/

/-- In the packet with code `op` of layer `l`, after the operand bytes `pre`, the decoder reads `x` from the bytes `os`: any
instruction that comes out is well formed, and the packet is its own. -/
def Faithful (l : Layer) (op : Byte) (pre os : List Byte) (x : Except DecodeError Instr) : Prop :=
  ∀ i, x = .ok i → (pre ++ os).length = 9 → WellFormed i = true ∧ encode i = op :: l.tag :: (pre ++ os)

namespace Faithful
variable {l : Layer} {op : Byte} {pre os : List Byte}

theorem error {e : DecodeError} : Faithful l op pre os (.error e) := fun _ h => nomatch h

/-- All operands are read: they are the operands of the packet. -/
theorem done {i : Instr} (hwf : WellFormed i = true) (henc : encode i = packet l op pre) :
    Faithful l op pre os (Sys2Proof.done i os) := by
  intro j h hlen
  obtain ⟨rfl, hz⟩ := done_eq_ok h
  rw [List.length_append] at hlen
  refine ⟨hwf, ?_⟩
  rw [henc, packet, show 9 - pre.length = os.length by omega, ← hz]

/-- One operand: a reader that has read the bytes `w a`. -/
theorem bind {α : Type} {rd : Reader α} {f : α × List Byte → Except DecodeError Instr} {w : α → List Byte} {ok : α → Prop}
    (hrd : ∀ {a r}, rd os = .ok (a, r) → ok a ∧ os = w a ++ r)
    (hf : ∀ a r, ok a → Faithful l op (pre ++ w a) r (f (a, r))) : Faithful l op pre os (rd os >>= f) := by
  intro i hi hlen
  obtain ⟨⟨a, r⟩, ha, hfi⟩ := Machine.except_bind_ok.mp hi
  obtain ⟨hok, hos⟩ := hrd ha
  rw [hos, ← List.append_assoc] at hlen ⊢
  exact hf a r hok i hfi hlen

theorem byte {f : Byte × List Byte → Except DecodeError Instr}
    (hf : ∀ b r, Faithful l op (pre ++ [b]) r (f (b, r))) : Faithful l op pre os (takeByte os >>= f) :=
  bind (ok := fun _ => True) (fun h => ⟨trivial, takeByte_eq_ok h⟩) fun b r _ => hf b r

theorem number {f : Nat × List Byte → Except DecodeError Instr}
    (hf : ∀ n r, fits32 n = true → Faithful l op (pre ++ le32Bytes n) r (f (n, r))) :
    Faithful l op pre os (take32 os >>= f) := bind take32_eq_ok hf

theorem side {f : Bool × List Byte → Except DecodeError Instr}
    (hf : ∀ s r, Faithful l op (pre ++ [sideByte s]) r (f (s, r))) : Faithful l op pre os (takeSide os >>= f) :=
  bind (ok := fun _ => True) (fun h => ⟨trivial, takeSide_eq_ok h⟩) fun s r _ => hf s r

theorem drive {f : Fin 4 × List Byte → Except DecodeError Instr}
    (hf : ∀ d r, Faithful l op (pre ++ [driveByte d]) r (f (d, r))) : Faithful l op pre os (takeDrive os >>= f) :=
  bind (ok := fun _ => True) (fun h => ⟨trivial, takeDrive_eq_ok h⟩) fun d r _ => hf d r

theorem slot {f : Fin 128 × List Byte → Except DecodeError Instr}
    (hf : ∀ i r, Faithful l op (pre ++ [slotByte i]) r (f (i, r))) : Faithful l op pre os (takeSlot os >>= f) :=
  bind (ok := fun _ => True) (fun h => ⟨trivial, takeSlot_eq_ok h⟩) fun i r _ => hf i r

theorem space {f : Space × List Byte → Except DecodeError Instr}
    (hf : ∀ sp r, Faithful l op (pre ++ [spaceByte sp]) r (f (sp, r))) : Faithful l op pre os (takeSpace os >>= f) :=
  bind (ok := fun _ => True) (fun h => ⟨trivial, takeSpace_eq_ok h⟩) fun sp r _ => hf sp r

end Faithful

/-! ## The four layers -/

/-- A bus selector is a clear bit, five control lines and two address lines (rule R80). -/
theorem busSelector_eq {op : Byte} (h : op.getLsbD 7 = false) :
    op = (0#1 ++ op.extractLsb' 2 5) ++ op.extractLsb' 0 2 := by
  have hbit : op.extractLsb' 7 1 = 0#1 := by
    apply BitVec.eq_of_getLsbD_eq
    intro j hj
    obtain rfl : j = 0 := by omega
    simpa using h
  have hhigh : op.extractLsb' 7 1 ++ op.extractLsb' 2 5 = op.extractLsb' 2 6 :=
    BitVec.extractLsb'_append_extractLsb'_eq_extractLsb' rfl
  have hall : op.extractLsb' 2 6 ++ op.extractLsb' 0 2 = op.extractLsb' 0 8 :=
    BitVec.extractLsb'_append_extractLsb'_eq_extractLsb' rfl
  rw [← hbit, hhigh, hall, BitVec.extractLsb'_eq_self]

theorem decodeBus_faithful (op : Byte) (os : List Byte) : Faithful .bus op [] os (decodeBus op os) := by
  unfold decodeBus
  simp only
  split
  · exact .error
  · rename_i hbit
    have hop := busSelector_eq (Bool.eq_false_of_not_eq_true hbit)
    generalize op.extractLsb' 2 5 = lines at hop ⊢
    generalize op.extractLsb' 0 2 = a at hop ⊢
    subst hop
    split
    · rename_i hl
      obtain rfl : lines = 0x10#5 := BitVec.eq_of_toNat_eq hl
      rcases bv2_cases a with rfl | rfl | rfl | rfl <;> exact .done rfl rfl
    · rename_i hl
      obtain rfl : lines = 0x08#5 := BitVec.eq_of_toNat_eq hl
      rcases bv2_cases a with rfl | rfl | rfl | rfl <;> exact .byte fun v r => .done rfl rfl
    · rename_i hl
      obtain rfl : lines = 0x04#5 := BitVec.eq_of_toNat_eq hl
      exact .done rfl rfl
    · rename_i hl
      obtain rfl : lines = 0x02#5 := BitVec.eq_of_toNat_eq hl
      exact .byte fun v r => .done rfl rfl
    · rename_i hl
      obtain rfl : lines = 0x01#5 := BitVec.eq_of_toNat_eq hl
      exact .byte fun v r => .done rfl rfl
    · exact .error
    · exact .error

/-- The code of a command is the byte it was decoded from (rules R83 to R86). -/
theorem encode_decodeCommand (v : Byte) : encode (decodeCommand v) = packet .command v [] := by
  revert v
  decide

theorem wellFormed_of_isCommand {i : Instr} (h : Machine.IsCommand i) : WellFormed i = true := by
  cases h <;> rfl

theorem decodeCommand_faithful (v : Byte) (os : List Byte) : Faithful .command v [] os (done (decodeCommand v) os) :=
  .done (wellFormed_of_isCommand (Machine.decodeCommand_isCommand v)) (encode_decodeCommand v)

/-- A byte by its number. -/
theorem byte_eq_ofNat (b : Byte) : ∃ n < 256, b = BitVec.ofNat 8 n := ⟨b.toNat, b.isLt, by simp⟩

theorem decodeHostop_unnamed {b : Byte} (h : b ∉ namedHostOps) : decodeHostop b = .hxUnknown b := by
  obtain ⟨n, hn, rfl⟩ := byte_eq_ofNat b
  unfold decodeHostop
  rw [BitVec.toNat_ofNat, Nat.mod_eq_of_lt hn]
  split
  case h_14 => rfl
  all_goals exact absurd (by decide) h

theorem decodeHostop_named : ∀ b ∈ namedHostOps,
    WellFormed (decodeHostop b) = true ∧ encode (decodeHostop b) = packet .hostop b [] := by decide

theorem decodeHostop_faithful (op : Byte) (os : List Byte) : Faithful .hostop op [] os (done (decodeHostop op) os) := by
  by_cases h : op ∈ namedHostOps
  · obtain ⟨hwf, henc⟩ := decodeHostop_named op h
    exact .done hwf henc
  · rw [decodeHostop_unnamed h]
    exact .done (by simpa [WellFormed] using h) rfl

/-- A side of `SCAN.FIND` is 0 or 1 (rule R147). -/
theorem scanFind_faithful (t sd sec : Byte) (os : List Byte) : Faithful .unitop 0x35 [t, sd, sec] os
    (if sd = 0 ∨ sd = 1 then done (.scanFind t sd sec) os else .error .badOperand) := by
  split
  · rename_i h
    exact .done (by simpa [WellFormed] using h) rfl
  · exact .error

theorem decMfmbyte_encode (hi lo : Byte) : encode (.decMfmbyte (hi ++ lo)) = packet .unitop 0x22 [lo, hi] := by
  have hlo : (hi ++ lo).extractLsb' 0 8 = lo := BitVec.extractLsb'_append_eq_right
  have hhi : (hi ++ lo).extractLsb' 8 8 = hi := BitVec.extractLsb'_append_eq_left
  rw [encode, hlo, hhi]

/-- Rule R91, selector by selector in the decoder's order: the units CRC, DEC and SCAN, then the internal steps. -/
theorem decodeUnitop_faithful (op : Byte) (os : List Byte) : Faithful .unitop op [] os (decodeUnitop op os) := by
  obtain ⟨n, hn, rfl⟩ := byte_eq_ofNat op
  unfold decodeUnitop
  rw [BitVec.toNat_ofNat, Nat.mod_eq_of_lt hn]
  split
  · exact .done rfl rfl
  · exact .byte fun b _ => .done rfl rfl
  · exact .space fun sp _ => .number fun a _ ha => .number fun len _ hlen => .done (by simp [WellFormed, ha, hlen]) rfl
  · exact .done rfl rfl
  · exact .byte fun hi _ => .byte fun lo _ => .done rfl rfl
  · exact .side fun s _ => .number fun k _ hk => .done hk rfl
  · exact .side fun s _ => .number fun p _ hp => .done hp rfl
  · exact .byte fun lo _ => .byte fun hi _ => .done rfl (decMfmbyte_encode hi lo)
  · exact .side fun s _ => .number fun p _ hp => .done hp rfl
  · exact .side fun s _ => .number fun q _ hq => .done hq rfl
  · exact .side fun s _ => .number fun q _ hq => .byte fun b1 _ => .byte fun b2 _ => .done hq rfl
  · exact .side fun s _ => .number fun q _ hq => .byte fun b1 _ => .byte fun b2 _ => .byte fun b3 _ => .done hq rfl
  · exact .side fun s _ => .done rfl rfl
  · exact .side fun s _ => .number fun p _ hp => .done hp rfl
  · exact .side fun s _ => .number fun p _ hp => .done hp rfl
  · exact .side fun s _ => .done rfl rfl
  · exact .drive fun d _ => .byte fun t _ => .side fun s _ => .done rfl rfl
  · exact .drive fun d _ => .side fun s _ => .byte fun t _ => .done rfl rfl
  · exact .drive fun d _ => .side fun s _ => .byte fun t _ => .done rfl rfl
  · exact .done rfl rfl
  · exact .number fun o _ ho => .done ho rfl
  · exact .byte fun t _ => .byte fun sd _ => .byte fun sec _ => scanFind_faithful t sd sec _
  · exact .done rfl rfl
  · exact .slot fun i _ => .done rfl rfl
  · exact .slot fun i _ => .done rfl rfl
  · exact .slot fun i _ => .done rfl rfl
  · exact .slot fun i _ => .done rfl rfl
  · exact .number fun m _ hm => .done hm rfl
  · exact .drive fun d _ => .done rfl rfl
  · exact .done rfl rfl
  · exact .byte fun v _ => .done rfl rfl
  · exact .done rfl rfl
  · exact .done rfl rfl
  · exact .error

theorem decodeIn_faithful (l : Layer) (op : Byte) (os : List Byte) : Faithful l op [] os (decodeIn l op os) := by
  cases l with
  | bus => exact decodeBus_faithful op os
  | command => exact decodeCommand_faithful op os
  | hostop => exact decodeHostop_faithful op os
  | unitop => exact decodeUnitop_faithful op os

/-! ## The packet -/

/-- A layer byte other than 0 is the tag of the layer it names (log 2). -/
theorem layerOf_eq_ok {op layer : Byte} {l : Layer} (h : layerOf op layer = .ok l) (hne : layer ≠ 0) : layer = l.tag := by
  obtain ⟨n, hn, rfl⟩ := byte_eq_ofNat layer
  unfold layerOf at h
  rw [BitVec.toNat_ofNat, Nat.mod_eq_of_lt hn] at h
  split at h <;> cases h
  · exact absurd rfl hne
  all_goals rfl

/-- What a packet that decodes consists of. -/
theorem decode_eq_ok {bs : List Byte} {i : Instr} (h : decode bs = .ok i) : ∃ op layer os l,
    bs = op :: layer :: os ∧ os.length = 9 ∧ layerOf op layer = .ok l ∧ decodeIn l op os = .ok i := by
  unfold decode at h
  split at h
  · rename_i hlen
    split at h
    · rename_i op layer os
      split at h
      · rename_i l hl
        exact ⟨op, layer, os, l, rfl, by simpa [packetLength] using hlen, hl, h⟩
      · cases h
    · cases h
  · cases h

/-- Settles O2: in each layer the code and the operands read are those of the packet. -/
theorem encodeOfDecodeIsThePacket : Obligations.EncodeOfDecodeIsThePacket := by
  intro bs i h hnamed
  obtain ⟨op, layer, os, l, rfl, hlen, hl, hi⟩ := decode_eq_ok h
  obtain rfl : layer = l.tag := layerOf_eq_ok hl fun h0 => hnamed (congrArg some h0)
  exact decodeIn_faithful l op os i hi hlen

/-- Settles O4, packet by packet. -/
theorem wordsOfTheTablesDecode : Obligations.WordsOfTheTablesDecode := by
  unfold Obligations.WordsOfTheTablesDecode
  decide

end Sys2Proof
end

section
/-! CMD.DISPATCH and the host opcodes (rules R89, R188, R211), and the windows of the flux (rules R97, R122, R123, R133). -/

namespace Sys2Proof.Machine

/-! ## CMD.DISPATCH -/

/-- The instruction a host opcode byte decodes to hands over the byte's tag (rule R89). -/
theorem exec_decodeHostop (b : Byte) (s : State) : exec (decodeHostop b) s = handTag (hostTag b) s := by
  unfold decodeHostop hostTag
  split <;> rfl

theorem handTag_eq (t : HostTag) (s : State) : handTag t s = .next { s with events := .hostOp t :: s.events } := rfl

section Received
variable {s : State} (hrecv : s.cmdRecv = true)
include hrecv

theorem exec_cmdDispatch_command (hh : hostSel s = false) :
    exec .cmdDispatch s = exec (decodeCommand s.command) { s with cmdRecv := false } := by
  have hh' : ¬hostSel { s with cmdRecv := false } = true := Bool.eq_false_iff.mp hh
  show execCmdDispatch s = _
  unfold execCmdDispatch
  simp only [if_pos hrecv, if_neg hh', runCommand_eq_exec]

theorem exec_cmdDispatch_host (hh : hostSel s = true) :
    exec .cmdDispatch s = handTag (hostTag s.command) { s with cmdRecv := false } := by
  have hh' : hostSel { s with cmdRecv := false } = true := hh
  show execCmdDispatch s = _
  unfold execCmdDispatch
  simp only [if_pos hrecv, if_pos hh']
  rfl

end Received

theorem exec_cmdDispatch_idle {s : State} (h : s.cmdRecv = false) : exec .cmdDispatch s = .next s :=
  if_neg (Bool.eq_false_iff.mp h)

/-- Settles O17: the three ways a dispatch can go. -/
theorem dispatchRunsTheLatchedByte : Obligations.DispatchRunsTheLatchedByte := fun _ =>
  ⟨exec_cmdDispatch_command,
    fun hrecv hh => ⟨(exec_cmdDispatch_host hrecv hh).trans (exec_decodeHostop _ _).symm, exec_cmdDispatch_host hrecv hh⟩,
    exec_cmdDispatch_idle⟩

/-- Settles O19: each opcode is its tag handed over. -/
theorem hostOpcodesHandOverTheirTag : Obligations.HostOpcodesHandOverTheirTag := fun s =>
  ⟨handTag_eq .version s, handTag_eq .findFirstAll s, handTag_eq .findNext s, handTag_eq .mount s, handTag_eq .openFile s,
    handTag_eq .readFileBlock s, handTag_eq .writeFileBlock s, handTag_eq .closeFile s, handTag_eq .setTime s,
    handTag_eq .getTime s, handTag_eq .findFirstIni s, handTag_eq .findFirstDmk s, handTag_eq .findFirstHfe s,
    fun b => handTag_eq (.unknown b) s⟩

/-! ## Windows -/

/-- The first `n` bits gathered, the last of them in bit 0. -/
def gathered (bit : Nat → Bool) (n : Nat) : Word16 :=
  (List.range n).foldl (fun w j => (w <<< 1) ||| (BitVec.ofBool (bit j)).setWidth 16) 0

theorem gathered_succ (bit : Nat → Bool) (n : Nat) :
    gathered bit (n + 1) = (gathered bit n <<< 1) ||| (BitVec.ofBool (bit n)).setWidth 16 := by
  simp only [gathered, List.range_succ, List.foldl_append, List.foldl_cons, List.foldl_nil]

theorem gathered_bit (bit : Nat → Bool) (n k : Nat) (hk : k < 16) :
    (gathered bit n).getLsbD k = (decide (k < n) && bit (n - 1 - k)) := by
  induction n generalizing k with
  | zero => simp [gathered]
  | succ n ih =>
    rw [gathered_succ, BitVec.getLsbD_or, BitVec.getLsbD_shiftLeft, BitVec.getLsbD_setWidth, BitVec.getLsbD_ofBool]
    cases k with
    | zero => simp
    | succ k =>
      rw [Nat.add_sub_cancel, ih k (by omega), show n + 1 - 1 - (k + 1) = n - 1 - k by omega]
      simp [hk]

/-- A window holds the first bit in bit 15 (rules R122, R133). -/
theorem window_bit (bit : Nat → Bool) (j : Nat) (hj : j < 16) : (window bit).getLsbD (15 - j) = bit j := by
  show (gathered bit 16).getLsbD (15 - j) = _
  rw [gathered_bit bit 16 (15 - j) (by omega), decide_eq_true (by omega), Bool.true_and]
  congr 1
  omega

theorem mfmData_bit (w : Word16) (j : Nat) (hj : j < 8) : (mfmData w).getLsbD j = w.getLsbD (2 * j) := by
  obtain ⟨h7, h6, h5, h4, h3, h2, h1, h0⟩ := byteOf_bits (w.getLsbD 14) (w.getLsbD 12) (w.getLsbD 10) (w.getLsbD 8)
    (w.getLsbD 6) (w.getLsbD 4) (w.getLsbD 2) (w.getLsbD 0)
  interval_cases j
  exacts [h0, h1, h2, h3, h4, h5, h6, h7]

theorem mfmClock_bit (w : Word16) (j : Nat) (hj : j < 8) : (mfmClock w).getLsbD j = w.getLsbD (2 * j + 1) := by
  obtain ⟨h7, h6, h5, h4, h3, h2, h1, h0⟩ := byteOf_bits (w.getLsbD 15) (w.getLsbD 13) (w.getLsbD 11) (w.getLsbD 9)
    (w.getLsbD 7) (w.getLsbD 5) (w.getLsbD 3) (w.getLsbD 1)
  interval_cases j
  exacts [h0, h1, h2, h3, h4, h5, h6, h7]

/-- Settles O33: the bits of the two windows, and of the two bytes a window splits into. -/
theorem windowsGatherSixteenBitsAndSplit : Obligations.WindowsGatherSixteenBitsAndSplit := by
  refine ⟨fun side p s => ⟨fun h => ⟨wordAt s side p, if_pos h, window_bit _⟩, fun h => if_neg (Nat.not_le.mpr h),
      fun h => ⟨fmWordAt s side p, if_pos h, window_bit _⟩, fun h => if_neg (Nat.not_le.mpr h)⟩,
    fun w s => ⟨mfmData w, mfmClock w, rfl, fun j hj => ⟨mfmData_bit w j hj, mfmClock_bit w j hj⟩⟩⟩

end Sys2Proof.Machine
end

section
/-! SCAN.WT_RESOLVE (rules R99, R155): what the resolved stream leaves in the track, and a stream that is one field. -/

namespace Sys2Proof.Machine

theorem cachedDoubleDensityDmk_iff {s : State} : cachedDoubleDensityDmk s = true ↔ ∃ t, s.cache.id = some t ∧
    s.drives[t.drive].format = .dmk ∧ s.drives[t.drive].singleDensity = false := by
  unfold cachedDoubleDensityDmk
  cases s.cache.id <;> simp

/-- The track with the resolution of a raw stream written over its body. -/
def State.resolvedTrack (s : State) (raw : List Byte) : Memory :=
  s.cache.trk.writeBlock 256 (resolveStream s.cache.len raw).out.reverse

theorem wtResolve_ok {m : Nat} {s : State} (hdd : cachedDoubleDensityDmk s = true) (hm : m ≤ s.cfg.trkCap) :
    wtResolve m s = .ok { s with
      crc := (resolveStream s.cache.len (s.stage.readBlock 0 m)).crc
      cache := { s.cache with trk := s.resolvedTrack (s.stage.readBlock 0 m) } } := by
  unfold wtResolve
  rw [if_neg (by simp [hdd]), if_neg (Nat.not_lt.mpr hm)]
  rfl

theorem wtResolve_refused (m : Nat) {s : State} (h : ¬cachedDoubleDensityDmk s = true) :
    wtResolve m s = .error .notDoubleDensityDmk := if_pos (by simpa using h)

theorem resolvedTrack_stored (s : State) (raw : List Byte) :
    stored s.cache.trk (s.resolvedTrack raw) 256 ((resolved 0xFFFF false raw).1.take (s.cache.len - 256)) := by
  obtain ⟨hout, -⟩ := resolveStream_eq s.cache.len raw
  rw [← hout]
  exact stored_writeBlock ..

/-- A block is the list of the bytes it reads as. -/
theorem readBlock_of_readsAs {m : Memory} {a : Nat} {bs : List Byte} (h : readsAs m a bs) : m.readBlock a bs.length = bs := by
  apply List.ext_getElem
  · simp [Memory.readBlock]
  · intro k _ hk
    simpa [Memory.readBlock] using h k bs[k] (List.getElem?_eq_getElem hk)

theorem readsAs_append {m : Memory} {a : Nat} {xs ys : List Byte} (h : readsAs m a (xs ++ ys)) :
    readsAs m a xs ∧ readsAs m (a + xs.length) ys := by
  constructor
  · intro k b hk
    exact h k b (List.getElem?_append_left (List.getElem?_eq_some_iff.mp hk).1 ▸ hk)
  · intro k b hk
    rw [Nat.add_assoc]
    exact h _ b (by rw [List.getElem?_append_right (Nat.le_add_right ..), Nat.add_sub_cancel_left, hk])

/-! ## One field -/

/-- A byte that stands for itself in a raw stream (rule R99). -/
def isPlain (b : Byte) : Prop := b ≠ 0xF5 ∧ b ≠ 0xF6 ∧ b ≠ 0xF7

/-- The first sync byte of a run presets the register. -/
theorem resolved_first_sync (c : Word16) (r : List Byte) : resolved c false (0xF5 :: r) =
    (0xA1 :: (resolved (crcUpdate .ccitt CrcParams.ccitt.init 0xA1) true r).1,
      (resolved (crcUpdate .ccitt CrcParams.ccitt.init 0xA1) true r).2) := rfl

theorem resolved_next_sync (c : Word16) (r : List Byte) : resolved c true (0xF5 :: r) =
    (0xA1 :: (resolved (crcUpdate .ccitt c 0xA1) true r).1, (resolved (crcUpdate .ccitt c 0xA1) true r).2) := rfl

theorem resolved_plain {b : Byte} (h : isPlain b) (c : Word16) (sync : Bool) (r : List Byte) : resolved c sync (b :: r) =
    (b :: (resolved (crcUpdate .ccitt c b) false r).1, (resolved (crcUpdate .ccitt c b) false r).2) := by
  obtain ⟨h5, h6, h7⟩ := h
  rw [resolved, if_neg h5, if_neg h7, if_neg h6]

/-- The two bytes of the register that 0xF7 puts out (rule R155). -/
def crcPair (c : Word16) : List Byte := [BitVec.ofNat 8 (c.toNat / 256), BitVec.ofNat 8 c.toNat]

theorem crcPair_append (c : Word16) : (BitVec.ofNat 8 (c.toNat / 256) ++ BitVec.ofNat 8 c.toNat : Word16) = c := by
  obtain ⟨hhi, hlo⟩ := crcValue_bytes c
  rw [← hhi, ← hlo, crcValue_ccitt, hi_lo_append]

/-- Plain bytes and a CRC sentinel come out as they are, with the checksum they leave. -/
theorem resolved_plain_crc (bs : List Byte) (h : ∀ b ∈ bs, isPlain b) (c : Word16) (sync : Bool) :
    resolved c sync (bs ++ [0xF7]) = (bs ++ crcPair (crcFeed .ccitt c bs), 0xFFFF) := by
  induction bs generalizing c sync with
  | nil => rfl
  | cons b bs ih =>
    obtain ⟨hb, hbs⟩ := List.forall_mem_cons.mp h
    rw [List.cons_append, resolved_plain hb, ih hbs]
    rfl

/-- A stream that is one field comes out as the field and its checksum. -/
theorem resolved_field {mark : Byte} {payload : List Byte} (h : ∀ b ∈ mark :: payload, isPlain b) :
    (resolved 0xFFFF false ([0xF5, 0xF5, 0xF5, mark] ++ payload ++ [0xF7])).1 =
      [0xA1, 0xA1, 0xA1, mark] ++ payload ++ crcPair (crcOf ([0xA1, 0xA1, 0xA1, mark] ++ payload)) := by
  have hraw : [0xF5, 0xF5, 0xF5, mark] ++ payload ++ [0xF7] = 0xF5 :: 0xF5 :: 0xF5 :: ((mark :: payload) ++ [0xF7]) := rfl
  rw [hraw, resolved_first_sync, resolved_next_sync, resolved_next_sync, resolved_plain_crc _ h]
  simp only [crcOf, crcFeed, List.cons_append, List.nil_append, List.foldl_cons]

theorem resolvedTrack_field {s : State} {mark : Byte} {payload : List Byte} (h : ∀ b ∈ mark :: payload, isPlain b)
    (hroom : 256 + payload.length + 6 ≤ s.cache.len) :
    let field := [0xA1, 0xA1, 0xA1, mark] ++ payload
    let trk := s.resolvedTrack ([0xF5, 0xF5, 0xF5, mark] ++ payload ++ [0xF7])
    readsAs trk 256 field ∧ trk.read (260 + payload.length) ++ trk.read (261 + payload.length) = crcOf field := by
  intro field trk
  have hout : readsAs trk 256 (field ++ crcPair (crcOf field)) := by
    have hst := (resolvedTrack_stored s ([0xF5, 0xF5, 0xF5, mark] ++ payload ++ [0xF7])).1
    rwa [resolved_field h, List.take_of_length_le (by simp [crcPair]; omega)] at hst
  obtain ⟨hfield, hcrc⟩ := readsAs_append hout
  have hlen : 256 + field.length = 260 + payload.length := by simp [field]; omega
  rw [hlen] at hcrc
  have hhi := hcrc 0 _ rfl
  have hlo := hcrc 1 _ rfl
  refine ⟨hfield, ?_⟩
  rw [show 261 + payload.length = 260 + payload.length + 1 by omega, hlo]
  exact (congrArg (· ++ _) hhi).trans (crcPair_append _)

/-- Settles O51: the resolved stream is stored in the body, and a field with its checksum is one such stream. -/
theorem resolvedFieldsCarryTheirChecksum : Obligations.ResolvedFieldsCarryTheirChecksum := by
  refine ⟨fun m s hno => congrArg answer (wtResolve_refused m fun hdd => hno (cachedDoubleDensityDmk_iff.mp hdd)),
    fun m s t hid hf hsd _ hcap => ?_⟩
  have hdd : cachedDoubleDensityDmk s = true := cachedDoubleDensityDmk_iff.mpr ⟨t, hid, hf, hsd⟩
  have hblock : ∀ {raw : List Byte}, raw.length = m → readsAs s.stage 0 raw → s.stage.readBlock 0 m = raw := by
    rintro raw rfl hraw
    exact readBlock_of_readsAs hraw
  refine ⟨_, _, congrArg answer (wtResolve_ok hdd hcap), fun a ha => ?outside, fun raw hlen hraw => ?stream,
    fun mark payload hplain hm hraw hroom => ?field⟩
  case outside =>
    refine (resolvedTrack_stored s _).2 a ?_
    rw [List.length_take]
    omega
  case stream =>
    rw [hblock hlen hraw]
    exact ⟨resolvedTrack_stored s raw, (resolveStream_eq _ raw).2⟩
  case field =>
    rw [hblock (by simp [hm]) hraw]
    exact resolvedTrack_field hplain hroom

end Sys2Proof.Machine
end

section
/-! The CRC unit (40_crc.md): the register's top byte decides what a byte turns it into, and what rules R112, R115 and R116
conclude from that. -/

namespace Sys2Proof.Machine

/-! ## One byte into the register -/

/-- The polynomial enters only where the bit differs from the register's top bit (rule R112). -/
theorem crcBit_topBit {c : Word16} {b : Bool} (h : c.getLsbD 15 = b) : crcBit .ccitt c b = c <<< 1 := by
  subst h
  simp [crcBit]

theorem foldl_crcBit_topBits (bits : List Bool) (c : Word16) (hlen : bits.length ≤ 16)
    (h : ∀ k (hk : k < bits.length), c.getLsbD (15 - k) = bits[k]) : bits.foldl (crcBit .ccitt) c = c <<< bits.length := by
  induction bits generalizing c with
  | nil => simp
  | cons b bits ih =>
    rw [List.length_cons] at hlen
    have htop : c.getLsbD 15 = b := h 0 (Nat.succ_pos _)
    have htail : ∀ k (hk : k < bits.length), (c <<< 1).getLsbD (15 - k) = bits[k] := by
      intro k hk
      have hnext : c.getLsbD (15 - (k + 1)) = bits[k] := h (k + 1) (Nat.succ_lt_succ hk)
      rw [BitVec.getLsbD_shiftLeft, show 15 - k - 1 = 15 - (k + 1) by omega, hnext]
      simp
      omega
    rw [List.foldl_cons, crcBit_topBit htop, ih _ (by omega) htail, ← BitVec.shiftLeft_add, Nat.add_comm, List.length_cons]

/-- The register absorbs its own top byte: the polynomial never enters. -/
theorem crcUpdate_topByte {c : Word16} {b : Byte} (h : c.extractLsb' 8 8 = b) : crcUpdate .ccitt c b = c <<< 8 := by
  subst h
  refine foldl_crcBit_topBits (byteBits .ccitt _) c (Nat.le_add_left 8 8) fun k hk => ?_
  have hk8 : k < 8 := hk
  interval_cases k <;> simp [byteBits, CrcParams.ccitt]

/-- The table form of rule R112: the register is the entry's argument, whose low byte is zero, and a rest whose top byte is `b`. -/
theorem crcUpdate_eq_table (c : Word16) (b : Byte) : crcUpdate .ccitt c b =
    (c <<< 8) ^^^ crcUpdate .ccitt (((c >>> 8) ^^^ b.setWidth 16) <<< 8) 0 := by
  generalize hx : ((c >>> 8) ^^^ b.setWidth 16) <<< 8 = x
  have hrest : (c ^^^ x).extractLsb' 8 8 = b := by
    subst hx
    apply BitVec.eq_of_getLsbD_eq
    intro k hk
    simp [hk, show 8 + k < 16 by omega]
  have hshift : (c ^^^ x) <<< 8 = c <<< 8 := by
    rw [BitVec.shiftLeft_xor_distrib, ← hx, ← BitVec.shiftLeft_add]
    simp
  calc crcUpdate .ccitt c b
    _ = crcUpdate .ccitt ((c ^^^ x) ^^^ x) (b ^^^ 0) := by rw [BitVec.xor_assoc, BitVec.xor_self, BitVec.xor_zero]; simp
    _ = (c <<< 8) ^^^ crcUpdate .ccitt x 0 := by rw [crcUpdate_xor, crcUpdate_topByte hrest, hshift]

/-- Settles O28: the loop is that of `CRC.BYTE`, and the loop in table form. -/
theorem crcByteIsTheTableForm : Obligations.CrcByteIsTheTableForm :=
  fun b s => ⟨rfl, crcUpdate_eq_table s.crc b⟩

/-! ## What a field leaves -/

theorem crcFeed_ownBytes (c : Word16) : crcFeed .ccitt c [c.extractLsb' 8 8, c.extractLsb' 0 8] = 0 := by
  have hlow : (c <<< 8).extractLsb' 8 8 = c.extractLsb' 0 8 := by
    apply BitVec.eq_of_getLsbD_eq
    intro k hk
    simp [show k < 16 by omega, show 8 + k < 16 by omega]
  calc crcUpdate .ccitt (crcUpdate .ccitt c (c.extractLsb' 8 8)) (c.extractLsb' 0 8)
    _ = (c <<< 8) <<< 8 := by rw [crcUpdate_topByte rfl, crcUpdate_topByte hlow]
    _ = 0 := by rw [← BitVec.shiftLeft_add]; simp

theorem crcFeed_eq_zero_iff {c : Word16} {hi lo : Byte} : crcFeed .ccitt c [hi, lo] = 0 ↔ c = hi ++ lo := by
  have hown : crcFeed .ccitt (hi ++ lo) [hi, lo] = 0 := by
    simpa only [BitVec.extractLsb'_append_eq_left, BitVec.extractLsb'_append_eq_right] using crcFeed_ownBytes (hi ++ lo)
  constructor
  · intro hzero
    by_contra hne
    exact crcFeed_ne [hi, lo] hne (hzero.trans hown.symm)
  · rintro rfl
    exact hown

theorem crcOf_append (xs ys : List Byte) : crcOf (xs ++ ys) = crcFeed .ccitt (crcOf xs) ys := crcFeed_append _ _ _ _

/-- Settles O30: the register folds over a concatenation, and only a field's own checksum leaves zero. -/
theorem crcComposesAndLeavesZero : Obligations.CrcComposesAndLeavesZero := by
  have hid : crcOf [0xA1, 0xA1, 0xA1, 0xFE] = 0xB230 := by decide +kernel
  have hdata : crcOf [0xA1, 0xA1, 0xA1, 0xFB] = 0xE295 := by decide +kernel
  have hdeleted : crcOf [0xA1, 0xA1, 0xA1, 0xF8] = 0xD2F6 := by decide +kernel
  refine ⟨crcOf_append, fun ys => ?_, fun ys => ?_, fun ys => ?_, fun bs hi lo => ?_⟩
  · rw [crcOf_append, hid]
  · rw [crcOf_append, hdata]
  · rw [crcOf_append, hdeleted]
  · rw [crcOf_append]
    exact crcFeed_eq_zero_iff

/-- Different bytes leave different registers: the difference of the two stands in the top byte of a register that is fed a 0. -/
theorem crcUpdate_injective (c : Word16) : Function.Injective (crcUpdate .ccitt c) := by
  intro x y h
  have hzero : crcUpdate .ccitt 0 (x ^^^ y) = 0 := by
    have hsum := crcUpdate_xor c c x y
    rwa [h, BitVec.xor_self, BitVec.xor_self] at hsum
  have htop : ((x ^^^ y).setWidth 16 : Word16) <<< 8 = 0 := by
    by_contra hne
    rw [crcUpdate_eq_table] at hzero
    exact crcUpdate_ne_zero hne (by simpa using hzero)
  have hdiff : x ^^^ y = 0 := by
    bv_omega
  exact BitVec.xor_eq_zero_iff.mp hdiff

/-- Settles O31: a changed bit makes two registers differ, and the bytes after it keep them apart. -/
theorem crcDetectsEverySingleBitError : Obligations.CrcDetectsEverySingleBitError := by
  intro xs ys b k
  have hbit : (1#8 <<< k.val) ≠ 0 := by revert k; decide
  have hbyte : b ^^^ (1#8 <<< k.val) ≠ b := fun h => hbit (by simpa using h)
  rw [crcOf_append, crcOf_append]
  exact crcFeed_ne ys ((crcUpdate_injective _).ne hbyte)

/-! ## CRC.READ and CRC.CHECK -/

theorem crcMatches_eq (hi lo : Byte) (s : State) :
    crcMatches hi lo s = decide (s.crc.toNat = 256 * hi.toNat + lo.toNat) := by
  have hvalue : (hi ++ lo : Word16).toNat = 256 * hi.toNat + lo.toNat := by
    rw [BitVec.toNat_append, Nat.shiftLeft_eq, Nat.mul_comm]
    exact (Nat.two_pow_add_eq_or_of_lt lo.isLt _).symm
  unfold crcMatches be16
  rw [crcValue_ccitt, ← hvalue]
  exact decide_eq_decide.mpr BitVec.toNat_eq

theorem crcBytes_eq (s : State) : crcBytes s = (BitVec.ofNat 8 (s.crc.toNat / 256), BitVec.ofNat 8 s.crc.toNat) :=
  Prod.ext (crcValue_bytes s.crc).1 (crcValue_bytes s.crc).2

/-- Settles O27: the preset, the two bytes of the register and the comparison with two stored bytes. -/
theorem crcRegisterPresetReadAndCheck : Obligations.CrcRegisterPresetReadAndCheck := by
  refine fun hi lo s => ⟨rfl, ?_, ?_⟩
  · show execCrcRead s = _
    rw [execCrcRead, crcBytes_eq]
    rfl
  · show execCrcCheck hi lo s = _
    rw [execCrcCheck, crcMatches_eq]
    rfl

end Sys2Proof.Machine
end

section
/-! The unit operations of the DEC unit (rules R125 to R129, R134): what a scan finds, how a mark is classified, what an ID field
and a data field leave when they are captured. -/

namespace Sys2Proof.Machine

/-! ## Scans -/

theorem mem_fmMarks {w : Word16} : w ∈ fmMarks ↔ w = 0xF57E ∨ w = 0xF56F ∨ w = 0xF56A := by
  simp only [fmMarks, List.mem_cons, List.not_mem_nil, or_false]

/-- Settles O34: either answer of either scan. -/
theorem scansFindTheFirstMark : Obligations.ScansFindTheFirstMark := by
  refine ⟨fun side p s => ⟨syncScan s side p, rfl, fun q => syncScan_some, syncScan_none⟩, fun side p s => ?fm⟩
  case fm =>
    simp only [← mem_fmMarks]
    exact ⟨fmScan s side p, rfl, fun q => fmScan_some, fmScan_none⟩

/-! ## DEC.MARK -/

theorem isSync_iff {b : Byte} : isSync b = true ↔ b = 0xA1 ∨ b = 0xF5 := by
  simp only [isSync, Bool.or_eq_true, beq_iff_eq]

/-- Two sync bytes and a mark byte stand, whole, after a sync word at `q` (rules R126, R127). -/
def syncedAt (s : State) (side : Bool) (q : Nat) : Prop :=
  q + 64 ≤ nbits s ∧ (mfmByte s side (q + 16) = 0xA1 ∨ mfmByte s side (q + 16) = 0xF5) ∧
    (mfmByte s side (q + 32) = 0xA1 ∨ mfmByte s side (q + 32) = 0xF5)

theorem markAt_not_synced {s : State} {side : Bool} {q : Nat} (h : ¬syncedAt s side q) : markAt s side q = .fail := by
  by_cases hin : nbits s < q + 16 + 48
  · exact if_pos hin
  · have hsync : (!isSync (mfmByte s side (q + 16)) || !isSync (mfmByte s side (q + 32))) = true := by
      by_contra hno
      rw [Bool.or_eq_true, Bool.not_eq_true', Bool.not_eq_true', not_or, Bool.not_eq_false, Bool.not_eq_false, isSync_iff,
        isSync_iff] at hno
      exact h ⟨by omega, hno⟩
    exact (if_neg hin).trans (if_pos hsync)

theorem markAt_synced {s : State} {side : Bool} {q : Nat} (h : syncedAt s side q) : markAt s side q =
    if mfmByte s side (q + 48) = 0xFE then .id (mfmByte s side (q + 16)) (mfmByte s side (q + 32))
    else if mfmByte s side (q + 48) = 0xFB ∨ mfmByte s side (q + 48) = 0xF8 then
      .data (mfmByte s side (q + 16)) (mfmByte s side (q + 32)) (mfmByte s side (q + 48))
    else .fail := by
  obtain ⟨hin, h1, h2⟩ := h
  unfold markAt
  rw [← isSync_iff] at h1 h2
  rw [if_neg (by omega)]
  simp only [Nat.add_assoc, Nat.reduceAdd, h1, h2, Bool.not_true, Bool.or_self, Bool.false_eq_true, if_false, beq_iff_eq,
    Bool.or_eq_true]

/-- Settles O35: without the two sync bytes nothing is a mark, and after them the third byte decides. -/
theorem markIsClassifiedByThreeBytes : Obligations.MarkIsClassifiedByThreeBytes := by
  intro side q s b1 b2 b3 synced gives
  have hgives : ∀ {m}, markAt s side q = m → gives m := by
    rintro m rfl
    rfl
  refine ⟨fun ⟨hs, hid⟩ => hgives ?id, fun ⟨hs, hdata⟩ => hgives ?data, fun hno => hgives ?fail⟩
  case id => rw [markAt_synced hs, if_pos hid]
  case data =>
    have hid : b3 ≠ 0xFE := by rcases hdata with h | h <;> rw [h] <;> decide
    rw [markAt_synced hs, if_neg hid, if_pos hdata]
  case fail =>
    by_cases hs : synced
    · obtain ⟨hid, hfb, hf8⟩ := hno.resolve_left (not_not_intro hs)
      rw [markAt_synced hs, if_neg hid, if_neg (not_or.mpr ⟨hfb, hf8⟩)]
    · exact markAt_not_synced hs

/-! ## A captured field in TRK -/

/-- The bytes before a field and the decoded bytes after them, written at the cursor (rules R128, R129, R131). -/
theorem field_written (m : Memory) (wp : Nat) (head : List Byte) (get : Nat → Byte) (f n : Nat) :
    let m' := m.writeBlock wp (head ++ decodedBytes get f 16 n)
    readsAs m' wp head ∧ (∀ k, k < n → m'.read (wp + head.length + k) = get (f + 16 * k)) ∧
      agreeOutside m m' wp (head.length + n) := by
  intro m'
  obtain ⟨hreads, hrest⟩ := stored_writeBlock m wp (head ++ decodedBytes get f 16 n)
  rw [List.length_append, decodedBytes_length] at hrest
  obtain ⟨hhead, hbody⟩ := readsAs_append hreads
  refine ⟨hhead, fun k hk => hbody k _ ?_, hrest⟩
  simp [decodedBytes, hk, Nat.mul_comm]

/-! ## DEC.IDFIELD -/

theorem idField_captures {side : Bool} {q : Nat} {b1 b2 : Byte} {s : State} {n : Fin 128} (hn : n.val = s.dec.n)
    (hbits : q + 160 ≤ nbits s) (hroom : s.dec.wp + 10 ≤ s.cfg.trkCap) : idField side q b1 b2 s =
      (some (q + 160), recordId s n ([0xA1, b1, b2, 0xFE] ++ decodedBytes (mfmByte s side) (q + 64) 16 6) (s.dec.wp + 3)) := by
  rcases idField_cases side q b1 b2 s with ⟨n', hid, hn', -⟩ | ⟨-, hno⟩
  · rwa [Fin.ext (hn'.trans hn.symm)] at hid
  · exact absurd ⟨hbits, hroom, hn ▸ n.isLt⟩ hno

theorem idField_fails {side : Bool} {q : Nat} {b1 b2 : Byte} {s : State}
    (h : ¬(q + 160 ≤ nbits s ∧ s.dec.wp + 10 ≤ s.cfg.trkCap ∧ s.dec.n < 128)) : idField side q b1 b2 s = (none, dropId s) := by
  rcases idField_cases side q b1 b2 s with ⟨n, -, hn, hbits, hroom⟩ | ⟨hid, -⟩
  · exact absurd ⟨hbits, hroom, hn ▸ n.isLt⟩ h
  · exact hid

theorem exec_decIdfield_eq {side : Bool} {q : Nat} {b1 b2 : Byte} {s t : State} {r : Option Nat}
    (h : idField side q b1 b2 s = (r, t)) : exec (.decIdfield side q b1 b2) s = .next (t.answered (.position r)) := by
  show execDecIdfield side q b1 b2 s = _
  rw [execDecIdfield, h]
  rfl

/-- Settles O36: a field that fits is written at the cursor; one that does not only forgets the slot of a full table. -/
theorem idFieldIsCaptured : Obligations.IdFieldIsCaptured := by
  intro side q b1 b2 s fits
  refine ⟨fun n hn ⟨hbits, hroom⟩ => ⟨_, exec_decIdfield_eq (idField_captures hn hbits hroom), field_written ..⟩,
    fun hn hno => ?nofit, fun hn => ?full⟩
  case nofit =>
    rw [exec_decIdfield_eq (idField_fails fun ⟨hbits, hroom, _⟩ => hno ⟨hbits, hroom⟩), dropId, if_neg (Nat.not_le.mpr hn)]
  case full =>
    rw [exec_decIdfield_eq (idField_fails fun ⟨_, _, hlt⟩ => Nat.not_le.mpr hlt hn), dropId, if_pos hn]

/-! ## DEC.DATAFIELD -/

section Current
variable {side : Bool} {q : Nat} {b1 b2 b3 : Byte} {s : State} {c : Fin 128}

theorem dataField_no_slot (hc : s.dec.cur = none) : dataField side q b1 b2 b3 s = .ok (none, s) := by
  simp only [dataField, hc]

theorem dataField_taken (hc : s.dec.cur = some c) (hd : s.cache.dam[c] ≠ none) :
    dataField side q b1 b2 b3 s = .ok (none, s) := by
  simp only [dataField, hc, if_pos hd]

theorem dataField_size_outside (hc : s.dec.cur = some c) (hd : s.cache.dam[c] = none)
    (hout : s.cfg.trkCap ≤ s.cache.idam[c] + 4) : dataField side q b1 b2 b3 s = .error .outOfBounds := by
  have hsize : dataSize s c = .error .outOfBounds := if_neg (Nat.not_lt.mpr hout)
  simp only [dataField, hc, if_neg (not_not_intro hd), hsize]
  rfl

theorem dataField_open (hc : s.dec.cur = some c) (hd : s.cache.dam[c] = none) (hin : s.cache.idam[c] + 4 < s.cfg.trkCap) :
    dataField side q b1 b2 b3 s =
      if q + 64 + 16 * (slotSize s.cache c + 2) ≤ nbits s ∧ s.dec.wp + 4 + slotSize s.cache c + 2 ≤ s.cfg.trkCap then
        .ok (some (q + 64 + 16 * (slotSize s.cache c + 2)), recordData s c
          ([0xA1, b1, b2, b3] ++ decodedBytes (mfmByte s side) (q + 64) 16 (slotSize s.cache c + 2)) (s.dec.wp + 3))
      else .ok (none, s) := by
  simp only [dataField, hc, if_neg (not_not_intro hd), dataSize_ok hin]
  rfl

end Current

theorem exec_decDatafield_eq {side : Bool} {q : Nat} {b1 b2 b3 : Byte} {s t : State} {r : Option Nat}
    (h : dataField side q b1 b2 b3 s = .ok (r, t)) :
    exec (.decDatafield side q b1 b2 b3) s = .next (t.answered (.position r)) := by
  show execDecDatafield side q b1 b2 b3 s = _
  rw [execDecDatafield, h]
  rfl

/-- Settles O37: the current slot is missing, taken, out of the buffer, or open; an open slot takes the field that fits. -/
theorem dataFieldIsCapturedOnce : Obligations.DataFieldIsCapturedOnce := by
  intro side q b1 b2 b3 s fails
  refine ⟨fun hc => exec_decDatafield_eq (dataField_no_slot hc), fun c hc hd => exec_decDatafield_eq (dataField_taken hc hd),
    fun c hc hd hout => ?outside, fun c hc hd hin => ⟨fun hno => ?nofit, fun hfits => ?fits⟩⟩
  case outside =>
    show execDecDatafield side q b1 b2 b3 s = _
    rw [execDecDatafield, dataField_size_outside hc hd hout]
    rfl
  case nofit => exact exec_decDatafield_eq ((dataField_open hc hd hin).trans (if_neg hno))
  case fits =>
    have hwritten := field_written s.cache.trk s.dec.wp [0xA1, b1, b2, b3] (mfmByte s side) (q + 64) (slotSize s.cache c + 2)
    refine ⟨_, (exec_decDatafield_eq ((dataField_open hc hd hin).trans (if_pos hfits))).trans ?_, hwritten⟩
    have hlen : ([0xA1, b1, b2, b3] ++ decodedBytes (mfmByte s side) (q + 64) 16 (slotSize s.cache c + 2)).length =
        4 + slotSize s.cache c + 2 := by
      rw [List.length_append, decodedBytes_length]
      rfl
    rw [recordData, hlen, ← Nat.add_assoc, ← Nat.add_assoc]
    rfl

end Sys2Proof.Machine
end

section
/-! A decoded side (rules R131, R132, R135): where its fields lie in TRK, and where in the flux they come from. -/

namespace Sys2Proof.Machine

/-- The slots in use lie in rising order in the body of the track, each data field between its own ID field and the next one's. -/
theorem Layout.ordered {pre : Nat} {s : State} (h : Layout pre s) {i : Fin 128} (hi : i.val < s.dec.n) :
    256 + pre ≤ s.cache.idam[i] ∧ s.cache.idam[i] + 7 ≤ s.dec.wp ∧
      (∀ d, s.cache.dam[i] = some d → s.cache.idam[i] + 7 + pre ≤ d ∧ d < s.dec.wp) ∧
      ∀ j : Fin 128, i.val + 1 = j.val → j.val < s.dec.n →
        s.cache.idam[i] < s.cache.idam[j] ∧ ∀ d, s.cache.dam[i] = some d → d + pre < s.cache.idam[j] := by
  obtain ⟨hlow, hhigh⟩ := h.id i hi
  refine ⟨hlow, hhigh, fun d hd => ?_, fun j hij hj => ⟨?_, fun d hd => ?_⟩⟩
  · obtain ⟨hafter, hend⟩ := h.data i d hi hd
    exact ⟨hafter, by omega⟩
  · have hnext := (h.order i j hij hj).1
    omega
  · have hnext := (h.order i j hij hj).2 d hd
    omega

/-! ## DEC.TRACK -/

/-- What `DEC.TRACK` leaves is the end of its loop (rule R130). -/
theorem decTrack_leaves {side : Bool} {s t : State} (h : exec (.decTrack side) s = .next t) :
    ∃ u, t = endDecode 3 u ∧ LoopInv (startDecode side .mfm s) u ∧ Layout 3 u ∧
      AllFromFlux (startDecode side .mfm s) side u ∧ syncScan u side u.dec.p = none := by
  obtain ⟨u, hdec, -, hinv, hlay, hflux, hend⟩ := decodeTrack_fields side s
  have hrun : decodeTrack side s = .ok t := answer_eq_next.mp h
  exact ⟨u, Except.ok.inj (hrun.symm.trans hdec), hinv, hlay, hflux, hend⟩

/-- Settles O39: the layout of the slots in use; the others are as the loop found them. -/
theorem decodedTrackIsOrdered : Obligations.DecodedTrackIsOrdered := by
  intro side s t h i
  obtain ⟨u, rfl, hinv, hlay, -, -⟩ := decTrack_leaves h
  refine ⟨fun hi => ?_, hinv.empty i⟩
  obtain ⟨hlow, hhigh, hdata, hnext⟩ := hlay.ordered hi
  refine ⟨hlow, hhigh, fun d hd => ?_, fun j hij hj => ⟨(hnext j hij hj).1, fun d hd => ?_⟩⟩
  · obtain ⟨hafter, hend⟩ := hdata d hd
    exact ⟨Nat.le_sub_of_add_le hafter, hend⟩
  · have hbefore := (hnext j hij hj).2 d hd
    exact Nat.lt_sub_of_add_lt hbefore

/-- Settles O40: the places the loop took the slots from, and that it ends past every sync word. -/
theorem everyDecodedFieldIsInTheFlux : Obligations.EveryDecodedFieldIsInTheFlux := by
  intro side s t h
  obtain ⟨u, rfl, hinv, -, ⟨head, body, last, hslots, hmet⟩, hend⟩ := decTrack_leaves h
  refine ⟨head, body, last, fun i hi => ?slot, fun hfree hroom q b1 b2 hsync hmark hin => ?met⟩
  case slot =>
    obtain ⟨hfrom, -, hnext⟩ := hslots i hi
    exact ⟨hfrom.sync, hfrom.mark, hfrom.first, hfrom.fe, hfrom.bytes, hfrom.data, hfrom.stop, hnext⟩
  case met =>
    have hpassed : q < u.dec.p := by
      by_contra hleft
      have hbits : q + 16 ≤ nbits u := by rw [hinv.nbits]; exact Nat.le_trans (by omega) hin
      exact syncScan_none hend q (Nat.not_lt.mp hleft) hbits ((wordAt_congr hinv.flux hinv.fluxLen side q).trans hsync)
    exact hmet q b1 b2 hpassed hsync hmark hin hfree hroom

/-! ## DEC.FMTRACK -/

/-- Settles O41: the loop's invariant at its end, the loop as a run of turns, and the layout of its fields. -/
theorem decodingAnFmTrackCompletesInOrder : Obligations.DecodingAnFmTrackCompletesInOrder := by
  intro side s hcap
  obtain ⟨t, hdec, hloop, hinv, hlay, hmarks, hend⟩ := decodeFmTrack_fields side s
  refine ⟨(endDecode 0 t).cache, t.dec, ?run,
    ⟨s.cache.trk.clear 0 256, t, ?cleared, fmLoop_turned _ _ _ (LoopInv.start side .fm s) hloop, fun h0 => ?last, rfl, rfl⟩,
    ?ident, hinv.low, hinv.wp_le_trkCap hcap, hinv.count, hinv.zero, fun a => hinv.beyond_start,
    fun h0 q hp hin => ?scanned, fun i => ⟨fun hi => ?used, hinv.empty i⟩⟩
  case run =>
    show answer (decodeFmTrack side s) = _
    rw [hdec, answer_ok, decode_frame hinv]
  case cleared =>
    intro a
    rw [Memory.read_clear]
    simp only [Nat.zero_le, true_and, Nat.zero_add]
  case last =>
    show tell (.position (fmScan t side t.dec.p)) t = _
    rw [hend h0]
    rfl
  case ident => rw [decode_frame hinv]
  case scanned =>
    have hword : fmWordAt t side q = fmWordAt s side q := fmWordAt_congr hinv.flux hinv.fluxLen hinv.cfg side q
    have hno : fmWordAt t side q ∉ fmMarks := fmScan_none (hend h0) q hp (by rw [hinv.nbits, hinv.cfg]; exact hin)
    rwa [hword, mem_fmMarks, not_or, not_or] at hno
  case used =>
    obtain ⟨hlow, hhigh, hdata, hnext⟩ := hlay.ordered hi
    obtain ⟨hfe, hmark⟩ := hmarks i hi
    exact ⟨hlow, hhigh, hfe, fun x hx => ⟨(hdata x hx).1, (hdata x hx).2, hmark x hx⟩, hnext⟩

end Sys2Proof.Machine
end

section
/-! The reference encoders (rules R137 to R139): which bit of their output is which bit of the byte they were given. -/

namespace Sys2Proof.Machine

theorem bitsMsb_getD (b : Byte) (j : Nat) (hj : j < 8) : (bitsMsb b).getD (7 - j) false = b.getLsbD j := by
  interval_cases j <;> rfl

/-- A window splits into the bits at its odd and at its even places, from the last one back (rules R97, R123). -/
theorem mfmData_window_bit (bit : Nat → Bool) (j : Nat) (hj : j < 8) :
    (mfmData (window bit)).getLsbD j = bit (2 * (7 - j) + 1) := by
  rw [mfmData_bit _ j hj, show 2 * j = 15 - (2 * (7 - j) + 1) by omega, window_bit bit _ (by omega)]

theorem mfmClock_window_bit (bit : Nat → Bool) (j : Nat) (hj : j < 8) :
    (mfmClock (window bit)).getLsbD j = bit (2 * (7 - j)) := by
  rw [mfmClock_bit _ j hj, show 2 * j + 1 = 15 - 2 * (7 - j) by omega, window_bit bit _ (by omega)]

/-! ## MFM -/

/-- The second bit of every pair is the data bit, whatever the clock bits before it. -/
theorem mfmPairs_data (prev : Bool) (ds : List (Bool × Bool)) (k : Nat) :
    (mfmPairs prev ds).getD (2 * k + 1) false = (ds.map Prod.fst).getD k false := by
  induction ds generalizing prev k with
  | nil => rfl
  | cons d ds ih =>
    cases k with
    | zero => rfl
    | succ k => exact ih d.1 k

theorem mfmEncode_data (prev : Bool) (b skip : Byte) (j : Nat) (hj : j < 8) :
    (mfmEncode prev b skip).getD (2 * (7 - j) + 1) false = b.getLsbD j := by
  have hlen : (bitsMsb b).length ≤ (bitsMsb skip).length := Nat.le_refl 8
  rw [mfmEncode, mfmPairs_data, List.map_fst_zip hlen, bitsMsb_getD b j hj]

/-! ## FM -/

/-- The half-cells of an FM byte, without the zeros between them (rule R138). -/
def fmCells (b clock : Byte) : List Bool := ((bitsMsb clock).zip (bitsMsb b)).flatMap fun cd => [cd.1, cd.2]

theorem fmCells_bits (b clock : Byte) (j : Nat) (hj : j < 8) :
    (fmCells b clock).getD (2 * (7 - j)) false = clock.getLsbD j ∧ (fmCells b clock).getD (2 * (7 - j) + 1) false = b.getLsbD j := by
  interval_cases j <;> exact ⟨rfl, rfl⟩

/-- Reading one bit every `n + 1` finds the bits that `n` zeros each were put after. -/
theorem spaced_getD (n : Nat) (xs : List Bool) (k : Nat) :
    (xs.flatMap fun x => x :: List.replicate n false).getD (k * (n + 1)) false = xs.getD k false := by
  induction xs generalizing k with
  | nil => rfl
  | cons x xs ih =>
    cases k with
    | zero => simp
    | succ k =>
      have hlen : (x :: List.replicate n false).length = n + 1 := by simp
      rw [List.flatMap_cons, Nat.succ_mul, List.getD_append_right _ _ _ _ (by omega), hlen, Nat.add_sub_cancel, ih]
      rfl

theorem fmEncode_getD {stride : Nat} (h : 0 < stride) (b clock : Byte) (k : Nat) :
    (fmEncode stride b clock).getD (k * stride) false = (fmCells b clock).getD k false := by
  obtain ⟨n, rfl⟩ := Nat.exists_eq_add_of_lt h
  rw [Nat.zero_add]
  exact spaced_getD n _ k

/-- Settles O42: bit by bit, in either encoding. -/
theorem encodedBytesReadBack : Obligations.EncodedBytesReadBack := by
  refine ⟨fun prev b skip => BitVec.eq_of_getLsbD_eq fun j hj => ?mfm, fun stride b clock hstride => ?fm⟩
  case mfm => exact (mfmData_window_bit _ j hj).trans (mfmEncode_data prev b skip j hj)
  case fm =>
    have hpos : 0 < stride := by omega
    refine ⟨?_, BitVec.eq_of_getLsbD_eq fun j hj => ?_, BitVec.eq_of_getLsbD_eq fun j hj => ?_⟩
    · rcases hstride with rfl | rfl <;> rfl
    · rw [mfmData_window_bit _ j hj, fmEncode_getD hpos]
      exact (fmCells_bits b clock j hj).2
    · rw [mfmClock_window_bit _ j hj, fmEncode_getD hpos]
      exact (fmCells_bits b clock j hj).1

end Sys2Proof.Machine
end

section
/-! SCAN.ENSURE (rule R142), the checks over a field and the generated checksum (rules R151 to R154), and that the sector operations
read only the cache (rule R158). -/

namespace Sys2Proof.Machine

/-! ## SCAN.ENSURE -/

/-- Settles O46: what a load leaves is `loadTrack_spec`; the identity alone decides whether there is one. -/
theorem ensureLoadsOnlyOnMismatch : Obligations.EnsureLoadsOnlyOnMismatch := by
  intro d side track s
  obtain ⟨hloads, hrefused⟩ := loadTrack_spec d side track s
  refine ⟨fun hid => ?cached, fun hid => ?other, fun hl => ?loads, fun hl => congrArg (tellWith .loaded) (hrefused hl)⟩
  case cached => exact congrArg (tellWith .loaded) (if_pos hid)
  case other => exact congrArg (tellWith .loaded) (if_neg hid)
  case loads =>
    obtain ⟨ok, u, hload, hframe, hleft⟩ := hloads hl
    refine ⟨ok, u, congrArg (tellWith .loaded) hload, hframe, hleft.named, fun hfail => ?_⟩
    obtain ⟨hid, hidam, hdam⟩ := hleft.failed hfail
    rw [hidam, hdam]
    exact ⟨hid, fun i => ⟨emptyIdam_get i, emptyDam_get i⟩⟩

/-! ## The checks over a field -/

/-- Slot `i` has its data mark at `d` and a view (rule R150). -/
structure Cache.Shows (c : Cache) (i : Fin 128) (d : Nat) : Prop where
  mark : c.dam[i] = some d
  code : c.idam[i] + 4 < c.len
  body : 256 + c.pfx ≤ d
  room : d + 1 + slotSize c i + 2 ≤ c.len

theorem sectorView_of_shows {s : State} {i : Fin 128} {d : Nat} (h : s.cache.Shows i d) :
    sectorView s i = .ok (some ⟨slotSize s.cache i, d + 1, s.cache.trk.read d⟩) := by
  have hbody := h.body
  have hroom := h.room
  rw [sectorView_some h.mark h.code, if_neg (by omega)]

/-- The two bytes after a payload, as the field's stored checksum. -/
def Cache.storedSum (c : Cache) (d size : Nat) : Word16 := c.trk.read (d + 1 + size) ++ c.trk.read (d + 2 + size)

theorem exec_scanDatacrcCheck_ok {s : State} {i : Fin 128} {d : Nat} (h : s.cache.Shows i d) :
    exec (.scanDatacrcCheck i) s =
      .next (State.answered { s with crc := dataSum s.cache d (slotSize s.cache i) }
        (.bool (decide (dataSum s.cache d (slotSize s.cache i) = s.cache.storedSum d (slotSize s.cache i))))) :=
  congrArg (tellWith .bool) (dataCrcCheck_ok (sectorView_of_shows h) h.mark)

theorem dataCrcCheck_no_view {s : State} {i : Fin 128} (h : sectorView s i = .ok none) :
    dataCrcCheck i s = .error .noSectorView := by
  unfold dataCrcCheck
  rw [h]
  rfl

theorem dataCrcGen_no_view {s : State} {i : Fin 128} (h : sectorView s i = .ok none) :
    dataCrcGen i s = .error .noSectorView := by
  unfold dataCrcGen
  rw [h]
  rfl

/-- Without a view both operations on the data field are refused (log 36). -/
theorem exec_data_no_view {s : State} {i : Fin 128} (h : sectorView s i = .ok none) :
    exec (.scanDatacrcCheck i) s = .refused .noSectorView ∧ exec (.scanDatacrcGen i) s = .refused .noSectorView :=
  ⟨congrArg (tellWith .bool) (dataCrcCheck_no_view h), congrArg answer (dataCrcGen_no_view h)⟩

/-- Settles O49: the check of either field runs over the field and compares with what is stored after it. -/
theorem fieldChecksCompareTheStoredBytes : Obligations.FieldChecksCompareTheStoredBytes := by
  refine ⟨fun i s hlow hhigh => congrArg (tellWith .bool) (idCrcCheck_ok hlow hhigh), fun i s => ?_⟩
  refine ⟨fun hd => exec_data_no_view (sectorView_none hd), fun d hd hc => ⟨fun hout => ?_, fun hlow hhigh => ?_⟩⟩
  · exact exec_data_no_view ((sectorView_some hd hc).trans (congrArg _ (if_pos hout)))
  · exact exec_scanDatacrcCheck_ok ⟨hd, hc, hlow, hhigh⟩

/-! ## The generated checksum -/

theorem Cache.bytes_congr {c c' : Cache} {a n : Nat} (h : ∀ k, k < a + n → c'.trk.read k = c.trk.read k) :
    c'.bytes a n = c.bytes a n :=
  List.map_congr_left fun k hk => h (a + k) (Nat.add_lt_add_left (List.mem_range.mp hk) a)

/-- The two bytes of a checksum, high byte first. -/
def sumBytes (c : Word16) : List Byte := [c.extractLsb' 8 8, c.extractLsb' 0 8]

/-- The cache with the checksum of slot `i`'s data field written after the payload (rule R153). -/
def Cache.withSum (c : Cache) (i : Fin 128) (d : Nat) : Cache :=
  { c with trk := c.trk.writeBlock (d + 1 + slotSize c i) (sumBytes (dataSum c d (slotSize c i))) }

theorem exec_scanDatacrcGen_ok {s : State} {i : Fin 128} {d : Nat} (h : s.cache.Shows i d) :
    exec (.scanDatacrcGen i) s =
      .next { s with crc := dataSum s.cache d (slotSize s.cache i), cache := s.cache.withSum i d } :=
  congrArg answer (dataCrcGen_ok (sectorView_of_shows h) h.mark)

theorem Cache.withSum_stored (c : Cache) (i : Fin 128) (d : Nat) :
    stored c.trk (c.withSum i d).trk (d + 1 + slotSize c i) (sumBytes (dataSum c d (slotSize c i))) := stored_writeBlock ..

theorem Cache.withSum_storedSum (c : Cache) (i : Fin 128) (d : Nat) :
    (c.withSum i d).storedSum d (slotSize c i) = dataSum c d (slotSize c i) := by
  obtain ⟨hread, -⟩ := c.withSum_stored i d
  unfold Cache.storedSum
  rw [show d + 2 + slotSize c i = d + 1 + slotSize c i + 1 by omega, hread 1 _ rfl]
  exact (congrArg (· ++ _) (hread 0 _ rfl)).trans (hi_lo_append _)

theorem slotSize_ge (c : Cache) (i : Fin 128) : 128 ≤ slotSize c i :=
  Nat.le_mul_of_pos_right 128 (Nat.two_pow_pos _)

section BeforeTheMark
variable {c : Cache} {i : Fin 128} {d : Nat} (hid : c.idam[i] ≤ d)
include hid

/-- The size code stands before the stored checksum. -/
theorem Cache.slotSize_withSum : slotSize (c.withSum i d) i = slotSize c i := by
  have hsize := slotSize_ge c i
  have hcode : (c.withSum i d).trk.read (c.idam[i] + 4) = c.trk.read (c.idam[i] + 4) :=
    (c.withSum_stored i d).2 _ (.inl (by omega))
  unfold slotSize
  rw [← hcode]
  rfl

theorem Cache.Shows.withSum (h : c.Shows i d) : (c.withSum i d).Shows i d :=
  ⟨h.mark, h.code, h.body, (Cache.slotSize_withSum hid).symm ▸ h.room⟩

end BeforeTheMark

/-- The checksum is not taken over the bytes it is stored in. -/
theorem dataSum_withSum {c : Cache} {i : Fin 128} {d : Nat} (hd : c.pfx ≤ d) :
    dataSum (c.withSum i d) d (slotSize c i) = dataSum c d (slotSize c i) :=
  congrArg crcOf (Cache.bytes_congr fun k hk => (c.withSum_stored i d).2 k (.inl (by
    change k < d - c.pfx + (c.pfx + 1 + slotSize c i) at hk
    omega)))

/-- Settles O50: the stored bytes are the checksum, and neither the size code nor the field is among them. -/
theorem generatedChecksumPassesTheCheck : Obligations.GeneratedChecksumPassesTheCheck := by
  intro i s d hmark hid hcode size hbody hroom
  have hshows : s.cache.Shows i d := ⟨hmark, hcode, hbody, hroom⟩
  refine ⟨(s.cache.withSum i d).trk, exec_scanDatacrcGen_ok hshows, s.cache.withSum_storedSum i d, (s.cache.withSum_stored i d).2, ?_⟩
  have hsum : dataSum (s.cache.withSum i d) d (slotSize s.cache i) = dataSum s.cache d (slotSize s.cache i) :=
    dataSum_withSum (by omega)
  have hcheck := exec_scanDatacrcCheck_ok
    (s := { s with crc := dataSum s.cache d (slotSize s.cache i), cache := s.cache.withSum i d }) (hshows.withSum hid)
  simp only [Cache.slotSize_withSum hid, hsum, Cache.withSum_storedSum, decide_true] at hcheck
  exact hcheck

/-! ## Format independence (rule R158) -/

/-- Two machines are answered alike: refused for the same reason, or given the same answer, checksum and cache. -/
inductive AnsweredAlike (s s' : State) : Host.Outcome State Fault Refusal → Host.Outcome State Fault Refusal → Prop
  | refused (r : Refusal) : AnsweredAlike s s' (.refused r) (.refused r)
  | told (r : Result) : AnsweredAlike s s' (.next (s.answered r)) (.next (s'.answered r))
  | checked (c : Word16) (r : Result) :
      AnsweredAlike s s' (.next (State.answered { s with crc := c } r)) (.next (State.answered { s' with crc := c } r))
  | generated (c : Word16) (k : Cache) :
      AnsweredAlike s s' (.next { s with crc := c, cache := k }) (.next { s' with crc := c, cache := k })

theorem AnsweredAlike.refused_iff {s s' : State} {o o' : Host.Outcome State Fault Refusal} (h : AnsweredAlike s s' o o')
    (r : Refusal) : o = .refused r ↔ o' = .refused r := by
  cases h with
  | refused => exact Iff.rfl
  | told | checked | generated => exact ⟨nofun, nofun⟩

theorem AnsweredAlike.next_alike {s s' : State} {o o' : Host.Outcome State Fault Refusal} (h : AnsweredAlike s s' o o')
    (hcache : s.cache = s'.cache) {t t' : State} (ht : o = .next t) (ht' : o' = .next t') :
    t.cache = t'.cache ∧ (t.crc = t'.crc ∨ t.crc = s.crc ∧ t'.crc = s'.crc) ∧
      ∀ e, t.events = e :: s.events → t'.events = e :: s'.events := by
  cases h with
  | refused => cases ht
  | told r =>
    cases ht
    cases ht'
    exact ⟨hcache, .inr ⟨rfl, rfl⟩, fun e he => congrArg (· :: _) (List.cons.inj he).1⟩
  | checked c r =>
    cases ht
    cases ht'
    exact ⟨hcache, .inl rfl, fun e he => congrArg (· :: _) (List.cons.inj he).1⟩
  | generated c k =>
    cases ht
    cases ht'
    exact ⟨rfl, .inl rfl, fun e he => absurd he.symm (List.cons_ne_self e _)⟩

/-- A check over a field that does not lie in the track with its stored bytes. -/
theorem checkField_outside {s : State} {start len stored : Nat}
    (h : ¬(start + len ≤ s.cache.len ∧ stored + 1 < s.cache.len)) : checkField start len stored s = .error .outOfBounds := by
  unfold checkField crcRangeOp
  by_cases hrange : start + len ≤ s.cache.len
  · have hlow : ¬stored + 1 < s.cache.len := fun hlow => h ⟨hrange, hlow⟩
    rw [if_pos (show start + len ≤ spaceLen s .trk from hrange)]
    simp only [trkRead, bind, Except.bind, if_neg hlow]
    by_cases hhigh : stored < s.cache.len
    · rw [if_pos hhigh]
    · rw [if_neg hhigh]
  · exact congrArg (· >>= _) (if_neg hrange)

section SameCache
variable {s s' : State} (h : s.cache = s'.cache)
include h

theorem trkRead_congr (a : Nat) : trkRead s a = trkRead s' a := by
  unfold trkRead
  rw [h]

theorem slotMatches_congr (track side sector : Byte) (i : Fin 128) :
    slotMatches s track side sector i = slotMatches s' track side sector i := by
  simp only [slotMatches, trkRead_congr h, h]

theorem findIn_congr (track side sector : Byte) (l : List (Fin 128)) :
    findIn s track side sector l = findIn s' track side sector l := by
  induction l with
  | nil => rfl
  | cons i r ih => simp only [findIn, slotMatches_congr h, ih]

theorem sectorView_congr (i : Fin 128) : sectorView s i = sectorView s' i := by
  simp only [sectorView, trkRead_congr h, h]

theorem checkField_alike (start len stored : Nat) :
    AnsweredAlike s s' (tellWith .bool (checkField start len stored s)) (tellWith .bool (checkField start len stored s')) := by
  by_cases hin : start + len ≤ s.cache.len ∧ stored + 1 < s.cache.len
  · obtain ⟨hrange, hlow⟩ := hin
    have hbytes : s.cache.bytes = s'.cache.bytes := congrArg Cache.bytes h
    have htrk : s.cache.trk = s'.cache.trk := congrArg Cache.trk h
    rw [checkField_ok hrange hlow, checkField_ok (h ▸ hrange) (h ▸ hlow), hbytes, htrk]
    exact .checked _ _
  · rw [checkField_outside hin, checkField_outside (h ▸ hin)]
    exact .refused _

theorem scanFind_alike (track side sector : Byte) :
    AnsweredAlike s s' (exec (.scanFind track side sector) s) (exec (.scanFind track side sector) s') := by
  show AnsweredAlike s s' (execScanFind track side sector s) (execScanFind track side sector s')
  unfold execScanFind findSector
  rw [findIn_congr h]
  cases findIn s' track side sector (List.finRange 128) with
  | error r => exact .refused r
  | ok i => exact .told (.slot i)

theorem scanFirstidam_alike : AnsweredAlike s s' (exec .scanFirstidam s) (exec .scanFirstidam s') := by
  have hfirst : firstIdam s = firstIdam s' := by simp only [firstIdam, h]
  show AnsweredAlike s s' (tell (.slot (firstIdam s)) s) (tell (.slot (firstIdam s')) s')
  rw [hfirst]
  exact .told _

theorem scanView_alike (i : Fin 128) : AnsweredAlike s s' (exec (.scanView i) s) (exec (.scanView i) s') := by
  cases hv : sectorView s' i with
  | error r =>
    rw [exec_scanView_error hv, exec_scanView_error ((sectorView_congr h i).trans hv)]
    exact .refused r
  | ok v =>
    rw [exec_scanView_ok hv, exec_scanView_ok ((sectorView_congr h i).trans hv)]
    exact .told _

theorem scanIdcrcCheck_alike (i : Fin 128) :
    AnsweredAlike s s' (exec (.scanIdcrcCheck i) s) (exec (.scanIdcrcCheck i) s') := by
  show AnsweredAlike s s' (tellWith .bool (idCrcCheck i s)) (tellWith .bool (idCrcCheck i s'))
  unfold idCrcCheck
  rw [h]
  simp only
  split
  · exact .refused _
  · exact checkField_alike h ..

theorem scanDatacrcCheck_alike (i : Fin 128) :
    AnsweredAlike s s' (exec (.scanDatacrcCheck i) s) (exec (.scanDatacrcCheck i) s') := by
  show AnsweredAlike s s' (tellWith .bool (dataCrcCheck i s)) (tellWith .bool (dataCrcCheck i s'))
  unfold dataCrcCheck
  rw [sectorView_congr h, h]
  match sectorView s' i with
  | .error r => exact .refused r
  | .ok none => exact .refused _
  | .ok (some v) => exact checkField_alike h ..

theorem scanDatacrcGen_alike (i : Fin 128) :
    AnsweredAlike s s' (exec (.scanDatacrcGen i) s) (exec (.scanDatacrcGen i) s') := by
  show AnsweredAlike s s' (answer (dataCrcGen i s)) (answer (dataCrcGen i s'))
  match hv : sectorView s' i with
  | .error r =>
    simp only [dataCrcGen, sectorView_congr h, hv]
    exact .refused r
  | .ok none =>
    rw [dataCrcGen_no_view hv, dataCrcGen_no_view ((sectorView_congr h i).trans hv)]
    exact .refused _
  | .ok (some v) =>
    obtain ⟨d, hd, -⟩ := sectorView_elim hv
    rw [dataCrcGen_ok hv hd, dataCrcGen_ok ((sectorView_congr h i).trans hv) (h ▸ hd), h]
    exact .generated _ _

end SameCache

/-- Settles O55: each of the six operations answers two machines with one cache alike. -/
theorem lookupsReadOnlyTheCache : Obligations.LookupsReadOnlyTheCache := by
  intro i s s' h hi
  have halike : AnsweredAlike s s' (exec i s) (exec i s') := by
    obtain ⟨t, sd, sec, n, rfl | rfl | rfl | rfl | rfl | rfl⟩ := hi
    · exact scanFind_alike h t sd sec
    · exact scanFirstidam_alike h
    · exact scanView_alike h n
    · exact scanIdcrcCheck_alike h n
    · exact scanDatacrcCheck_alike h n
    · exact scanDatacrcGen_alike h n
  exact ⟨halike.refused_iff, fun t t' => halike.next_alike h⟩

end Sys2Proof.Machine
end

section
/-! The transactions that go through (rules R168 to R180, R186): what a register read returns, what a write stores, and what
becomes of a command byte. -/

namespace Sys2Proof.Machine

theorem exec_of_goesThrough {i : Instr} {b : BusTxn} {s : State} (hi : busTxnOf i = some b) (h : goesThrough b s) :
    exec i s = .next (busEffect b s) :=
  (exec_of_busTxnOf hi s).trans (transact_of_goesThrough h)

/-! ## The command byte -/

/-- The upper nibble in numbers. -/
theorem upperNibble_toNat (v : Byte) : (v.extractLsb' 4 4).toNat = v.toNat / 16 := by
  rw [BitVec.extractLsb'_toNat, Nat.shiftRight_eq_div_pow]
  omega

/-- The classification by ranges of the byte (rule R186): each range is one of nibbles. -/
theorem classify_command {s : State} (hh : hostSel s = false) (v : Byte) : classify s v =
    if v.toNat < 0x80 then .typeI
    else if v.toNat < 0xC0 then .typeII
    else if 0xD0 ≤ v.toNat ∧ v.toNat < 0xE0 then .typeIV
    else .typeIII := by
  have hn := upperNibble_toNat v
  unfold classify
  rw [if_neg (Bool.eq_false_iff.mp hh)]
  generalize v.extractLsb' 4 4 = n at hn ⊢
  have typeI : v.toNat < 0x80 ↔ n.toNat < 8 := by omega
  have typeII : v.toNat < 0xC0 ↔ n.toNat < 12 := by omega
  have typeIV : 0xD0 ≤ v.toNat ∧ v.toNat < 0xE0 ↔ n.toNat = 13 := by omega
  simp only [typeI, typeII, typeIV]
  clear hn typeI typeII typeIV
  revert n
  decide

theorem classify_host {s : State} (hh : hostSel s = true) (v : Byte) : classify s v = .typeII := if_pos hh

theorem wrCmdEffect_rejected {v : Byte} {s : State} (h : accepts s v = false) : wrCmdEffect v s = s :=
  if_pos (by rw [h]; rfl)

/-- Through the sentinel every byte is accepted, and only 0xD? leaves BUSY clear (rule R173). -/
theorem wrCmdEffect_host {s : State} (hh : hostSel s = true) (v : Byte) : wrCmdEffect v s =
    { s with
      command := v, cmdType := .typeII, cmdRecv := true, nmiStatus := s.cfg.nmiIdle
      flags := { Flags.clear with busy := decide (¬v.extractLsb' 4 4 = 0xD#4) } } := by
  have ha : accepts s v = true := by simp [accepts, hh]
  have hf : (!isForceInt v) = decide (¬v.extractLsb' 4 4 = 0xD#4) := (decide_not ..).symm
  simp only [wrCmdEffect, ha, hh, hf, classify_host hh]
  rfl

section Command
variable {v : Byte} {s : State} (hh : hostSel s = false)

section Forced
variable (hf : v.extractLsb' 4 4 = 0xD#4)
include hf

theorem isForceInt_of_nibble : isForceInt v = true := beq_iff_eq.mpr hf

include hh

theorem classify_forced : classify s v = .typeIV := by
  have hn : 13 = v.toNat / 16 := (congrArg BitVec.toNat hf).symm.trans (upperNibble_toNat v)
  rw [classify_command hh, if_neg (by omega), if_neg (by omega), if_pos (by omega)]

/-- Force Interrupt runs in the step of the write (rule R173). -/
theorem wrCmdEffect_forced :
    wrCmdEffect v s = forceInterrupt (v.extractLsb' 0 4) { s with command := v, cmdType := .typeIV } := by
  have hforce := isForceInt_of_nibble hf
  have ha : accepts s v = true := by simp [accepts, hforce]
  simp only [wrCmdEffect, ha, hh, hforce, classify_forced hh hf]
  rfl

end Forced

section NotForced
variable (hf : ¬v.extractLsb' 4 4 = 0xD#4)
include hf

theorem not_isForceInt_of_nibble : isForceInt v = false := beq_eq_false_iff_ne.mpr hf

include hh

theorem classify_latched : classify s v =
    if v.toNat < 0x80 then .typeI else if v.toNat < 0xC0 then .typeII else .typeIII := by
  have hn : v.toNat / 16 ≠ 13 := fun h => hf (BitVec.eq_of_toNat_eq ((upperNibble_toNat v).trans h))
  rw [classify_command hh, if_neg (c := 0xD0 ≤ v.toNat ∧ v.toNat < 0xE0) (by omega)]

/-- While busy, without the sentinel, the byte is dropped (rule R172). -/
theorem wrCmdEffect_busy (hb : s.flags.busy = true) : wrCmdEffect v s = s :=
  wrCmdEffect_rejected (by simp [accepts, hb, hh, not_isForceInt_of_nibble hf])

theorem wrCmdEffect_latched (hb : s.flags.busy = false) : wrCmdEffect v s =
    { s with
      command := v, cmdRecv := true, nmiStatus := s.cfg.nmiIdle
      cmdType := if v.toNat < 0x80 then .typeI else if v.toNat < 0xC0 then .typeII else .typeIII
      flags := { Flags.clear with busy := true } } := by
  have ha : accepts s v = true := by simp [accepts, hb]
  simp only [wrCmdEffect, ha, hh, not_isForceInt_of_nibble hf, classify_latched hh hf]
  rfl

end NotForced

end Command

/-- Settles O10: the byte is dropped, handed to the host channel, latched, or run at once. -/
theorem commandWriteIsLatchedRunOrDropped : Obligations.CommandWriteIsLatchedRunOrDropped := by
  intro v s hgo
  rw [exec_of_goesThrough (i := .wrCmd v) rfl hgo]
  exact ⟨fun hb hh hf => congrArg _ (wrCmdEffect_busy hh hf hb),
    fun hh => congrArg _ (wrCmdEffect_host hh v),
    fun hh hb hf => congrArg _ (wrCmdEffect_latched hh hf hb),
    fun hh hf => congrArg _ (wrCmdEffect_forced hh hf)⟩

/-! ## Register reads -/

theorem rdStatusEffect_pending {s : State} (h : s.flags.intrq = true) :
    rdStatusEffect s = (clearPending s).told (statusByte s) := by
  unfold rdStatusEffect
  rw [if_pos h]
  rfl

theorem rdStatusEffect_idle {s : State} (h : s.flags.intrq = false) : rdStatusEffect s = s.told (statusByte s) := by
  unfold rdStatusEffect
  rw [if_neg (Bool.eq_false_iff.mp h)]
  rfl

/-- Settles O7: the status byte with an interrupt pending, and without. -/
theorem statusReadClearsThePendingInterrupt : Obligations.StatusReadClearsThePendingInterrupt := by
  intro s hgo
  rw [exec_of_goesThrough rfl hgo]
  exact ⟨fun h => congrArg _ (rdStatusEffect_pending h), fun h => congrArg _ (rdStatusEffect_idle h)⟩

/-- Settles O8: each effect is the register told. -/
theorem trackSectorAndNmiReadsChangeNothing : Obligations.TrackSectorAndNmiReadsChangeNothing := fun _ _ =>
  ⟨exec_of_goesThrough rfl, exec_of_goesThrough rfl, exec_of_goesThrough rfl⟩

theorem takeDataByte_register {s : State} (hh : hostSel s = false) : takeDataByte s = (s.data, s) :=
  if_neg (Bool.eq_false_iff.mp hh)

theorem takeDataByte_ready {s : State} {b : Byte} {r : List Byte} (hh : hostSel s = true) (hb : s.env.hostxBytes = b :: r) :
    takeDataByte s = (b, { s with env := { s.env with hostxBytes := r } }) := by
  unfold takeDataByte
  rw [if_pos hh, hb]

theorem takeDataByte_free {s : State} (hh : hostSel s = true) (hb : s.env.hostxBytes = []) :
    takeDataByte s = (Config.freeByte s.draws, { s with draws := s.draws + 1 }) := by
  unfold takeDataByte
  rw [if_pos hh, hb]

theorem rdDataEffect_of_take {s t : State} {b : Byte} (h : takeDataByte s = (b, t)) :
    rdDataEffect s = State.told { t with flags := { t.flags with drq := false } } b := by
  rw [rdDataEffect_eq, h]
  rfl

/-- Settles O9: the byte is `DATA`, the one HOSTX has ready, or a free value. -/
theorem dataReadReturnsAByteAndClearsDrq : Obligations.DataReadReturnsAByteAndClearsDrq := by
  intro s hgo
  rw [exec_of_goesThrough rfl hgo]
  exact ⟨fun hh => congrArg _ (rdDataEffect_of_take (takeDataByte_register hh)),
    fun b r hh hb => congrArg _ (rdDataEffect_of_take (takeDataByte_ready hh hb)),
    fun hh hb => ⟨_, congrArg _ (rdDataEffect_of_take (takeDataByte_free hh hb))⟩⟩

/-! ## Register writes -/

/-- Entering the host channel saves the old selection (rule R178). -/
theorem wrDrvselEffect_enters {v : Byte} {s : State} (hv : v.extractLsb' 0 4 = 0xF#4) (hh : hostSel s = false) :
    wrDrvselEffect v s = { s with drvSelBackup := s.drvSel, drvSel := v, motorUs := s.cfg.motorOnUs } := by
  unfold wrDrvselEffect
  rw [if_pos (by simp [hv, hh])]

theorem wrDrvselEffect_stays {v : Byte} {s : State} (h : v.extractLsb' 0 4 ≠ 0xF#4 ∨ hostSel s = true) :
    wrDrvselEffect v s = { s with drvSel := v, motorUs := s.cfg.motorOnUs } := by
  have hcond : ¬(v.extractLsb' 0 4 == 0xF#4 && !hostSel s) = true := by
    rcases h with hv | hh
    · simp [hv]
    · simp [hh]
  unfold wrDrvselEffect
  rw [if_neg hcond]

/-- Settles O12: four plain writes, and the drive selection entering the host channel or not. -/
theorem registerAndLatchWritesStoreTheByte : Obligations.RegisterAndLatchWritesStoreTheByte := by
  refine fun v a s => ⟨exec_of_goesThrough rfl, exec_of_goesThrough rfl, exec_of_goesThrough rfl,
    exec_of_goesThrough rfl, fun hgo => ?_⟩
  rw [exec_of_goesThrough rfl hgo]
  exact ⟨fun ⟨hv, hh⟩ => congrArg _ (wrDrvselEffect_enters hv hh), fun h => congrArg _ (wrDrvselEffect_stays h)⟩

end Sys2Proof.Machine
end

section
/-! The commands (44_commands.md): what each does once its load, its lookup and its checks have answered, the step delay in both
branches of D19, and the classification of a command byte (rules R186 to R209, R257). -/

namespace Sys2Proof.Machine

/-! ## Classification and Force Interrupt -/

/-- Settles O18: the sentinel's class, and the ranges of the byte. -/
theorem classificationFollowsTheUpperNibble : Obligations.ClassificationFollowsTheUpperNibble := by
  intro v s
  show Host.Outcome.next (s.answered (.cmdType (classify s v))) = _
  by_cases hh : hostSel s = true
  · rw [if_pos hh, classify_host hh]
  · rw [if_neg hh, classify_command (Bool.eq_false_iff.mpr hh)]

/-- Settles O11: the command is its effect, whatever the state. -/
theorem forceInterruptClearsEverything : Obligations.ForceInterruptClearsEverything := fun _ _ => rfl

/-! ## A load made by a command (rule R142) -/

theorem error_of_tellWith_refused {α : Type} {f : α → Result} {x : Except Refusal (α × State)} {r : Refusal}
    (h : tellWith f x = .refused r) : x = .error r := by
  cases x with
  | error e => cases h; rfl
  | ok p => cases h

theorem ensureTrack_refused {d : Fin 4} {side : Bool} {track : Byte} {s : State} {r : Refusal}
    (h : exec (.scanEnsure d side track) s = .refused r) : ensureTrack d side track s = .error r :=
  error_of_tellWith_refused h

theorem exec_scanEnsure_ok {d : Fin 4} {side : Bool} {track : Byte} {s u : State} {ok : Bool}
    (h : ensureTrack d side track s = .ok (ok, u)) :
    exec (.scanEnsure d side track) s = .next (u.answered (.loaded ok)) :=
  congrArg (tellWith .loaded) h

/-- Only an HFE image can be malformed (rule R252). -/
theorem ensureReady_of_dmk {d : Fin 4} {side : Bool} {track : Byte} {s : State} (h : s.drives[d].format = .dmk) :
    ensureReady s d side track = true := by
  have hl : loadable s d track = true := by
    unfold loadable
    simp only [h]
    rfl
  rw [ensureReady, hl, Bool.or_true]

/-! ## Type I (rules R190 to R196, R257) -/

section Arrival
variable {d : Fin 4} {side : Bool} {track : Byte} {s : State}

/-- The load's answer is ignored: the head arrives (rule R192). -/
theorem finishStep_seek_ready (h : ensureReady s d side track = true) :
    ∃ (ok : Bool) (u : State), exec (.scanEnsure d side track) s = .next (u.answered (.loaded ok)) ∧
      finishStep (.seek d side track) s =
        .ok (State.completed { u with track := track, flags := { u.flags with seekErr := false } }) := by
  obtain ⟨ok, u, hload, -⟩ := ensureTrack_spec h
  refine ⟨ok, u, exec_scanEnsure_ok hload, ?_⟩
  unfold finishStep
  simp only [hload]
  rfl

theorem finishStep_seek_refused {r : Refusal} (h : exec (.scanEnsure d side track) s = .refused r) :
    finishStep (.seek d side track) s = .error r := by
  unfold finishStep
  simp only [ensureTrack_refused h]
  rfl

end Arrival

theorem finishStep_step (new : Option Byte) (s : State) :
    finishStep (.step new) s = .ok (State.completed { s with track := new.getD s.track }) := rfl

theorem restoreBody_unmounted {s : State} (h : mounted s = none) :
    restoreBody s = .ok (State.completed { s with track := 0, flags := { s.flags with seekErr := false } }) := by
  unfold restoreBody
  rw [h]
  rfl

/-- With a drive, RESTORE is the end of a seek to track 0 (rule R190). -/
theorem restoreBody_mounted {s : State} {d : Fin 4} (h : mounted s = some d) :
    restoreBody s = finishStep (.seek d (sideSel s) 0) s := by
  unfold restoreBody finishStep
  simp only [h]
  cases ensureTrack d (sideSel s) 0 s <;> rfl

/-- Settles O20: without a drive, and with one as the end of a seek to track 0. -/
theorem restoreGoesToTrackZero : Obligations.RestoreGoesToTrackZero := by
  refine fun z s => ⟨fun hm => congrArg answer (restoreBody_unmounted hm), fun d hm hready => ?_, fun d r hm hr =>
    congrArg answer ((restoreBody_mounted hm).trans (finishStep_seek_refused hr))⟩
  obtain ⟨ok, u, hload, hfinish⟩ := finishStep_seek_ready hready
  exact ⟨ok, u, hload, congrArg answer ((restoreBody_mounted hm).trans hfinish)⟩

/-- The delay of a step or a seek, branch by branch (D19). -/
theorem afterDelay_blocking {s : State} (h : s.cfg.stepDelay = .blocking) (us : Nat) (w : StepWait) :
    afterDelay us w s = finishStep w { s with timerUs := us } := by
  unfold afterDelay
  simp only [h]

theorem afterDelay_tickBased {s : State} (h : s.cfg.stepDelay = .tickBased) (us : Nat) (w : StepWait) :
    afterDelay us w s = .ok { s with timerUs := us, stepWait := some w } := by
  unfold afterDelay
  simp only [h]

theorem stepMs_eq (rate : BitVec 2) : stepMs rate = if rate = 0 then 3 else if rate = 1 then 6 else if rate = 2 then 10 else 15 := by
  revert rate
  decide

theorem delayUs_one (rate : BitVec 2) : delayUs rate 1 = stepMs rate * 1000 := by
  rw [delayUs, Nat.mul_one]

theorem distance_eq (a b : Byte) : distance a b = max (a.toNat - b.toNat) (b.toNat - a.toNat) := by
  unfold distance
  omega

theorem seekBody_beyond {s : State} (rate : BitVec 2)
    (h : mounted s = none ∨ ∃ d, mounted s = some d ∧ s.drives[d].tracks ≤ s.data.toNat) :
    seekBody rate s = .ok (State.completed { s with flags := { s.flags with seekErr := true } }) := by
  unfold seekBody
  rcases h with hm | ⟨d, hm, hbeyond⟩
  · simp only [hm]
    rfl
  · simp only [hm, if_pos hbeyond]
    rfl

theorem seekBody_inRange {s : State} {d : Fin 4} (rate : BitVec 2) (hm : mounted s = some d)
    (h : s.data.toNat < s.drives[d].tracks) :
    seekBody rate s = afterDelay (delayUs rate (distance s.data s.track)) (.seek d (sideSel s) s.data) s := by
  unfold seekBody
  simp only [hm, if_neg (Nat.not_le.mpr h)]

/-- Settles O21: the error, and in the blocking branch the arrival after the delay. -/
theorem seekReachesTheTargetOrFails : Obligations.SeekReachesTheTargetOrFails := by
  refine fun z rate s => ⟨fun h => congrArg answer (seekBody_beyond rate h), fun d hblock hm hin => ?_⟩
  have hseek := (seekBody_inRange rate hm hin).trans (afterDelay_blocking hblock _ _)
  rw [delayUs, stepMs_eq, distance_eq] at hseek
  intro ms steps s1
  refine ⟨fun hready => ?_, fun r hr => congrArg answer (hseek.trans (finishStep_seek_refused hr))⟩
  obtain ⟨ok, u, hload, hfinish⟩ := finishStep_seek_ready (s := s1) hready
  exact ⟨ok, u, hload, congrArg answer (hseek.trans hfinish)⟩

/-- One step inward stops at 255, one outward at 0 (rule R189). -/
theorem stepped_eq (t : Byte) (d : Dir) : stepped t d =
    if d = .plus then (if t = 255 then 255 else t + 1) else (if t = 0 then 0 else t - 1) := by
  revert t
  cases d <;> decide

theorem stepCommand_blocking {s : State} (h : s.cfg.stepDelay = .blocking) (u : Bool) (rate : BitVec 2) (d : Dir) :
    stepCommand u rate d s = .ok (State.completed
      { s with timerUs := stepMs rate * 1000, track := if u then stepped s.track d else s.track }) := by
  rw [stepCommand, afterDelay_blocking h, delayUs_one, finishStep_step]
  cases u <;> rfl

theorem stepCommand_tickBased {s : State} (h : s.cfg.stepDelay = .tickBased) (u : Bool) (rate : BitVec 2) (d : Dir) :
    stepCommand u rate d s = .ok
      { s with timerUs := stepMs rate * 1000, stepWait := some (.step (if u then some (stepped s.track d) else none)) } := by
  rw [stepCommand, afterDelay_tickBased h, delayUs_one]

/-- Settles O22: each is a step, of the kept or the forced direction. -/
theorem stepsClampAndComplete : Obligations.StepsClampAndComplete := by
  intro u _ rate s h
  have stepping := fun d => stepCommand_blocking (s := { s with dir := d }) h u rate d
  simp only [stepMs_eq, stepped_eq] at stepping
  exact ⟨congrArg answer (stepping s.dir), congrArg answer (stepping .plus), congrArg answer (stepping .minus)⟩

section Resume
variable {s : State} {w : StepWait} {rest : List Input} (hin : s.inputs = .move .loopResume :: rest) (hw : s.stepWait = some w)
include hin hw

theorem step_loopResume_early (h : s.timerUs ≠ 0) : step s = .refused .moveNotEnabled := by
  rw [step_of_move hin]
  unfold runMove
  simp only [hw, if_neg h]
  rfl

theorem step_loopResume_due (h : s.timerUs = 0) :
    step s = answer (finishStep w { s with inputs := rest, stepWait := none }) := by
  rw [step_of_move hin]
  unfold runMove
  simp only [hw, if_pos h]

end Resume

/-- Settles O23: the first step records the delay and what waits for it, the second is the end of a step or a seek. -/
theorem tickBasedDelaySplitsTheStep : Obligations.TickBasedDelaySplitsTheStep := by
  refine ⟨fun u _ rate s h => ?steps, fun _ rate s d h hm hlt => ?seek, fun _ _ _ => step_loopResume_early,
    fun _ _ _ => step_loopResume_due, fun d side target rest s hin hw h hready => ?arrival⟩
  case steps =>
    have stepping := fun d => stepCommand_tickBased (s := { s with dir := d }) h u rate d
    simp only [stepMs_eq, stepped_eq] at stepping
    exact ⟨congrArg answer (stepping s.dir), congrArg answer (stepping .plus), congrArg answer (stepping .minus)⟩
  case seek =>
    have hseek := (seekBody_inRange rate hm hlt).trans (afterDelay_tickBased h _ _)
    rw [delayUs, stepMs_eq, distance_eq] at hseek
    exact congrArg answer hseek
  case arrival =>
    obtain ⟨ok, u, hload, hfinish⟩ := finishStep_seek_ready (s := { s with inputs := rest, stepWait := none }) hready
    exact ⟨ok, u, hload, (step_loopResume_due hin hw h).trans (congrArg answer hfinish)⟩

/-! ## Type II (rules R200 to R204) -/

theorem resolveSector_unmounted {s : State} (h : mounted s = none) : resolveSector s = .ok (none, s) := by
  unfold resolveSector
  rw [h]

section Resolution
variable {s u : State} {d : Fin 4} (hm : mounted s = some d)
include hm

theorem resolveSector_refused {r : Refusal} (h : ensureTrack d (sideSel s) s.track s = .error r) :
    resolveSector s = .error r := by
  unfold resolveSector
  simp only [hm, h]
  rfl

theorem resolveSector_not_loaded (h : ensureTrack d (sideSel s) s.track s = .ok (false, u)) :
    resolveSector s = .ok (none, u) := by
  unfold resolveSector
  simp only [hm, h]
  rfl

variable (hload : ensureTrack d (sideSel s) s.track s = .ok (true, u))
include hload

/-- The lookup asks for the registers as they were before the load, which leaves them. -/
theorem resolveSector_loaded (hframe : LoadFrame s u) {f : Option (Fin 128)}
    (hf : findSector u s.track (sideByte (sideSel s)) s.sector = .ok f) :
    resolveSector s = f.elim (.ok (none, u)) fun i => (sectorView u i).map fun w => (w.map (i, ·), u) := by
  have hregs : u.track = s.track ∧ sideSel u = sideSel s ∧ u.sector = s.sector := by
    rw [hframe]
    exact ⟨rfl, rfl, rfl⟩
  obtain ⟨htrack, hside, hsector⟩ := hregs
  unfold resolveSector
  simp only [hm, hload, bind, Except.bind, htrack, hside, hsector, hf]
  cases f with
  | none => rfl
  | some i =>
    rw [Option.elim_some]
    rcases hw : sectorView u i with r | _ | v <;> simp only [hw] <;> rfl

end Resolution

section Staging
variable {z : BitVec 5} {i : Instr} (hi : i = .rdsec z ∨ i = .wrsec z) {s u : State}
include hi

/-- Both sector commands go on from the resolution, and without a sector both bail out (rule R202). -/
theorem exec_sectorCommand_eq (s : State) : ∃ goOn : Option (Fin 128 × SectorView) × State → Except Refusal State,
    (∀ u, goOn (none, u) = .ok u.bailedOut) ∧ exec i s = answer (resolveSector s >>= goOn) := by
  rcases hi with rfl | rfl
  · refine ⟨_, ?_, show answer (rdsecBody s) = _ from rfl⟩
    exact fun _ => rfl
  · refine ⟨_, ?_, show answer (wrsecBody s) = _ from rfl⟩
    exact fun _ => rfl

theorem exec_sectorCommand_refused {r : Refusal} (h : resolveSector s = .error r) : exec i s = .refused r := by
  obtain ⟨goOn, -, hgo⟩ := exec_sectorCommand_eq hi s
  rw [hgo, h]
  rfl

theorem exec_sectorCommand_bails (h : resolveSector s = .ok (none, u)) : exec i s = .next u.bailedOut := by
  obtain ⟨goOn, hnone, hgo⟩ := exec_sectorCommand_eq hi s
  rw [hgo, h]
  exact congrArg answer (hnone u)

end Staging

theorem exec_wrsec_found {z : BitVec 5} {s u : State} {n : Fin 128} {v : SectorView}
    (h : resolveSector s = .ok (some (n, v), u)) :
    exec (.wrsec z) s = .next
      { u with xfer := ⟨.trk, v.dataOff, v.size, 0, some n⟩, svcTag := .writeSector, svcSub := 0 } := by
  show answer (wrsecBody s) = _
  unfold wrsecBody
  rw [h]
  rfl

theorem raiseUnless_crcError (ok : Bool) (s : State) :
    raiseUnless ok .crcError s = { s with flags := { s.flags with crcErr := s.flags.crcErr || !ok } } := by
  cases ok
  · simp [raiseUnless, State.raise]
  · simp [raiseUnless]

/-- What a check of the data field answers, and the checksum it leaves, rest on the cache alone (rule R152). -/
theorem dataCrcCheck_of_view {s : State} {n : Fin 128} {v : SectorView} (hv : sectorView s n = .ok (some v)) :
    ∃ (ok : Bool) (c : Word16), ∀ t : State, t.cache = s.cache → dataCrcCheck n t = .ok (ok, { t with crc := c }) := by
  obtain ⟨d, hd, -⟩ := sectorView_elim hv
  refine ⟨decide (dataSum s.cache d v.size = s.cache.storedSum d v.size), dataSum s.cache d v.size, fun t ht => ?_⟩
  rw [dataCrcCheck_ok ((sectorView_congr ht n).trans hv) (ht ▸ hd), ht]
  rfl

/-- Each failed check adds CRCERR, and the command goes on (rules R203, R218). -/
theorem exec_rdsec_found {z : BitVec 5} {s u : State} {n : Fin 128} {v : SectorView} {idOk dataOk : Bool} {c1 c2 : Word16}
    (h : resolveSector s = .ok (some (n, v), u)) (hid : idCrcCheck n u = .ok (idOk, { u with crc := c1 }))
    (hdata : ∀ t : State, t.cache = u.cache → dataCrcCheck n t = .ok (dataOk, { t with crc := c2 })) :
    exec (.rdsec z) s = .next
      { u with
        crc := c2
        flags := { u.flags with crcErr := u.flags.crcErr || !idOk || !dataOk, recType := decide (v.mark = 0xF8) }
        xfer := ⟨.trk, v.dataOff, v.size, 0, some n⟩, svcTag := .readSector, svcSub := 0 } := by
  show answer (rdsecBody s) = _
  unfold rdsecBody
  simp only [h, hid, hdata, bind, Except.bind, raiseUnless_crcError]
  rfl

/-- A slot a search answers lies in the track with its ID field (rules R144, R147). -/
theorem slot_of_findSector {s : State} {track side sector : Byte} {n : Fin 128} (hfit : s.cache.tablesFit = true)
    (h : findSector s track side sector = .ok (some n)) :
    s.cache.pfx ≤ s.cache.idam[n] ∧ s.cache.idam[n] + 6 < s.cache.len := by
  obtain ⟨f, hf, hsome, -⟩ := findSector_ok track side sector (searchable_of_fit hfit)
  obtain ⟨⟨hused, -⟩, -⟩ := hsome n (Except.ok.inj (hf.symm.trans h))
  obtain ⟨hlow, hhigh, -⟩ := slotFits_elim ((tablesFit_iff _).mp hfit n) hused
  exact ⟨hlow, hhigh⟩

theorem sectorView_answers {s : State} {n : Fin 128} (h : s.cache.idam[n] + 4 < s.cache.len) :
    ∃ w, sectorView s n = .ok w := by
  cases hd : s.cache.dam[n] with
  | none => exact ⟨_, sectorView_none hd⟩
  | some d => exact ⟨_, sectorView_some hd h⟩

/-- Settles O24: the ways a resolution can go, and what is staged when it finds a view. -/
theorem sectorCommandsResolveAndStage : Obligations.SectorCommandsResolveAndStage := by
  refine fun z i s hi => ⟨fun hm => exec_sectorCommand_bails hi (resolveSector_unmounted hm), fun d r hm hr =>
    exec_sectorCommand_refused hi (resolveSector_refused hm (ensureTrack_refused hr)), fun d hm hready => ?_⟩
  obtain ⟨ok, u, hload, hframe, -, hfit⟩ := ensureTrack_spec (ensureReady_of_lookupReady hready)
  refine ⟨ok, u, exec_scanEnsure_ok hload, fun hok => ?notLoaded, fun hok => ?loaded⟩ <;> subst hok
  case notLoaded => exact exec_sectorCommand_bails hi (resolveSector_not_loaded hm hload)
  case loaded =>
    have hfit := hfit hready rfl
    obtain ⟨f, hf, -⟩ := findSector_ok s.track (sideByte (sideSel s)) s.sector (searchable_of_fit hfit)
    have hresolve := resolveSector_loaded hm hload hframe hf
    refine ⟨f, exec_scanFind_ok hf, fun hnone => ?_, fun n hn => ?_⟩
    · subst hnone
      exact exec_sectorCommand_bails hi hresolve
    · subst hn
      obtain ⟨hlow, hhigh⟩ := slot_of_findSector hfit hf
      obtain ⟨w, hw⟩ := sectorView_answers (Nat.lt_of_le_of_lt (Nat.add_le_add_left (by decide) _) hhigh)
      rw [Option.elim_some, hw] at hresolve
      refine ⟨w, exec_scanView_ok hw, fun hnone => ?_, fun v hv => ?_⟩
      · subst hnone
        exact exec_sectorCommand_bails hi hresolve
      · subst hv
        refine ⟨fun hwr => hwr ▸ exec_wrsec_found hresolve, fun hrd => ?_⟩
        obtain ⟨dataOk, c2, hdata⟩ := dataCrcCheck_of_view hw
        have hid := idCrcCheck_ok hlow hhigh
        exact ⟨_, dataOk, _, c2, congrArg (tellWith .bool) hid, congrArg (tellWith .bool) (hdata u rfl),
          hrd ▸ exec_rdsec_found hresolve hid hdata⟩

/-! ## Type III (rules R206 to R208) -/

/-- Reads within the track are the bytes there (rule R52). -/
theorem trkReads_ok {s : State} {a n : Nat} (h : a + n ≤ s.cache.len) : trkReads s a n = .ok (s.cache.bytes a n) := by
  induction n generalizing a with
  | zero => rfl
  | succ n ih =>
    have htail : s.cache.bytes a (n + 1) = s.cache.trk.read a :: s.cache.bytes (a + 1) n := by
      simp only [Cache.bytes, List.range_succ_eq_map, List.map_cons, List.map_map, Nat.add_zero, Function.comp_def,
        Nat.succ_eq_add_one, Nat.add_assoc, Nat.add_comm 1]
    unfold trkReads
    rw [trkRead_ok (by omega), ih (by omega), htail]
    rfl

section TypeIII
variable {z : BitVec 4} {s u : State} {d : Fin 4} (hm : mounted s = some d)

theorem exec_rdaddr_unmounted (h : mounted s = none) : exec (.rdaddr z) s = .next s.bailedOut := by
  show answer (rdaddrBody s) = _
  unfold rdaddrBody
  rw [h]
  rfl

theorem exec_wrtrk_unmounted (h : mounted s = none) : exec (.wrtrk z) s = .next s.bailedOut := by
  show answer (wrtrkBody s) = _
  unfold wrtrkBody
  rw [h]
  rfl

include hm

theorem exec_rdaddr_refused {r : Refusal} (h : ensureTrack d (sideSel s) s.track s = .error r) :
    exec (.rdaddr z) s = .refused r := by
  show answer (rdaddrBody s) = _
  unfold rdaddrBody
  simp only [hm, h]
  rfl

theorem exec_rdaddr_not_loaded (h : ensureTrack d (sideSel s) s.track s = .ok (false, u)) :
    exec (.rdaddr z) s = .next u.bailedOut := by
  show answer (rdaddrBody s) = _
  unfold rdaddrBody
  simp only [hm, h]
  rfl

theorem exec_rdaddr_no_slot (h : ensureTrack d (sideSel s) s.track s = .ok (true, u)) (hf : firstIdam u = none) :
    exec (.rdaddr z) s = .next u.bailedOut := by
  show answer (rdaddrBody s) = _
  unfold rdaddrBody
  simp only [hm, h, hf, bind, Except.bind]
  rfl

theorem exec_rdaddr_found {n : Fin 128} (h : ensureTrack d (sideSel s) s.track s = .ok (true, u))
    (hf : firstIdam u = some n) (hin : u.cache.idam[n] + 6 < u.cache.len) :
    exec (.rdaddr z) s = .next
      { u with
        stage := u.stage.writeBlock 0 (u.cache.bytes (u.cache.idam[n] + 1) 6)
        xfer := ⟨.stage, 0, 6, 0, some n⟩, svcTag := .sendData, svcSub := 0 } := by
  have hreads : trkReads u (u.cache.idam[n] + 1) 6 = .ok (u.cache.bytes (u.cache.idam[n] + 1) 6) := trkReads_ok (by omega)
  show answer (rdaddrBody s) = _
  unfold rdaddrBody
  simp only [hm, h, hf, bind, Except.bind]
  rw [hreads]
  rfl

theorem exec_wrtrk_hfe (h : s.drives[d].format = .hfe) : exec (.wrtrk z) s = .refused .needsFluxEncoder := by
  show answer (wrtrkBody s) = _
  unfold wrtrkBody
  simp only [hm, if_pos h]
  rfl

variable (hdmk : s.drives[d].format = .dmk)
include hdmk

theorem exec_wrtrk_not_loaded (h : ensureTrack d (sideSel s) s.track s = .ok (false, u)) :
    exec (.wrtrk z) s = .next u.bailedOut := by
  show answer (wrtrkBody s) = _
  unfold wrtrkBody
  simp only [hm, hdmk, h]
  rfl

theorem exec_wrtrk_loaded (h : ensureTrack d (sideSel s) s.track s = .ok (true, u)) :
    exec (.wrtrk z) s = .next
      { u with
        cache := { u.cache with trk := u.cache.trk.clear 256 (u.cache.len - 256) }
        xfer := ⟨.stage, 0, u.drives[d].trackLength, 0, none⟩, svcTag := .writeTrack, svcSub := 0 } := by
  show answer (wrtrkBody s) = _
  unfold wrtrkBody
  simp only [hm, hdmk, h]
  rfl

end TypeIII

/-- What is resident after the pointer table (rule R207). -/
theorem resident_length (n : Nat) : (if 256 < n then n - 256 else 0) = n - 256 := by
  split <;> omega

/-- Settles O25: the ways RDADDR can go, the six bytes it stages, and RDTRK, which looks at nothing but the track's length. -/
theorem readAddressAndReadTrackStageTheirBytes : Obligations.ReadAddressAndReadTrackStageTheirBytes := by
  refine ⟨fun z s => ⟨exec_rdaddr_unmounted, fun d r hm hr => exec_rdaddr_refused hm (ensureTrack_refused hr),
    fun d hm hready => ?_⟩, fun z s => by rw [resident_length]; rfl⟩
  obtain ⟨ok, u, hload, -, -, hfit⟩ := ensureTrack_spec (ensureReady_of_lookupReady hready)
  refine ⟨ok, u, exec_scanEnsure_ok hload, fun hok => ?notLoaded, fun hok => ?loaded⟩ <;> subst hok
  case notLoaded => exact exec_rdaddr_not_loaded hm hload
  case loaded =>
    refine ⟨firstIdam u, rfl, exec_rdaddr_no_slot hm hload, fun n hn => ?_⟩
    obtain ⟨hused, -⟩ := firstIdam_some hn
    obtain ⟨-, hin, -⟩ := slotFits_elim ((tablesFit_iff _).mp (hfit hready rfl) n) hused
    obtain ⟨hread, hrest⟩ := stored_writeBlock u.stage 0 (u.cache.bytes (u.cache.idam[n] + 1) 6)
    refine ⟨_, exec_rdaddr_found hm hload hn hin, fun k hk => ?_, hrest⟩
    have hbyte : (u.cache.bytes (u.cache.idam[n] + 1) 6)[k]? = some (u.cache.trk.read (u.cache.idam[n] + 1 + k)) := by
      simp [Cache.bytes, hk]
    simpa using hread k _ hbyte

/-- Settles O26: the ways WRTRK can go, and that the cleared block is the body. -/
theorem writeTrackClearsTheBody : Obligations.WriteTrackClearsTheBody := by
  refine fun z s => ⟨exec_wrtrk_unmounted, fun d => exec_wrtrk_hfe, fun d hm hdmk => ?_⟩
  obtain ⟨ok, u, hload, -⟩ := ensureTrack_spec (side := sideSel s) (track := s.track) (ensureReady_of_dmk hdmk)
  refine ⟨ok, u, exec_scanEnsure_ok hload, fun hok => ?notLoaded, fun hok => ?loaded⟩ <;> subst hok
  case notLoaded => exact exec_wrtrk_not_loaded hm hdmk hload
  case loaded =>
    refine ⟨_, exec_wrtrk_loaded hm hdmk hload, fun a => ?_⟩
    rw [Memory.read_clear]
    have hbody : 256 ≤ a ∧ a < 256 + (u.cache.len - 256) ↔ 256 ≤ a ∧ a < u.cache.len := by omega
    simp only [hbody]

end Sys2Proof.Machine
end

section
/-! RESET and the state it leaves (70_reset_and_hazards.md): when it takes effect, that the power-on state is one it leaves, and
what the status byte shows with no drive selected (rules R16, R18, R245, R250, R251). -/

namespace Sys2Proof.Machine

/-! ## RESET (rules R245, R250) -/

theorem resetDue_iff {s : State} : resetDue s = true ↔ s.env.resetLine = true ∧ s.cfg.resetHoldUs ≤ s.env.resetHeldUs := by
  simp [resetDue]

theorem exec_reset_due {s : State} (h : resetDue s = true) : exec .reset s = .next (resetState s) := if_pos h

theorem exec_reset_not_due {s : State} (h : ¬resetDue s = true) : exec .reset s = .next s := if_neg h

/-- A reset finds nothing to change in the power-on state, however it is held (D42). -/
theorem resetState_powerOn (line : Bool) (us : Nat) :
    let held := { State.reset with env := { State.reset.env with resetLine := line, resetHeldUs := us } }
    resetState held = held := rfl

/-- Settles O56: the two ways RESET can go, and that it leaves the power-on state as it is. -/
theorem resetReinitialisesTheState : Obligations.ResetReinitialisesTheState := by
  refine ⟨fun s => ⟨fun hline hheld => ?held, fun hshort => ?short⟩, fun us hus => ?powerOn⟩
  case held => exact ⟨_, _, _, _, _, _, exec_reset_due (resetDue_iff.mpr ⟨hline, hheld⟩)⟩
  case short =>
    refine exec_reset_not_due fun hdue => ?_
    obtain ⟨hline, hheld⟩ := resetDue_iff.mp hdue
    rcases hshort with hreleased | hearly
    · exact Bool.false_ne_true (hreleased.symm.trans hline)
    · exact absurd hheld (Nat.not_le.mpr hearly)
  case powerOn =>
    exact (exec_reset_due (resetDue_iff.mpr ⟨rfl, hus⟩)).trans (congrArg Host.Outcome.next (resetState_powerOn true us))

/-! ## The status byte with no drive selected (rules R16, R18) -/

theorem selDrive_of_drvSel_zero {s : State} (h : s.drvSel = 0) : selDrive s = none :=
  selDrive_eq_none_iff.mpr (.inr fun j _ => by rw [h, BitVec.ofNat_eq_ofNat, BitVec.getLsbD_zero])

theorem notReady_of_no_drive {s : State} (h : selDrive s = none) : notReady s = true := by
  simp [notReady_iff, h]

theorem isProtected_of_no_drive {s : State} (h : selDrive s = none) : isProtected s = false := by
  simp [isProtected, h]

/-- With every flag clear the Type I shape shows `NOTREADY` and `TRACK0`, the constant 0x84, beside its two inputs. -/
theorem statusByte_of_no_drive {s : State} (hd : selDrive s = none) (ht : s.track = 0) (hf : s.flags = Flags.clear)
    (hc : s.cmdType = .typeI) :
    statusByte s = 0x84 ||| (BitVec.ofBool s.cfg.hldStatus).setWidth 8 <<< 5 |||
      (BitVec.ofBool s.env.indexIn).setWidth 8 <<< 1 := by
  have bits : ∀ h x : Bool, byteOf true false h false false true x false =
      0x84 ||| (BitVec.ofBool h).setWidth 8 <<< 5 ||| (BitVec.ofBool x).setWidth 8 <<< 1 := by decide
  rw [statusByte_of_I (.inl hc), ← bits]
  simp [statusByteI, notReady_of_no_drive hd, isProtected_of_no_drive hd, trackZero, ht, hf, Flags.clear]

/-! ## The power-on state (rules R6, R32, R37, R167, R251) -/

theorem reset_tables_empty (i : Fin 128) : State.reset.cache.idam[i] = 0 ∧ State.reset.cache.dam[i] = none := by
  simp [State.reset, emptyIdam, emptyDam]

/-- The parameters and the four invariants at power-on. -/
theorem reset_invariants : State.reset.cfg.wf = true ∧ State.reset.memoriesCanonical = true ∧
    State.reset.latchShowsRequest = true ∧ State.reset.cursorInRange = true ∧ State.reset.trackFits = true := by decide

/-- Settles O57: the table's values are those of `State.reset`, and its drive selection names no drive. -/
theorem resetStateMeetsTheTable : Obligations.ResetStateMeetsTheTable := by
  refine ⟨?registers, ?units, fun c x => ?status, reset_invariants⟩
  case registers => decide
  case units => exact ⟨rfl, rfl, rfl, rfl, rfl, rfl, rfl, rfl, rfl, rfl, rfl, reset_tables_empty, rfl⟩
  case status => exact statusByte_of_no_drive (selDrive_of_drvSel_zero rfl) rfl rfl rfl

end Sys2Proof.Machine
end

section
/-! The memories across a step (20_memory.md): every step of every agent leaves each of them in its canonical form. -/

namespace Sys2Proof.Machine

/-- Settles O58: the lemma about the step that also settles O59 and O60 (`Keeps.step`, one case per instruction and per move),
its part about the memories. -/
theorem stepKeepsMemoriesCanonical : Obligations.StepKeepsMemoriesCanonical :=
  fun _ _ hs h => (Keeps.step h).canon hs

end Sys2Proof.Machine
end
